-- ==== Sys2Proof/Word.lean ====
section
/-! DEFINITION. The word types of the DLT645 codec block (spec/20_memory.md R60, spec/00_scope.md R9). -/

namespace Sys2Proof

/-- One byte: an element of the arrays DATA, WIRE, NBUF, ADDR, MY_ADDR (R9). -/
abbrev Byte := BitVec 8

/-- One host-port word (R60: there is exactly one access width, 32 bits). -/
abbrev Word := BitVec 32

/-- One host-port byte address (R60: `a` is a 12-bit byte address). -/
abbrev Addr := BitVec 12

end Sys2Proof
end

