-- ==== Sys2Proof/Syntax.lean ====
section
/-! DEFINITION. The 18 commands of the block as syntax: one constructor per row of spec/opcode_table.json
(spec/30_encoding.md R86), with the operand fields that the row marks as used (R80). -/

namespace Sys2Proof

/-- A command. `le` is the LE bit (R81), `nb` the 4-bit byte count NB (R82: legal 1..8) and `fmt` the 4-bit format code FMT
(R83: legal 0..7). Illegal field values are expressible and are what `WellFormed` refuses. -/
inductive Instr where
  /-- NOP, R240 -/
  | nop
  /-- FRAME_BUILD, R191 -/
  | frameBuild
  /-- FRAME_PARSE, R195 -/
  | frameParse
  /-- ADDR_MATCH_SRV, R230 -/
  | addrMatchSrv
  /-- ADDR_MATCH_CLI, R231 -/
  | addrMatchCli
  /-- DOMAIN_ENCODE, R201 -/
  | domainEncode
  /-- DOMAIN_DECODE, R202 -/
  | domainDecode
  /-- BCD8_TO_BIN, R112 -/
  | bcd8ToBin
  /-- BIN_TO_BCD8, R113 -/
  | binToBcd8
  /-- INT_TO_BCD le, nb, R114 -/
  | intToBcd (le : Bool) (nb : BitVec 4)
  /-- BCD_TO_INT le, nb, R116 -/
  | bcdToInt (le : Bool) (nb : BitVec 4)
  /-- FLOAT_TO_BCD le, fmt, R146 -/
  | floatToBcd (le : Bool) (fmt : BitVec 4)
  /-- BCD_TO_FLOAT le, nb, fmt, R148 -/
  | bcdToFloat (le : Bool) (nb : BitVec 4) (fmt : BitVec 4)
  /-- VALUE_VALID fmt, R150 -/
  | valueValid (fmt : BitVec 4)
  /-- TIME_TO_BCD le, R172 -/
  | timeToBcd (le : Bool)
  /-- BCD_TO_TIME le, R173 -/
  | bcdToTime (le : Bool)
  /-- U32_TO_LE4, R117 -/
  | u32ToLe4
  /-- LE4_TO_U32, R118 -/
  | le4ToU32
  deriving DecidableEq, Repr

end Sys2Proof
end

