-- ==== Sys2Proof/WellFormed.lean ====
section
/-! DEFINITION. Which commands the encoding admits: the operand ranges of spec/30_encoding.md R82 and R83. -/

namespace Sys2Proof

/-- R82: "For a command that uses NB, the legal values are 1..8." -/
def legalNB (nb : BitVec 4) : Bool := decide (1 ≤ nb.toNat) && decide (nb.toNat ≤ 8)

/-- R83: "For a command that uses FMT, the legal values are 0..7." -/
def legalFMT (fmt : BitVec 4) : Bool := decide (fmt.toNat ≤ 7)

/-- The command's used fields hold legal values. -/
def WellFormed : Instr → Bool
  | .nop => true
  | .frameBuild => true
  | .frameParse => true
  | .addrMatchSrv => true
  | .addrMatchCli => true
  | .domainEncode => true
  | .domainDecode => true
  | .bcd8ToBin => true
  | .binToBcd8 => true
  | .intToBcd _ nb => legalNB nb
  | .bcdToInt _ nb => legalNB nb
  | .floatToBcd _ fmt => legalFMT fmt
  | .bcdToFloat _ nb fmt => legalNB nb && legalFMT fmt
  | .valueValid fmt => legalFMT fmt
  | .timeToBcd _ => true
  | .bcdToTime _ => true
  | .u32ToLe4 => true
  | .le4ToU32 => true

end Sys2Proof
end

