-- ==== Sys2Proof/Decode.lean ====
section
/-! DEFINITION. The command word (spec/30_encoding.md R80 to R87): its fields, the opcode map, the decoder in the order of
R85, and the encoder written from the same map. -/

namespace Sys2Proof

/-- The rows of R86, by name. -/
inductive Op where
  | nop | frameBuild | frameParse | addrMatchSrv | addrMatchCli | domainEncode | domainDecode
  | bcd8ToBin | binToBcd8 | intToBcd | bcdToInt | floatToBcd | bcdToFloat | valueValid
  | timeToBcd | bcdToTime | u32ToLe4 | le4ToU32
  deriving DecidableEq, Repr

/-- Why a command word decodes to no command (R85). -/
inductive DecodeError where
  /-- R85, R251: the OP field names no command -/
  | badOpcode
  /-- R85, R252: the OP is known and a field is illegal -/
  | badField
  deriving DecidableEq, Repr

/-! ### The fields of R80 -/

/-- OP, bits [7:0]. -/
def opField (w : Word) : BitVec 8 := w.extractLsb' 0 8

/-- LE, bit [8]. -/
def leField (w : Word) : Bool := w.getLsbD 8

/-- The reserved bits [11:9]. -/
def reservedLow (w : Word) : BitVec 3 := w.extractLsb' 9 3

/-- NB, bits [15:12]. -/
def nbField (w : Word) : BitVec 4 := w.extractLsb' 12 4

/-- FMT, bits [19:16]. -/
def fmtField (w : Word) : BitVec 4 := w.extractLsb' 16 4

/-- The reserved bits [31:20]. -/
def reservedHigh (w : Word) : BitVec 12 := w.extractLsb' 20 12

/-- The word with the given fields and both reserved ranges 0 (R80). -/
def packFields (op : BitVec 8) (le : Bool) (nb fmt : BitVec 4) : Word :=
  0#12 ++ fmt ++ nb ++ 0#3 ++ BitVec.ofBool le ++ op

/-! ### The opcode map, R86 -/

/-- The OP value of each row. -/
def Op.code : Op → BitVec 8
  | .nop => 0x00
  | .frameBuild => 0x01
  | .frameParse => 0x02
  | .addrMatchSrv => 0x03
  | .addrMatchCli => 0x04
  | .domainEncode => 0x05
  | .domainDecode => 0x06
  | .bcd8ToBin => 0x10
  | .binToBcd8 => 0x11
  | .intToBcd => 0x12
  | .bcdToInt => 0x13
  | .floatToBcd => 0x14
  | .bcdToFloat => 0x15
  | .valueValid => 0x16
  | .timeToBcd => 0x17
  | .bcdToTime => 0x18
  | .u32ToLe4 => 0x19
  | .le4ToU32 => 0x1A

/-- The row an OP value names; every other value is reserved (R87). -/
def opOfCode (c : BitVec 8) : Option Op :=
  match c.toNat with
  | 0x00 => some .nop
  | 0x01 => some .frameBuild
  | 0x02 => some .frameParse
  | 0x03 => some .addrMatchSrv
  | 0x04 => some .addrMatchCli
  | 0x05 => some .domainEncode
  | 0x06 => some .domainDecode
  | 0x10 => some .bcd8ToBin
  | 0x11 => some .binToBcd8
  | 0x12 => some .intToBcd
  | 0x13 => some .bcdToInt
  | 0x14 => some .floatToBcd
  | 0x15 => some .bcdToFloat
  | 0x16 => some .valueValid
  | 0x17 => some .timeToBcd
  | 0x18 => some .bcdToTime
  | 0x19 => some .u32ToLe4
  | 0x1A => some .le4ToU32
  | _ => none

/-- The row's LE column: "used" (R81, R86). -/
def Op.usesLE : Op → Bool
  | .intToBcd | .bcdToInt | .floatToBcd | .bcdToFloat | .timeToBcd | .bcdToTime => true
  | _ => false

/-- The row's NB column: "used" (R86). -/
def Op.usesNB : Op → Bool
  | .intToBcd | .bcdToInt | .bcdToFloat => true
  | _ => false

/-- The row's FMT column: "used" (R86). -/
def Op.usesFMT : Op → Bool
  | .floatToBcd | .bcdToFloat | .valueValid => true
  | _ => false

/-- The command that a row and its fields make; a field the row does not use is dropped (it is 0 by R85). -/
def Op.instr (op : Op) (le : Bool) (nb fmt : BitVec 4) : Instr :=
  match op with
  | .nop => .nop
  | .frameBuild => .frameBuild
  | .frameParse => .frameParse
  | .addrMatchSrv => .addrMatchSrv
  | .addrMatchCli => .addrMatchCli
  | .domainEncode => .domainEncode
  | .domainDecode => .domainDecode
  | .bcd8ToBin => .bcd8ToBin
  | .binToBcd8 => .binToBcd8
  | .intToBcd => .intToBcd le nb
  | .bcdToInt => .bcdToInt le nb
  | .floatToBcd => .floatToBcd le fmt
  | .bcdToFloat => .bcdToFloat le nb fmt
  | .valueValid => .valueValid fmt
  | .timeToBcd => .timeToBcd le
  | .bcdToTime => .bcdToTime le
  | .u32ToLe4 => .u32ToLe4
  | .le4ToU32 => .le4ToU32

/-! ### Decoding, R85 -/

/-- R85, line by line: the first failing check decides. Total on every 32-bit word. -/
def decode (w : Word) : Except DecodeError Instr :=
  match opOfCode (opField w) with
  | none => .error .badOpcode
  | some op =>
    if reservedHigh w ≠ 0 ∨ reservedLow w ≠ 0 then .error .badField
    else if op.usesLE = false ∧ leField w = true then .error .badField
    else if op.usesNB = false ∧ nbField w ≠ 0 then .error .badField
    else if op.usesNB = true ∧ legalNB (nbField w) = false then .error .badField
    else if op.usesFMT = false ∧ fmtField w ≠ 0 then .error .badField
    else if op.usesFMT = true ∧ legalFMT (fmtField w) = false then .error .badField
    else .ok (op.instr (leField w) (nbField w) (fmtField w))

/-! ### Encoding, R80 and R86 -/

/-- The row of a command. -/
def Instr.op : Instr → Op
  | .nop => .nop
  | .frameBuild => .frameBuild
  | .frameParse => .frameParse
  | .addrMatchSrv => .addrMatchSrv
  | .addrMatchCli => .addrMatchCli
  | .domainEncode => .domainEncode
  | .domainDecode => .domainDecode
  | .bcd8ToBin => .bcd8ToBin
  | .binToBcd8 => .binToBcd8
  | .intToBcd _ _ => .intToBcd
  | .bcdToInt _ _ => .bcdToInt
  | .floatToBcd _ _ => .floatToBcd
  | .bcdToFloat _ _ _ => .bcdToFloat
  | .valueValid _ => .valueValid
  | .timeToBcd _ => .timeToBcd
  | .bcdToTime _ => .bcdToTime
  | .u32ToLe4 => .u32ToLe4
  | .le4ToU32 => .le4ToU32

/-- The LE field of a command's word: 0 where the row marks it 0. -/
def Instr.le : Instr → Bool
  | .intToBcd le _ | .bcdToInt le _ | .floatToBcd le _ | .bcdToFloat le _ _ => le
  | .timeToBcd le | .bcdToTime le => le
  | _ => false

/-- The NB field of a command's word: 0 where the row marks it 0. -/
def Instr.nb : Instr → BitVec 4
  | .intToBcd _ nb | .bcdToInt _ nb | .bcdToFloat _ nb _ => nb
  | _ => 0

/-- The FMT field of a command's word: 0 where the row marks it 0. -/
def Instr.fmt : Instr → BitVec 4
  | .floatToBcd _ fmt | .bcdToFloat _ _ fmt | .valueValid fmt => fmt
  | _ => 0

/-- The command word of a command (R80: every command is exactly one 32-bit word). -/
def encode (i : Instr) : Word := packFields i.op.code i.le i.nb i.fmt

/-- The command that the decoder reads from the word whose low `nbits` bits are `w` and whose other bits are 0, bits numbered
as spec/opcode_table.json numbers them (bit 0 the least significant bit of the command word). -/
def decodeTableWord (nbits w : Nat) : Option Instr :=
  match decode (BitVec.ofNat 32 (w % 2 ^ nbits)) with
  | .ok i => some i
  | .error _ => none

end Sys2Proof
end

