-- ==== Sys2Proof/Config.lean ====
section
/-! DEFINITION. What one build of the block fixes: the sizes of spec/00_scope.md R7 (constants of this hardware, R8) and the
one open parameter, `RAM_INIT` (R8, spec/70_reset_and_hazards.md R281), as a free value. -/

namespace Sys2Proof.Config

/-- `DATA_SIZE`, bytes of the data-domain buffer (R7). -/
def dataSize : Nat := 255

/-- `WIRE_SIZE`, bytes of the raw wire buffer (R7). -/
def wireSize : Nat := 1024

/-- `NBUF_SIZE`, bytes of the numeric buffer (R7). -/
def nbufSize : Nat := 8

/-- `RAM_INIT`: the byte that the RAM byte at port byte address `a` holds after the reset numbered `epoch`, before anything
is written there (R281: a free draw of any byte value per byte, with no law between bytes or across resets). No body: nothing
in Lean can evaluate it, so every statement holds whatever the draw is (assumption log 1). -/
opaque ramInit (epoch a : Nat) : BitVec 8

end Sys2Proof.Config
end

