-- ==== Sys2Proof/Machine/State.lean ====
section
/-! DEFINITION. The state of the block as plain data: the registers and arrays of spec/10_state.md R20, the RAM bytes, and the
host side of the port (spec/20_memory.md R60) as two lists. The reset state is spec/70_reset_and_hazards.md R282. -/

namespace Sys2Proof.Machine

/-- One event at the host port, in the total order of R75: a read or a write access (R60), or the reset event, which takes
effect between two accesses (R280). Several bus masters are serialised into this one order and not told apart (R79). -/
inductive PortEvent where
  /-- `MemRead(a, 4)` -/
  | read (a : Addr)
  /-- `MemWrite(a, 4, v)` -/
  | write (a : Addr) (v : Word)
  /-- power-on or any later reset (R280) -/
  | reset
  deriving DecidableEq, Repr

/-- The response code of an access (R60). -/
inductive Resp where
  | okay
  | error
  deriving DecidableEq, Repr

/-- What an access returns to the host (R60): a response code, and for a read also a 32-bit word. -/
inductive Response where
  | read (r : Resp) (v : Word)
  | write (r : Resp)
  deriving DecidableEq, Repr

/-- The faults of a step. NONE: spec/60_exceptions.md R259 ("No error stops, hangs or resets the block"); every error is a
code in STATUS.ERR or an ERROR response, and the machine goes on (assumption log 8). The type is empty, so no
meaning can raise one. -/
inductive Fault where
  deriving DecidableEq, Repr

/-- The refusals of a step. -/
inductive Refusal where
  /-- raised only by an arm of `exec` whose command has no meaning yet (no arm does); safe: the machine stops where the
  hardware goes on -/
  | notModelled (mnemonic : String)
  deriving DecidableEq, Repr

/-- The state. The fields from `cmd` to `nbuf` are the registers of R20 and R22 to R38; `mem` holds the bytes of DATA and WIRE
that have been written since the last reset; `resets`, `port` and `responses` are the model's own (assumption log 1 and 2). -/
structure State where
  /-- CMD, R22 -/
  cmd : BitVec 32
  /-- STATUS.ERR, bits [7:0], R23 -/
  statErr : BitVec 8
  /-- STATUS.MATCH, bit [8], R23 -/
  statMatch : Bool
  /-- STATUS.FV, bit [9], R23 -/
  statFv : Bool
  /-- STATUS.NEG, bit [10], R23 -/
  statNeg : Bool
  /-- STATUS.STICKY, bit [11], R23 -/
  statSticky : Bool
  /-- WIRE_LEN, R30 -/
  wireLen : BitVec 11
  /-- FRAME_OFF, R31 -/
  frameOff : BitVec 11
  /-- FRAME_LEN, R32 -/
  frameLen : BitVec 9
  /-- CTRL, R26 -/
  ctrl : BitVec 8
  /-- DLEN, R27 -/
  dlen : BitVec 8
  /-- NLEN.PRODUCED, bits [3:0], R37 -/
  nlenProduced : BitVec 4
  /-- NLEN.DECLARED, bits [11:8], R37 -/
  nlenDeclared : BitVec 4
  /-- ADDR[0..5], R24 -/
  addr : Vector (BitVec 8) 6
  /-- MY_ADDR[0..5], R25 -/
  myAddr : Vector (BitVec 8) 6
  /-- OPA, R33 -/
  opa : BitVec 64
  /-- RESULT, R34 -/
  result : BitVec 64
  /-- FVAL, R35 -/
  fval : BitVec 32
  /-- T_YEAR, R38 -/
  tYear : BitVec 16
  /-- T_MONTH, R38 -/
  tMonth : BitVec 8
  /-- T_DAY, R38 -/
  tDay : BitVec 8
  /-- T_HOUR, R38 -/
  tHour : BitVec 8
  /-- T_MIN, R38 -/
  tMin : BitVec 8
  /-- NBUF[0..7], R36 -/
  nbuf : Vector (BitVec 8) 8
  /-- the written bytes of DATA (R28) and WIRE (R29), keyed by port byte address (R67), addresses strictly rising -/
  mem : List Host.Cell
  /-- the model's own: how many reset events have happened, the number of the current `RAM_INIT` draw (R281) -/
  resets : Nat
  /-- the model's own: the host's accesses and resets still to come, the next one first (R14, R75) -/
  port : List PortEvent
  /-- the model's own: the responses given so far, oldest first (R60) -/
  responses : List Response
  deriving DecidableEq, Repr

/-- The machine right after power-on: every register at its value of R282, no RAM byte written (R281), no access pending. -/
def State.reset : State where
  cmd := 0
  statErr := 0
  statMatch := false
  statFv := false
  statNeg := false
  statSticky := false
  wireLen := 0
  frameOff := 0
  frameLen := 0
  ctrl := 0
  dlen := 0
  nlenProduced := 0
  nlenDeclared := 0
  addr := #v[0, 0, 0, 0, 0, 0]
  myAddr := #v[0, 0, 0, 0, 0, 0]
  opa := 0
  result := 0
  fval := 0
  tYear := 0
  tMonth := 0
  tDay := 0
  tHour := 0
  tMin := 0
  nbuf := #v[0, 0, 0, 0, 0, 0, 0, 0]
  mem := []
  resets := 0
  port := []
  responses := []

end Sys2Proof.Machine
end

