-- ==== Sys2Proof/Machine/Ops.lean ====
section
/-! DEFINITION. The named operations every command shares: the RAM bytes behind the DATA and WIRE windows
(spec/20_memory.md R67, R68; spec/70_reset_and_hazards.md R281), ending a command with success or with an error code
(spec/60_exceptions.md R250, R254, R255), and the constants and sums of the frame format (spec/30_encoding.md R88 to R91). -/

namespace Sys2Proof.Machine

/-! ### Memory as a list of written bytes -/

/-- The byte written at an address, or `none` where nothing has been written since reset. This is what an unlisted address
reads as at this level: no byte. The block then consumes the `RAM_INIT` draw (`State.ramByte`). -/
def Memory.lookup : List Host.Cell → Nat → Option (BitVec 8)
  | [], _ => none
  | (x, b) :: rest, a => if a = x then some b else Memory.lookup rest a

/-- Write one byte, keeping addresses strictly rising. -/
def Memory.insert : List Host.Cell → Nat → BitVec 8 → List Host.Cell
  | [], a, v => [(a, v)]
  | (x, b) :: rest, a, v =>
    if a < x then (a, v) :: (x, b) :: rest
    else if a = x then (a, v) :: rest
    else (x, b) :: Memory.insert rest a v

/-- Write consecutive bytes from an address up. -/
def Memory.insertBytes : List Host.Cell → Nat → List (BitVec 8) → List Host.Cell
  | m, _, [] => m
  | m, a, b :: bs => Memory.insertBytes (Memory.insert m a b) (a + 1) bs

/-- Port byte address of DATA[0] (R67). -/
def dataBase : Nat := 0x100

/-- Port byte address of WIRE[0] (R67). -/
def wireBase : Nat := 0x400

/-- The port byte addresses that name a RAM byte: DATA[0..254] and WIRE[0..1023] (R67, R69). -/
def isRamByte (a : Nat) : Bool :=
  (decide (dataBase ≤ a) && decide (a < dataBase + Config.dataSize)) ||
  (decide (wireBase ≤ a) && decide (a < wireBase + Config.wireSize))

/-- Strictly rising addresses, each above `lo`'s. -/
def Memory.risingFrom : Nat → List Host.Cell → Bool
  | _, [] => true
  | lo, (x, _) :: rest => decide (lo ≤ x) && Memory.risingFrom (x + 1) rest

/-- The canonical form of the memory list: strictly rising addresses, all of them RAM bytes. No entry can equal what an
unlisted address reads as, since that is `none` (assumption log 1). -/
def Memory.wf (m : List Host.Cell) : Bool :=
  Memory.risingFrom 0 m && m.all (fun c => isRamByte c.1)

/-! ### RAM bytes of a state -/

/-- The byte at a RAM address: the last one written, else the `RAM_INIT` draw of the current reset (R281). -/
def State.ramByte (s : State) (a : Nat) : BitVec 8 :=
  (Memory.lookup s.mem a).getD (Config.ramInit s.resets a)

/-- DATA[i] (R28). -/
def State.dataByte (s : State) (i : Nat) : BitVec 8 := s.ramByte (dataBase + i)

/-- WIRE[i] (R29). -/
def State.wireByte (s : State) (i : Nat) : BitVec 8 := s.ramByte (wireBase + i)

/-- Write consecutive RAM bytes from a port byte address up. -/
def State.setRamBytes (s : State) (a : Nat) (bs : List (BitVec 8)) : State :=
  { s with mem := Memory.insertBytes s.mem a bs }

/-- DATA[0..n) as a list. -/
def State.dataBytes (s : State) (n : Nat) : List (BitVec 8) := (List.range n).map s.dataByte

/-! ### Ending a command: R254, R255

The block has no trap mechanism (R260): an error saves nothing but its code, changes no mode and transfers control nowhere, and
"the 'trap return' is simply the host's next access". So taking an exception is `raise`, the same for every command, and there
is no return operation. -/

/-- The error codes of R250 other than OK. -/
inductive ErrCode where
  | badOpcode | badField
  | noStart | short | noSecondStart | length | checksum | noEnd
  | bcdDigit | overflow | range | timeField
  deriving DecidableEq, Repr

/-- The value of STATUS.ERR for each code (R250). -/
def ErrCode.code : ErrCode → BitVec 8
  | .badOpcode => 0x01
  | .badField => 0x02
  | .noStart => 0x10
  | .short => 0x11
  | .noSecondStart => 0x12
  | .length => 0x13
  | .checksum => 0x14
  | .noEnd => 0x15
  | .bcdDigit => 0x20
  | .overflow => 0x21
  | .range => 0x22
  | .timeField => 0x23

/-- The command ends with success: ERR is 0x00, STICKY as it was (R254). -/
def State.withOk (s : State) : State := { s with statErr := 0x00 }

/-- The command ends with an error: ERR is its code (R254) and STICKY is 1 (R255). -/
def State.withError (s : State) (e : ErrCode) : State := { s with statErr := e.code, statSticky := true }

/-- End the command with success (R254). -/
def succeed (s : State) : Host.Outcome State Fault Refusal := .next s.withOk

/-- `raise E_X` (R10, R254, R255): the block's whole exception mechanism; `s` already holds the outputs that R256 and R257
give the failing command. -/
def raise (e : ErrCode) (s : State) : Host.Outcome State Fault Refusal := .next (s.withError e)

/-! ### The frame format's constants and sum: R88 to R91, R190, R192 -/

/-- The start marker, at frame offsets 0 and 7 (R91). -/
def startMarker : BitVec 8 := 0x68

/-- The end marker (R91). -/
def endMarker : BitVec 8 := 0x16

/-- FRAME_BUILD's preamble: exactly four 0xFE bytes (R193). -/
def preamble : List (BitVec 8) := [0xFE, 0xFE, 0xFE, 0xFE]

/-- `enc33` (R190). -/
def enc33 (b : BitVec 8) : BitVec 8 := b + 0x33

/-- `dec33` (R190). -/
def dec33 (b : BitVec 8) : BitVec 8 := b - 0x33

/-- The modulo-256 sum of a list of bytes (R10 `sum256`, over bytes already read). -/
def sumBytes : List (BitVec 8) → BitVec 8
  | [] => 0
  | b :: bs => b + sumBytes bs

/-- The broadcast alias AA AA AA AA AA AA (R89). -/
def bcastAA : Vector (BitVec 8) 6 := #v[0xAA, 0xAA, 0xAA, 0xAA, 0xAA, 0xAA]

/-- The broadcast alias 99 99 99 99 99 99 (R89). -/
def bcast99 : Vector (BitVec 8) 6 := #v[0x99, 0x99, 0x99, 0x99, 0x99, 0x99]

/-- The protocol functions whose control codes R88 lists. No command reads them: the codec carries CTRL unchanged (R199). -/
inductive CtrlFunction where
  | broadcastTimeSync | readData | readAddress | writeData | writeAddress | freeze | changeBaud | changePassword
  deriving DecidableEq, Repr

/-- The request control code (R88). -/
def CtrlFunction.request : CtrlFunction → BitVec 8
  | .broadcastTimeSync => 0x08
  | .readData => 0x11
  | .readAddress => 0x13
  | .writeData => 0x14
  | .writeAddress => 0x15
  | .freeze => 0x16
  | .changeBaud => 0x17
  | .changePassword => 0x18

/-- The normal response control code (R88: "echoes the request's control code with its high bit set"). -/
def CtrlFunction.response (f : CtrlFunction) : BitVec 8 := f.request ||| 0x80

end Sys2Proof.Machine
end

