-- ==== Sys2Proof/Machine/Flags.lean ====
section
/-! DEFINITION. STATUS (spec/10_state.md R23): the word the host reads and the writers of MATCH, FV and NEG. ERR and STICKY are
written by `succeed` and `raise` alone (Ops.lean, R254, R255). -/

namespace Sys2Proof.Machine

/-- The STATUS word: ERR in [7:0], MATCH [8], FV [9], NEG [10], STICKY [11], bits [31:12] read as 0 (R23). -/
def State.statusWord (s : State) : Word :=
  0#20 ++ BitVec.ofBool s.statSticky ++ BitVec.ofBool s.statNeg ++ BitVec.ofBool s.statFv ++ BitVec.ofBool s.statMatch ++
    s.statErr

/-- Write MATCH: ADDR_MATCH_SRV, ADDR_MATCH_CLI and VALUE_VALID only (R23). -/
def State.setMatch (s : State) (b : Bool) : State := { s with statMatch := b }

/-- Write FV: FRAME_PARSE only (R23). -/
def State.setFv (s : State) (b : Bool) : State := { s with statFv := b }

/-- Write NEG: BCD_TO_FLOAT only (R23). -/
def State.setNeg (s : State) (b : Bool) : State := { s with statNeg := b }

end Sys2Proof.Machine
end

