-- ==== Sys2Proof/Machine/Address.lean ====
section
/-! DEFINITION. The address filter (spec/44_address.md). Equality is over all six bytes; FV is not consulted. -/

namespace Sys2Proof.Machine

/-- ADDR_MATCH_SRV, R230. -/
def execAddrMatchSrv (s : State) : Host.Outcome State Fault Refusal :=
  succeed (s.setMatch (decide (s.addr = s.myAddr) || decide (s.addr = bcastAA) || decide (s.addr = bcast99)))

/-- ADDR_MATCH_CLI, R231. -/
def execAddrMatchCli (s : State) : Host.Outcome State Fault Refusal :=
  succeed (s.setMatch (decide (s.addr = s.myAddr) || decide (s.addr = bcast99)))

end Sys2Proof.Machine
end

