-- ==== Sys2Proof/Machine/Operands.lean ====
section
/-! DEFINITION. The operand and result forms of the numeric commands: packed BCD (spec/00_scope.md R12, spec/40_bcd.md R110,
R111), the LE byte order (spec/20_memory.md R72), strings in NBUF (spec/10_state.md R36, R37), integers in OPA (R33) and the
fixed-point format table (spec/30_encoding.md R90, spec/41_fixed_point.md R140, R141). -/

namespace Sys2Proof.Machine

/-! ### Packed BCD -/

/-- `hi(b)`, R10. -/
def hiNibble (b : BitVec 8) : Nat := b.toNat / 16

/-- `lo(b)`, R10. -/
def loNibble (b : BitVec 8) : Nat := b.toNat % 16

/-- Valid packed BCD: both nibbles are digits (R12). -/
def validBcd (b : BitVec 8) : Bool := decide (hiNibble b ≤ 9) && decide (loNibble b ≤ 9)

/-- `bcd8(b)`, R110 (meant for valid packed BCD). -/
def bcd8 (b : BitVec 8) : Nat := 10 * hiNibble b + loNibble b

/-- `tobcd8(x)` for x in 0..99, R110. -/
def tobcd8 (x : Nat) : BitVec 8 := BitVec.ofNat 8 (x / 10 * 16 + x % 10)

/-- `bcdval(B)`, most significant byte first (R111), in Horner form: each further byte is worth 100 times less. -/
def bcdval (bs : List (BitVec 8)) : Nat := bs.foldl (fun acc b => 100 * acc + bcd8 b) 0

/-- `bcdstr(v, n)`: v in decimal with leading zeros to 2n digits, most significant digits first (R111). -/
def bcdstr (v : Nat) : Nat → List (BitVec 8)
  | 0 => []
  | n + 1 => bcdstr (v / 100) n ++ [tobcd8 (v % 100)]

/-! ### Byte order and NBUF -/

/-- The LE bit's effect on a whole string: reversed end-to-end when LE = 1 (R72). It never swaps nibbles. -/
def orderLE (le : Bool) (bs : List (BitVec 8)) : List (BitVec 8) := if le then bs.reverse else bs

/-- The first `n` bytes of NBUF as the string a decoder reads, most significant byte first (R72, R36). -/
def State.nbufString (s : State) (le : Bool) (n : Nat) : List (BitVec 8) := orderLE le (s.nbuf.toList.take n)

/-- NBUF holding `bs` from NBUF[0] up, zero-filled beyond it (R36). -/
def fillNbuf (bs : List (BitVec 8)) : Vector (BitVec 8) 8 :=
  #v[bs.getD 0 0, bs.getD 1 0, bs.getD 2 0, bs.getD 3 0, bs.getD 4 0, bs.getD 5 0, bs.getD 6 0, bs.getD 7 0]

/-- A producing command's output: all eight NBUF bytes and both NLEN fields (R36, R37). -/
def State.setNbuf (s : State) (bs : List (BitVec 8)) (declared : Nat) : State :=
  { s with
    nbuf := fillNbuf bs
    nlenProduced := BitVec.ofNat 4 bs.length
    nlenDeclared := BitVec.ofNat 4 declared }

/-- A failing producing command's output: NBUF and NLEN zero (R37, R256). -/
def State.clearNbuf (s : State) : State := s.setNbuf [] 0

/-- The four bytes of OPA[31:0], least significant first (R73). -/
def opaBytes4 (v : BitVec 64) : List (BitVec 8) :=
  [v.extractLsb' 0 8, v.extractLsb' 8 8, v.extractLsb' 16 8, v.extractLsb' 24 8]

/-- Four bytes as a 32-bit integer, the first byte least significant (R68, R73). -/
def word4 (b0 b1 b2 b3 : BitVec 8) : BitVec 32 := b3 ++ b2 ++ b1 ++ b0

/-! ### The fixed-point formats -/

/-- A row of R90: the digit count n, the decimal count d and the mask string. -/
structure Format where
  n : Nat
  d : Nat
  mask : String
  deriving DecidableEq, Repr

/-- The rows of R90, in code order. -/
def formatTable : List Format :=
  [⟨8, 2, "XXXXXX.XX"⟩, ⟨6, 2, "XXXX.XX"⟩, ⟨6, 3, "XXX.XXX"⟩, ⟨4, 1, "XXX.X"⟩,
   ⟨6, 4, "XX.XXXX"⟩, ⟨4, 2, "XX.XX"⟩, ⟨4, 3, "X.XXX"⟩, ⟨12, 0, "XXXXXXXXXXXX"⟩]

/-- The format a code names; codes 8..15 are reserved (R83). -/
def formatOf (fmt : BitVec 4) : Option Format := formatTable[fmt.toNat]?

/-- The declared width W = ceil(n/2) bytes (R90, R140). -/
def Format.width (f : Format) : Nat := (f.n + 1) / 2

/-- The largest legal scaled magnitude, 8*10^(n-1) - 1 (R141). -/
def Format.maxScaled (f : Format) : Nat := 8 * 10 ^ (f.n - 1) - 1

/-- The scale 10^d (R140). -/
def Format.scale (f : Format) : Nat := 10 ^ f.d

end Sys2Proof.Machine
end

