-- ==== Sys2Proof/Machine/Bcd.lean ====
section
/-! DEFINITION. The BCD encoder/decoder and the little-endian helpers (spec/40_bcd.md). -/

namespace Sys2Proof.Machine

/-- BCD8_TO_BIN, R112. -/
def execBcd8ToBin (s : State) : Host.Outcome State Fault Refusal :=
  let b := s.opa.extractLsb' 0 8
  if validBcd b then succeed { s with result := BitVec.ofNat 64 (bcd8 b) }
  else raise .bcdDigit { s with result := 0 }

/-- BIN_TO_BCD8, R113: the check is on all 64 bits of OPA. -/
def execBinToBcd8 (s : State) : Host.Outcome State Fault Refusal :=
  if s.opa.toNat > 99 then raise .overflow { s with result := 0 }
  else succeed { s with result := (tobcd8 s.opa.toNat).setWidth 64 }

/-- INT_TO_BCD le, nb, R114. An illegal NB is E_BAD_FIELD (R82); no decoded word reaches that branch (R85). -/
def execIntToBcd (le : Bool) (nb : BitVec 4) (s : State) : Host.Outcome State Fault Refusal :=
  if legalNB nb = false then raise .badField s
  else if s.opa.toNat ≥ 100 ^ nb.toNat then raise .overflow s.clearNbuf
  else succeed (s.setNbuf (orderLE le (bcdstr s.opa.toNat nb.toNat)) nb.toNat)

/-- BCD_TO_INT le, nb, R116. An illegal NB is E_BAD_FIELD (R82). -/
def execBcdToInt (le : Bool) (nb : BitVec 4) (s : State) : Host.Outcome State Fault Refusal :=
  if legalNB nb = false then raise .badField s
  else
    let bs := s.nbufString le nb.toNat
    if bs.all validBcd then succeed { s with result := BitVec.ofNat 64 (bcdval bs) }
    else raise .bcdDigit { s with result := 0 }

/-- U32_TO_LE4, R117. -/
def execU32ToLe4 (s : State) : Host.Outcome State Fault Refusal :=
  succeed (s.setNbuf (opaBytes4 s.opa) 4)

/-- LE4_TO_U32, R118. -/
def execLe4ToU32 (s : State) : Host.Outcome State Fault Refusal :=
  succeed { s with result := (word4 s.nbuf[0] s.nbuf[1] s.nbuf[2] s.nbuf[3]).setWidth 64 }

end Sys2Proof.Machine
end

