-- ==== Sys2Proof/Machine/Float32.lean ====
section
/-! DEFINITION. binary32 as the fixed-point commands use it (spec/41_fixed_point.md R142 to R145; spec/10_state.md R35): the
exact real value of a bit pattern, the scaled magnitude of R142 and the rounding to the nearest binary32 of R144. The real value
is stated over the rationals, as the rules state it; the two operations are integer arithmetic. What value a pattern has
(hidden bit, bias, subnormals) is IEEE 754 binary32's, PRESUMED (assumption log 6). -/

namespace Sys2Proof.Machine

/-- Bit 31, the sign (R35). -/
def f32Sign (x : BitVec 32) : Bool := x.getLsbD 31

/-- Bits [30:23], the exponent field (R35). -/
def f32Exp (x : BitVec 32) : Nat := (x.extractLsb' 23 8).toNat

/-- Bits [22:0], the fraction (R35). -/
def f32Frac (x : BitVec 32) : Nat := (x.extractLsb' 0 23).toNat

/-- Finite: the exponent bits are not all ones (R142). -/
def f32Finite (x : BitVec 32) : Bool := decide (f32Exp x ≠ 255)

/-- The integer significand: the fraction, with the hidden bit unless the exponent field is 0 (R35, binary32). -/
def f32Mant (x : BitVec 32) : Nat := if f32Exp x = 0 then f32Frac x else 2 ^ 23 + f32Frac x

/-- The biased exponent of the significand's unit: the magnitude is `f32Mant x * 2^(f32Unit x - 150)`. -/
def f32Unit (x : BitVec 32) : Nat := if f32Exp x = 0 then 1 else f32Exp x

/-- `real(f)` of R10: the exact real value of a finite pattern. -/
def f32Real (x : BitVec 32) : ℚ :=
  (if f32Sign x then -1 else 1) * (f32Mant x : ℚ) * (2 : ℚ) ^ ((f32Unit x : ℤ) - 150)

/-- `real(x) < 0` of R145: the sign bit set on a nonzero magnitude, so -0.0 is not negative. -/
def f32IsNeg (x : BitVec 32) : Bool := f32Sign x && decide (f32Mant x ≠ 0)

/-- `M(x, f)` of R142 and R143 for a finite x: floor(|real(x)| * 10^d + 1/2), exactly. With `2^(unit - 150)` an integer the
product is exact; otherwise it is `num / 2^k`, and floor(num / 2^k + 1/2) = (2 num + 2^k) div 2^(k+1). -/
def scaledMag (x : BitVec 32) (d : Nat) : Nat :=
  let num := f32Mant x * 10 ^ d
  if 150 ≤ f32Unit x then num * 2 ^ (f32Unit x - 150)
  else (2 * num + 2 ^ (150 - f32Unit x)) / 2 ^ (150 - f32Unit x + 1)

/-- The integer nearest to num/den, ties to the even one (R144). -/
def roundHalfEven (num den : Nat) : Nat :=
  let q := num / den
  let r := num % den
  if 2 * r < den then q
  else if den < 2 * r then q + 1
  else if q % 2 = 0 then q else q + 1

/-- floor(log2(p/r)) for p, r > 0: one of the two candidates the bit lengths leave. -/
def ilog2Ratio (p r : Nat) : Int :=
  let l := (Nat.log2 p : Int) - (Nat.log2 r : Int)
  let atLeast : Bool :=
    if 0 ≤ l then decide (r * 2 ^ l.toNat ≤ p) else decide (r ≤ p * 2 ^ (-l).toNat)
  if atLeast then l else l - 1

/-- The exponent of the binary32 unit in p/r's binade, no less than the subnormal unit's. -/
def unitExp (p r : Nat) : Int := max (ilog2Ratio p r - 23) (-149)

/-- The significand of `rnd_f32(p/r)`: p/r in units of its binade, rounded. -/
def rndMant (p r : Nat) : Nat :=
  let e := unitExp p r
  if 0 ≤ e then roundHalfEven p (r * 2 ^ e.toNat) else roundHalfEven (p * 2 ^ (-e).toNat) r

/-- The magnitude bits of `rnd_f32(p/r)` (R144); a significand rounded up to 2^24 carries into the exponent field by itself.
R144: the operands of the block never overflow or underflow binary32. -/
def rndBits (p r : Nat) : Nat :=
  if p = 0 then 0 else (unitExp p r + 149).toNat * 2 ^ 23 + rndMant p r

/-- `rnd_f32(p/r)` with its sign bit set to `neg` (R144, R148). -/
def rndF32 (neg : Bool) (p r : Nat) : BitVec 32 :=
  BitVec.ofNat 32 (rndBits p r) ||| (if neg then 0x80000000 else 0)

end Sys2Proof.Machine
end

