-- ==== Sys2Proof/Machine/FixedPoint.lean ====
section
/-! DEFINITION. The fixed-point format converter (spec/41_fixed_point.md). An illegal NB or FMT is E_BAD_FIELD
(spec/30_encoding.md R82, R83); no decoded word reaches those branches (R85). -/

namespace Sys2Proof.Machine

/-- In range for a format: finite, and M(x, f) ≤ Max(f) (R141, R142). -/
def inRange (x : BitVec 32) (f : Format) : Bool :=
  f32Finite x && decide (scaledMag x f.d ≤ f.maxScaled)

/-- `B[0] <- B[0] | 0x80`: the sign on the most significant byte (R146). -/
def setSignBit : List (BitVec 8) → List (BitVec 8)
  | [] => []
  | b :: bs => (b ||| 0x80) :: bs

/-- `B[0] <- B[0] & 0x7F` (R148). -/
def clearSignBit : List (BitVec 8) → List (BitVec 8)
  | [] => []
  | b :: bs => (b &&& 0x7F) :: bs

/-- `B[0][7]` (R148). -/
def signBitOf : List (BitVec 8) → Bool
  | [] => false
  | b :: _ => b.getLsbD 7

/-- FLOAT_TO_BCD's string before byte ordering: W digit bytes, padded in front to at least 4 bytes, then the sign (R146). -/
def floatString (x : BitVec 32) (f : Format) : List (BitVec 8) :=
  let padded := List.replicate (max 4 f.width - f.width) 0 ++ bcdstr (scaledMag x f.d) f.width
  if f32IsNeg x then setSignBit padded else padded

/-- FLOAT_TO_BCD le, fmt, R146. -/
def execFloatToBcd (le : Bool) (fmt : BitVec 4) (s : State) : Host.Outcome State Fault Refusal :=
  match formatOf fmt with
  | none => raise .badField s
  | some f =>
    if inRange s.fval f then succeed (s.setNbuf (orderLE le (floatString s.fval f)) f.width)
    else raise .range s.clearNbuf

/-- BCD_TO_FLOAT le, nb, fmt, R148: the format supplies d only; NB is independent of W. -/
def execBcdToFloat (le : Bool) (nb fmt : BitVec 4) (s : State) : Host.Outcome State Fault Refusal :=
  match formatOf fmt with
  | none => raise .badField s
  | some f =>
    if legalNB nb = false then raise .badField s
    else
      let bs := s.nbufString le nb.toNat
      let digits := clearSignBit bs
      if digits.all validBcd then
        succeed ({ s with
          result := BitVec.ofNat 64 (bcdval digits)
          fval := rndF32 (signBitOf bs) (bcdval digits) f.scale }.setNeg (signBitOf bs))
      else raise .bcdDigit ({ s with result := 0, fval := 0 }.setNeg false)

/-- VALUE_VALID fmt, R150. -/
def execValueValid (fmt : BitVec 4) (s : State) : Host.Outcome State Fault Refusal :=
  match formatOf fmt with
  | none => raise .badField s
  | some f => succeed (s.setMatch (inRange s.fval f))

end Sys2Proof.Machine
end

