-- ==== Sys2Proof/Machine/Frame.lean ====
section
/-! DEFINITION. The frame codec (spec/43_frame.md; the layout is spec/30_encoding.md R91). -/

namespace Sys2Proof.Machine

/-! ### Build -/

/-- Frame offsets 0 to 9+L: the bytes the checksum covers (R91, R192), the data bytes encoded. -/
def frameBody (addr : List (BitVec 8)) (ctrl : BitVec 8) (len : BitVec 8) (data : List (BitVec 8)) : List (BitVec 8) :=
  startMarker :: addr ++ startMarker :: ctrl :: len :: data.map enc33

/-- What FRAME_BUILD puts in WIRE from WIRE[0] up: preamble, body, checksum, end marker (R191). -/
def builtWire (s : State) : List (BitVec 8) :=
  let body := frameBody s.addr.toList s.ctrl s.dlen (s.dataBytes s.dlen.toNat)
  preamble ++ body ++ [sumBytes body, endMarker]

/-- FRAME_BUILD, R191. -/
def execFrameBuild (s : State) : Host.Outcome State Fault Refusal :=
  succeed { s.setRamBytes wireBase (builtWire s) with
    wireLen := BitVec.ofNat 11 (16 + s.dlen.toNat)
    frameOff := 4
    frameLen := BitVec.ofNat 9 (12 + s.dlen.toNat) }

/-! ### Parse -/

/-- `sum256(WIRE, i, i+n)` (R10). -/
def State.sumWire (s : State) (i n : Nat) : BitVec 8 := sumBytes ((List.range n).map fun k => s.wireByte (i + k))

/-- The scan position: the least i < n with WIRE[i] = 0x68 (R194). -/
def State.firstStart (s : State) (n : Nat) : Option Nat :=
  (List.range n).find? fun i => decide (s.wireByte i = startMarker)

/-- The checks of R195 in their order; the scan position when all of them pass. -/
def State.frameCheck (s : State) : Except ErrCode Nat :=
  let n := s.wireLen.toNat
  if n > Config.wireSize then .error .badField
  else
    match s.firstStart n with
    | none => .error .noStart
    | some p =>
      let len := (s.wireByte (p + 9)).toNat
      if n - (p + 1) < 11 then .error .short
      else if s.wireByte (p + 7) ≠ startMarker then .error .noSecondStart
      else if p + 12 + len > n then .error .length
      else if s.sumWire p (10 + len) ≠ s.wireByte (p + 10 + len) then .error .checksum
      else if s.wireByte (p + 11 + len) ≠ endMarker then .error .noEnd
      else .ok p

/-- The data domain of the frame at p, decoded (R195). -/
def State.parsedData (s : State) (p : Nat) : List (BitVec 8) :=
  (List.range (s.wireByte (p + 9)).toNat).map fun i => dec33 (s.wireByte (p + 10 + i))

/-- The frame registers and DATA taken from the frame at p (R195). -/
def State.loadFrame (s : State) (p : Nat) : State :=
  { s.setRamBytes dataBase (s.parsedData p) with
    addr := #v[s.wireByte (p + 1), s.wireByte (p + 2), s.wireByte (p + 3), s.wireByte (p + 4), s.wireByte (p + 5),
      s.wireByte (p + 6)]
    ctrl := s.wireByte (p + 8)
    dlen := s.wireByte (p + 9)
    frameOff := BitVec.ofNat 11 p
    frameLen := BitVec.ofNat 9 (12 + (s.wireByte (p + 9)).toNat) }

/-- FRAME_PARSE, R195: a failure clears FV and leaves every frame register (R257). -/
def execFrameParse (s : State) : Host.Outcome State Fault Refusal :=
  match s.frameCheck with
  | .error e => raise e (s.setFv false)
  | .ok p => succeed ((s.loadFrame p).setFv true)

/-! ### The transform on its own -/

/-- DATA[i] <- f(DATA[i]) for i in 0..DLEN-1 (R201, R202). -/
def State.mapData (s : State) (f : BitVec 8 → BitVec 8) : State :=
  s.setRamBytes dataBase ((s.dataBytes s.dlen.toNat).map f)

/-- DOMAIN_ENCODE, R201. -/
def execDomainEncode (s : State) : Host.Outcome State Fault Refusal := succeed (s.mapData enc33)

/-- DOMAIN_DECODE, R202. -/
def execDomainDecode (s : State) : Host.Outcome State Fault Refusal := succeed (s.mapData dec33)

end Sys2Proof.Machine
end

