-- ==== Sys2Proof/Machine/Misc.lean ====
section
/-! DEFINITION. The miscellaneous command (spec/45_misc.md). -/

namespace Sys2Proof.Machine

/-- NOP, R240: only the common completion of R254 runs. -/
def execNop (s : State) : Host.Outcome State Fault Refusal := succeed s

end Sys2Proof.Machine
end

