-- ==== Sys2Proof/Machine/Time.lean ====
section
/-! DEFINITION. Time to and from 5-byte BCD (spec/42_time.md). Only the two-digit capacity of each field is checked (R171). -/

namespace Sys2Proof.Machine

/-- The time string most significant byte first: YY MM DD hh mm (R170, R172). -/
def timeString (s : State) : List (BitVec 8) :=
  [tobcd8 (s.tYear.toNat % 100), tobcd8 s.tMonth.toNat, tobcd8 s.tDay.toNat, tobcd8 s.tHour.toNat, tobcd8 s.tMin.toNat]

/-- TIME_TO_BCD le, R172. -/
def execTimeToBcd (le : Bool) (s : State) : Host.Outcome State Fault Refusal :=
  if s.tMonth.toNat > 99 ∨ s.tDay.toNat > 99 ∨ s.tHour.toNat > 99 ∨ s.tMin.toNat > 99 then raise .timeField s.clearNbuf
  else succeed (s.setNbuf (orderLE le (timeString s)) 5)

/-- The five time fields from a string that is most significant byte first (R173). -/
def State.setTime (s : State) (bs : List (BitVec 8)) : State :=
  { s with
    tYear := BitVec.ofNat 16 (2000 + bcd8 (bs.getD 0 0))
    tMonth := BitVec.ofNat 8 (bcd8 (bs.getD 1 0))
    tDay := BitVec.ofNat 8 (bcd8 (bs.getD 2 0))
    tHour := BitVec.ofNat 8 (bcd8 (bs.getD 3 0))
    tMin := BitVec.ofNat 8 (bcd8 (bs.getD 4 0)) }

/-- All five time fields zero (R256). -/
def State.clearTime (s : State) : State :=
  { s with tYear := 0, tMonth := 0, tDay := 0, tHour := 0, tMin := 0 }

/-- BCD_TO_TIME le, R173. -/
def execBcdToTime (le : Bool) (s : State) : Host.Outcome State Fault Refusal :=
  let bs := s.nbufString le 5
  if bs.all validBcd then succeed (s.setTime bs)
  else raise .bcdDigit s.clearTime

end Sys2Proof.Machine
end

