-- ==== Sys2Proof/Machine/Dispatch.lean ====
section
/-! DEFINITION. One arm per command of spec/30_encoding.md R86. -/

namespace Sys2Proof.Machine

def exec (i : Instr) (s : State) : Host.Outcome State Fault Refusal :=
  match i with
  | .nop => Sys2Proof.Machine.execNop s
  | .frameBuild => Sys2Proof.Machine.execFrameBuild s
  | .frameParse => Sys2Proof.Machine.execFrameParse s
  | .addrMatchSrv => Sys2Proof.Machine.execAddrMatchSrv s
  | .addrMatchCli => Sys2Proof.Machine.execAddrMatchCli s
  | .domainEncode => Sys2Proof.Machine.execDomainEncode s
  | .domainDecode => Sys2Proof.Machine.execDomainDecode s
  | .bcd8ToBin => Sys2Proof.Machine.execBcd8ToBin s
  | .binToBcd8 => Sys2Proof.Machine.execBinToBcd8 s
  | .intToBcd le nb => Sys2Proof.Machine.execIntToBcd le nb s
  | .bcdToInt le nb => Sys2Proof.Machine.execBcdToInt le nb s
  | .floatToBcd le fmt => Sys2Proof.Machine.execFloatToBcd le fmt s
  | .bcdToFloat le nb fmt => Sys2Proof.Machine.execBcdToFloat le nb fmt s
  | .valueValid fmt => Sys2Proof.Machine.execValueValid fmt s
  | .timeToBcd le => Sys2Proof.Machine.execTimeToBcd le s
  | .bcdToTime le => Sys2Proof.Machine.execBcdToTime le s
  | .u32ToLe4 => Sys2Proof.Machine.execU32ToLe4 s
  | .le4ToU32 => Sys2Proof.Machine.execLe4ToU32 s

end Sys2Proof.Machine
end

