-- ==== Sys2Proof/Machine/Port.lean ====
section
/-! DEFINITION. The address map of the host port (spec/20_memory.md R61 to R69): which word an offset names, what a read of it
returns and what a write of it stores. Running a command on a CMD write is in Command.lean. -/

namespace Sys2Proof.Machine

/-- The named words of R67 below the RAM windows. -/
inductive Reg where
  | cmd | status | wireLen | frameOff | frameLen | ctrl | dlen | nlen
  | addrLo | addrHi | myAddrLo | myAddrHi | opaLo | opaHi | resultLo | resultHi
  | fval | time0 | time1 | nbufLo | nbufHi
  deriving DecidableEq, Repr

/-- What a mapped offset names: a register word, or the RAM word whose lane 0 is the byte at that port byte address. -/
inductive Location where
  | reg (r : Reg)
  | ram (a : Nat)
  deriving DecidableEq, Repr

/-- The offset column of R67. -/
def Reg.offset : Reg → Addr
  | .cmd => 0x000
  | .status => 0x004
  | .wireLen => 0x008
  | .frameOff => 0x00C
  | .frameLen => 0x010
  | .ctrl => 0x014
  | .dlen => 0x018
  | .nlen => 0x01C
  | .addrLo => 0x020
  | .addrHi => 0x024
  | .myAddrLo => 0x028
  | .myAddrHi => 0x02C
  | .opaLo => 0x030
  | .opaHi => 0x034
  | .resultLo => 0x038
  | .resultHi => 0x03C
  | .fval => 0x040
  | .time0 => 0x044
  | .time1 => 0x048
  | .nbufLo => 0x050
  | .nbufHi => 0x054

/-- The register word at an offset. -/
def regAt (a : Nat) : Option Reg :=
  match a with
  | 0x000 => some .cmd
  | 0x004 => some .status
  | 0x008 => some .wireLen
  | 0x00C => some .frameOff
  | 0x010 => some .frameLen
  | 0x014 => some .ctrl
  | 0x018 => some .dlen
  | 0x01C => some .nlen
  | 0x020 => some .addrLo
  | 0x024 => some .addrHi
  | 0x028 => some .myAddrLo
  | 0x02C => some .myAddrHi
  | 0x030 => some .opaLo
  | 0x034 => some .opaHi
  | 0x038 => some .resultLo
  | 0x03C => some .resultHi
  | 0x040 => some .fval
  | 0x044 => some .time0
  | 0x048 => some .time1
  | 0x050 => some .nbufLo
  | 0x054 => some .nbufHi
  | _ => none

/-- The DATA window 0x100..0x1FC (64 words) and the WIRE window 0x400..0x7FC (256 words) of R67, as byte ranges. -/
def inRamWindow (a : Nat) : Bool :=
  (decide (dataBase ≤ a) && decide (a < dataBase + 256)) || (decide (wireBase ≤ a) && decide (a < wireBase + 1024))

/-- What an access address names: nothing when misaligned (R61) or unmapped (R62). -/
def locate (a : Addr) : Option Location :=
  if a.toNat % 4 ≠ 0 then none
  else
    match regAt a.toNat with
    | some r => some (.reg r)
    | none => if inRamWindow a.toNat then some (.ram a.toNat) else none

/-- Byte k of a word: lane k, bits [8k+7:8k] (R68). -/
def lane (v : Word) (k : Nat) : BitVec 8 := v.extractLsb' (8 * k) 8

/-- A lane of a RAM window word: the byte it names, or 0 where it names none (R69). -/
def State.readLane (s : State) (a : Nat) : BitVec 8 := if isRamByte a then s.ramByte a else 0

/-- Write a lane of a RAM window word; a lane that names no byte ignores the write (R69). -/
def State.writeLane (s : State) (a : Nat) (b : BitVec 8) : State := if isRamByte a then s.setRamBytes a [b] else s

/-- What a register word reads as (R67, R68); reserved bits read as 0 (R63). -/
def State.readReg (s : State) : Reg → Word
  | .cmd => s.cmd
  | .status => s.statusWord
  | .wireLen => s.wireLen.setWidth 32
  | .frameOff => s.frameOff.setWidth 32
  | .frameLen => s.frameLen.setWidth 32
  | .ctrl => s.ctrl.setWidth 32
  | .dlen => s.dlen.setWidth 32
  | .nlen => 0#20 ++ s.nlenDeclared ++ 0#4 ++ s.nlenProduced
  | .addrLo => word4 s.addr[0] s.addr[1] s.addr[2] s.addr[3]
  | .addrHi => word4 s.addr[4] s.addr[5] 0 0
  | .myAddrLo => word4 s.myAddr[0] s.myAddr[1] s.myAddr[2] s.myAddr[3]
  | .myAddrHi => word4 s.myAddr[4] s.myAddr[5] 0 0
  | .opaLo => s.opa.extractLsb' 0 32
  | .opaHi => s.opa.extractLsb' 32 32
  | .resultLo => s.result.extractLsb' 0 32
  | .resultHi => s.result.extractLsb' 32 32
  | .fval => s.fval
  | .time0 => s.tDay ++ s.tMonth ++ s.tYear
  | .time1 => 0#16 ++ s.tMin ++ s.tHour
  | .nbufLo => word4 s.nbuf[0] s.nbuf[1] s.nbuf[2] s.nbuf[3]
  | .nbufHi => word4 s.nbuf[4] s.nbuf[5] s.nbuf[6] s.nbuf[7]

/-- What a write of a register word stores: its defined bits only (R63), and nothing for a read-only register (R64). For CMD
this is the storing alone (R22). -/
def State.writeReg (s : State) (r : Reg) (v : Word) : State :=
  match r with
  | .cmd => { s with cmd := v }
  | .status => s
  | .wireLen => { s with wireLen := v.setWidth 11 }
  | .frameOff => s
  | .frameLen => s
  | .ctrl => { s with ctrl := v.setWidth 8 }
  | .dlen => { s with dlen := v.setWidth 8 }
  | .nlen => s
  | .addrLo => { s with addr := #v[lane v 0, lane v 1, lane v 2, lane v 3, s.addr[4], s.addr[5]] }
  | .addrHi => { s with addr := #v[s.addr[0], s.addr[1], s.addr[2], s.addr[3], lane v 0, lane v 1] }
  | .myAddrLo => { s with myAddr := #v[lane v 0, lane v 1, lane v 2, lane v 3, s.myAddr[4], s.myAddr[5]] }
  | .myAddrHi => { s with myAddr := #v[s.myAddr[0], s.myAddr[1], s.myAddr[2], s.myAddr[3], lane v 0, lane v 1] }
  | .opaLo => { s with opa := s.opa.extractLsb' 32 32 ++ v }
  | .opaHi => { s with opa := v ++ s.opa.extractLsb' 0 32 }
  | .resultLo => s
  | .resultHi => s
  | .fval => { s with fval := v }
  | .time0 => { s with tYear := v.extractLsb' 0 16, tMonth := v.extractLsb' 16 8, tDay := v.extractLsb' 24 8 }
  | .time1 => { s with tHour := v.extractLsb' 0 8, tMin := v.extractLsb' 8 8 }
  | .nbufLo =>
    { s with nbuf := #v[lane v 0, lane v 1, lane v 2, lane v 3, s.nbuf[4], s.nbuf[5], s.nbuf[6], s.nbuf[7]] }
  | .nbufHi =>
    { s with nbuf := #v[s.nbuf[0], s.nbuf[1], s.nbuf[2], s.nbuf[3], lane v 0, lane v 1, lane v 2, lane v 3] }

/-- What a mapped word reads as; a read changes no state (R65). -/
def State.readLocation (s : State) : Location → Word
  | .reg r => s.readReg r
  | .ram a => word4 (s.readLane a) (s.readLane (a + 1)) (s.readLane (a + 2)) (s.readLane (a + 3))

/-- What a write of a mapped word stores (R63 to R65, R68, R69). -/
def State.writeLocation (s : State) (l : Location) (v : Word) : State :=
  match l with
  | .reg r => s.writeReg r v
  | .ram a =>
    (((s.writeLane a (lane v 0)).writeLane (a + 1) (lane v 1)).writeLane (a + 2) (lane v 2)).writeLane (a + 3) (lane v 3)

/-- What a read access returns: ERROR and 0x00000000 when misaligned or unmapped (R61, R62). -/
def State.readResponse (s : State) (a : Addr) : Response :=
  match locate a with
  | none => .read .error 0
  | some l => .read .okay (s.readLocation l)

end Sys2Proof.Machine
end

