-- ==== Sys2Proof/Machine/Command.lean ====
section
/-! DEFINITION. What one port event does: a read, a write, the command a CMD write runs (spec/10_state.md R22,
spec/30_encoding.md R85), and the reset event (spec/70_reset_and_hazards.md R280 to R282). -/

namespace Sys2Proof.Machine

/-- The error code of a word that decodes to no command (R85, R251, R252). -/
def errorOfDecode : DecodeError → ErrCode
  | .badOpcode => .badOpcode
  | .badField => .badField

/-- A CMD write: the word is stored in CMD, then the command it encodes runs to completion; a word that decodes to no command
is still stored (R22) and writes only ERR and STICKY besides (R258). -/
def issueCommand (w : Word) (s : State) : Host.Outcome State Fault Refusal :=
  match decode w with
  | .ok i => exec i { s with cmd := w }
  | .error e => raise (errorOfDecode e) { s with cmd := w }

/-- Hand the host a response (R60). -/
def State.respond (s : State) (r : Response) : State := { s with responses := s.responses ++ [r] }

/-- The response is given after the access's command is complete (R66). -/
def andRespond (r : Response) : Host.Outcome State Fault Refusal → Host.Outcome State Fault Refusal
  | .next s => .next (s.respond r)
  | .fault f => .fault f
  | .refused x => .refused x

/-- A write access: ERROR and no effect when misaligned or unmapped (R61, R62), a command when it is to CMD (R22, R65), else
only the storing (R65). -/
def writeAccess (a : Addr) (v : Word) (s : State) : Host.Outcome State Fault Refusal :=
  match locate a with
  | none => .next (s.respond (.write .error))
  | some (.reg .cmd) => andRespond (.write .okay) (issueCommand v s)
  | some l => .next ((s.writeLocation l v).respond (.write .okay))

/-- The reset event: every register at its value of R282, no RAM byte written and a new `RAM_INIT` draw (R281). The host's
pending accesses and the responses it has are the host's, and stay (assumption log 10). -/
def State.resetEvent (s : State) : State :=
  { State.reset with resets := s.resets + 1, port := s.port, responses := s.responses }

/-- One event at the port, from the state in which it has been taken off the list of events to come. -/
def handleEvent (e : PortEvent) (s : State) : Host.Outcome State Fault Refusal :=
  match e with
  | .read a => .next (s.respond (s.readResponse a))
  | .write a v => writeAccess a v s
  | .reset => .next s.resetEvent

end Sys2Proof.Machine
end

