-- ==== Sys2Proof/Machine/Step.lean ====
section
/-! DEFINITION. One step: the next event at the host port (spec/20_memory.md R75). -/

namespace Sys2Proof.Machine

/-- The next event of the total order of R75 is performed and complete before the one after it is taken. With no event to come
the block is idle and nothing changes (spec/00_scope.md R14, spec/60_exceptions.md R268). -/
def step (s : State) : Host.Outcome State Fault Refusal :=
  match s.port with
  | [] => .next s
  | e :: rest => handleEvent e { s with port := rest }

/-- `s` with a CMD write of that command word as the next port event: the block fetches nothing (R78), and a command is run by
the host's write to CMD (assumption log 3). -/
def State.withFetchWord (s : State) (nbits w : Nat) : State :=
  { s with port := .write 0x000 (BitVec.ofNat 32 (w % 2 ^ nbits)) :: s.port }

end Sys2Proof.Machine
end

