-- ==== Sys2Proof/Safety.lean ====
section
/-! DEFINITION. What every run of the block keeps (the invariant), and the spec's own notions the statements are written in:
sums, scan position, scaled magnitude over the rationals, the columns of the tables of R20, R67 and R250. -/

namespace Sys2Proof.Machine

/-- The values STATUS.ERR takes (spec/60_exceptions.md R250: "takes exactly these values"). -/
def errValues : List (BitVec 8) :=
  [0x00, 0x01, 0x02, 0x10, 0x11, 0x12, 0x13, 0x14, 0x15, 0x20, 0x21, 0x22, 0x23]

/-- The invariant of every step. -/
structure State.Inv (s : State) : Prop where
  /-- R250: ERR is one of the table's values -/
  err_legal : s.statErr ∈ errValues
  /-- R255: an ERR other than 0 has set STICKY -/
  err_sticky : s.statErr ≠ 0 → s.statSticky = true
  /-- R37: both NLEN fields are in 0..8, DECLARED no more than PRODUCED -/
  nlen_bound : s.nlenDeclared.toNat ≤ s.nlenProduced.toNat ∧ s.nlenProduced.toNat ≤ 8
  /-- R32: FRAME_LEN is 12 + L, at most 267, once there has been a frame -/
  frame_len : s.frameLen = 0 ∨ (12 ≤ s.frameLen.toNat ∧ s.frameLen.toNat ≤ 267)
  /-- R29, R31, R32: the frame named by FRAME_OFF and FRAME_LEN lies inside WIRE -/
  frame_in_wire : s.frameOff.toNat + s.frameLen.toNat ≤ 1024
  /-- R112, R113, R116, R118, R148: no command leaves more than 16 decimal digits in RESULT -/
  result_bound : s.result.toNat < 10 ^ 16
  /-- the memory list keeps its canonical form (assumption log 1) -/
  mem_wf : Memory.wf s.mem = true

/-- `sum256(ARR, i, j)` of R10: `(ARR[i] + ... + ARR[j-1]) mod 256`, 0 when i = j. -/
def sum256 (arr : Nat → BitVec 8) (i j : Nat) : BitVec 8 := BitVec.ofNat 8 (∑ k ∈ Finset.Ico i j, (arr k).toNat)

/-- The value of R111: `sum over k in 0..n-1 of bcd8(B[k]) * 100^(n-1-k)`. -/
def bcdSum (bs : List (BitVec 8)) : Nat :=
  ∑ k ∈ Finset.range bs.length, (10 * ((bs.getD k 0).toNat / 16) + (bs.getD k 0).toNat % 16) * 100 ^ (bs.length - 1 - k)

/-- Valid packed BCD (R12), said of the byte's number. -/
def IsBcdByte (b : BitVec 8) : Prop := b.toNat / 16 ≤ 9 ∧ b.toNat % 16 ≤ 9

/-- The byte string as NBUF holds it: `NBUF[k] <- B[k]`, 0x00 from the string's end on (R36). -/
def nbufOf (bs : List (BitVec 8)) : Vector (BitVec 8) 8 := Vector.ofFn fun k : Fin 8 => bs.getD k 0

/-- "if LE = 1: B <- rev(B)" (R72). -/
def revIf (le : Bool) (bs : List (BitVec 8)) : List (BitVec 8) := if le = true then bs.reverse else bs

/-- p is the scan position of R194: the least index below n whose WIRE byte is 0x68. -/
def LeastStart (s : State) (n p : Nat) : Prop :=
  p < n ∧ s.wireByte p = 0x68 ∧ ∀ i < p, s.wireByte i ≠ 0x68

/-- `M(x, f) = floor(|real(x)| * 10^d + 1/2)` over the rationals (R142, R143). -/
def scaledValue (x : BitVec 32) (d : Nat) : Nat := ⌊|f32Real x| * 10 ^ d + 1 / 2⌋₊

/-- `ulp(x)`: the unit of x's significand. -/
def f32Ulp (x : BitVec 32) : ℚ := (2 : ℚ) ^ ((f32Unit x : ℤ) - 150)

/-- Valid for a format: finite, and the scaled magnitude at most Max (R141, R150). -/
def ValidFor (x : BitVec 32) (f : Format) : Prop := f32Exp x ≠ 255 ∧ scaledValue x f.d ≤ f.maxScaled

/-- The `used` columns of R86 by OP value: (OP, LE, NB, FMT). -/
def opcodeMap : List (Nat × Bool × Bool × Bool) :=
  [(0x00, false, false, false), (0x01, false, false, false), (0x02, false, false, false), (0x03, false, false, false),
   (0x04, false, false, false), (0x05, false, false, false), (0x06, false, false, false), (0x10, false, false, false),
   (0x11, false, false, false), (0x12, true, true, false), (0x13, true, true, false), (0x14, true, false, true),
   (0x15, true, true, true), (0x16, false, false, true), (0x17, true, false, false), (0x18, true, false, false),
   (0x19, false, false, false), (0x1A, false, false, false)]

/-- The rows of spec/opcode_table.json: mask and match over the whole word, and whether NB and FMT carry an operand. -/
def opcodeRow : Op → Word × Word × Bool × Bool
  | .nop => (0xFFFFFFFF, 0x00000000, false, false)
  | .frameBuild => (0xFFFFFFFF, 0x00000001, false, false)
  | .frameParse => (0xFFFFFFFF, 0x00000002, false, false)
  | .addrMatchSrv => (0xFFFFFFFF, 0x00000003, false, false)
  | .addrMatchCli => (0xFFFFFFFF, 0x00000004, false, false)
  | .domainEncode => (0xFFFFFFFF, 0x00000005, false, false)
  | .domainDecode => (0xFFFFFFFF, 0x00000006, false, false)
  | .bcd8ToBin => (0xFFFFFFFF, 0x00000010, false, false)
  | .binToBcd8 => (0xFFFFFFFF, 0x00000011, false, false)
  | .intToBcd => (0xFFFF0EFF, 0x00000012, true, false)
  | .bcdToInt => (0xFFFF0EFF, 0x00000013, true, false)
  | .floatToBcd => (0xFFF0FEFF, 0x00000014, false, true)
  | .bcdToFloat => (0xFFF00EFF, 0x00000015, true, true)
  | .valueValid => (0xFFF0FFFF, 0x00000016, false, true)
  | .timeToBcd => (0xFFFFFEFF, 0x00000017, false, false)
  | .bcdToTime => (0xFFFFFEFF, 0x00000018, false, false)
  | .u32ToLe4 => (0xFFFFFFFF, 0x00000019, false, false)
  | .le4ToU32 => (0xFFFFFFFF, 0x0000001A, false, false)

/-- The ERR values a decoded command can end with: 0x00 and the codes whose "raised by" column of R250 names it. -/
def errorsOf : Op → List (BitVec 8)
  | .nop | .frameBuild | .addrMatchSrv | .addrMatchCli | .domainEncode | .domainDecode | .valueValid | .u32ToLe4
  | .le4ToU32 => [0x00]
  | .frameParse => [0x00, 0x02, 0x10, 0x11, 0x12, 0x13, 0x14, 0x15]
  | .bcd8ToBin | .bcdToInt | .bcdToFloat | .bcdToTime => [0x00, 0x20]
  | .binToBcd8 | .intToBcd => [0x00, 0x21]
  | .floatToBcd => [0x00, 0x22]
  | .timeToBcd => [0x00, 0x23]

/-- The offsets that R67 does not map, as it lists them. -/
def Unmapped (a : Nat) : Prop :=
  a = 0x04C ∨ (0x058 ≤ a ∧ a ≤ 0x0FF) ∨ (0x200 ≤ a ∧ a ≤ 0x3FF) ∨ 0x800 ≤ a

/-- The writable bits of each read/write word of R67 other than CMD (R63, R69). -/
def writableBits (a : Nat) : Option Word :=
  if a ∈ [0x020, 0x028, 0x030, 0x034, 0x040, 0x044, 0x050, 0x054] then some 0xFFFFFFFF
  else if a ∈ [0x024, 0x02C, 0x048] then some 0x0000FFFF
  else if a ∈ [0x014, 0x018] then some 0x000000FF
  else if a = 0x008 then some 0x000007FF
  else if a = 0x1FC then some 0x00FFFFFF
  else if a % 4 = 0 ∧ ((0x100 ≤ a ∧ a < 0x1FC) ∨ (0x400 ≤ a ∧ a ≤ 0x7FC)) then some 0xFFFFFFFF
  else none

end Sys2Proof.Machine
end

