-- ==== Sys2Proof/Certificates/Slice0/Obligations.lean ====
section
/-! DEFINITION. The statements about the model. Each command's statement gives its encoding, every outcome and, by writing the
next state as `s` with named fields changed, its frame: every field not named is unchanged. RAM bytes are said through
`State.ramByte`, `dataByte` and `wireByte`. -/

open Sys2Proof Sys2Proof.Machine

/-! ### The command word -/

/-- R87, and the checks of R85 with the columns of R86: a word fails with E_BAD_OPCODE exactly when its OP is reserved, and with
E_BAD_FIELD exactly when its OP is known and a field is illegal. -/
def Obligations.ReservedAndIllegalWordsAreRefused : Prop :=
  (∀ w : Word, decode w = .error .badOpcode ↔
    ((0x07 ≤ w.toNat % 256 ∧ w.toNat % 256 ≤ 0x0F) ∨ 0x1B ≤ w.toNat % 256)) ∧
  ∀ (w : Word) (le nb fmt : Bool), (w.toNat % 256, le, nb, fmt) ∈ opcodeMap →
    (decode w = .error .badField ↔
      (w.toNat / 2 ^ 20 ≠ 0 ∨ w.toNat / 2 ^ 9 % 8 ≠ 0 ∨
       (le = false ∧ w.toNat / 2 ^ 8 % 2 ≠ 0) ∨
       (nb = false ∧ w.toNat / 2 ^ 12 % 16 ≠ 0) ∨
       (nb = true ∧ ¬ (1 ≤ w.toNat / 2 ^ 12 % 16 ∧ w.toNat / 2 ^ 12 % 16 ≤ 8)) ∨
       (fmt = false ∧ w.toNat / 2 ^ 16 % 16 ≠ 0) ∨
       (fmt = true ∧ ¬ w.toNat / 2 ^ 16 % 16 ≤ 7)))

/-- spec/opcode_table.json and R86: a word decodes to a command of a row exactly when it has the row's match under its mask and
its NB and FMT operands are legal. -/
def Obligations.DecodeFollowsMaskAndMatch : Prop :=
  ∀ (w : Word) (op : Op), (∃ i, decode w = .ok i ∧ i.op = op) ↔
    (w &&& (opcodeRow op).1 = (opcodeRow op).2.1 ∧
     ((opcodeRow op).2.2.1 = true → 1 ≤ w.toNat / 2 ^ 12 % 16 ∧ w.toNat / 2 ^ 12 % 16 ≤ 8) ∧
     ((opcodeRow op).2.2.2 = true → w.toNat / 2 ^ 16 % 16 ≤ 7))

/-- R80, R86: no bit of an encoding is dropped. -/
def Obligations.DecodeOfEncode : Prop :=
  ∀ i : Instr, WellFormed i = true → decode (encode i) = .ok i

/-- R80, R85: each legal word is the encoding of one command. -/
def Obligations.EncodeOfDecode : Prop :=
  ∀ (w : Word) (i : Instr), decode w = .ok i → WellFormed i = true ∧ encode i = w

/-- Words of spec/95_test_vectors.md section 2.1, one of each field shape. -/
def Obligations.SampleWordsDecode : Prop :=
  decode 0x00000000 = .ok .nop ∧ decode 0x00000002 = .ok .frameParse ∧ decode 0x00000004 = .ok .addrMatchCli ∧
  decode 0x00000010 = .ok .bcd8ToBin ∧ decode 0x00008112 = .ok (.intToBcd true 8) ∧
  decode 0x00070114 = .ok (.floatToBcd true 7) ∧ decode 0x00062015 = .ok (.bcdToFloat false 2 6) ∧
  decode 0x00030016 = .ok (.valueValid 3) ∧ decode 0x00000117 = .ok (.timeToBcd true) ∧
  decode 0x0000001A = .ok .le4ToU32

/-! ### The port and the step -/

/-- R22: a CMD write stores the word, then runs the command it encodes on the state that holds it. -/
def Obligations.StepRunsTheDecodedCommand : Prop :=
  ∀ (s : State) (w : Word) (i : Instr) (rest : List PortEvent), s.port = .write 0x000 w :: rest → decode w = .ok i →
    step s = andRespond (.write .okay) (exec i { s with cmd := w, port := rest })

/-- R251, R252, R258: a word that decodes to no command writes only CMD, ERR and STICKY. -/
def Obligations.FailedDecodeWritesOnlyCmdErrSticky : Prop :=
  ∀ (s : State) (w : Word) (rest : List PortEvent), s.port = .write 0x000 w :: rest →
    ((0x07 ≤ w.toNat % 256 ∧ w.toNat % 256 ≤ 0x0F) ∨ 0x1B ≤ w.toNat % 256 →
      step s = .next { s with port := rest, cmd := w, statErr := 0x01, statSticky := true,
                              responses := s.responses ++ [.write .okay] }) ∧
    (decode w = .error .badField →
      step s = .next { s with port := rest, cmd := w, statErr := 0x02, statSticky := true,
                              responses := s.responses ++ [.write .okay] })

/-- R22: a CMD write stores the word and runs the command it encodes, if any; CMD reads as the last word written, or 0 after
reset; no command changes it, and no step but a CMD write or a reset does. -/
def Obligations.CmdHoldsTheLastWordWritten : Prop :=
  (∀ (s : State) (w : Word) (rest : List PortEvent), s.port = .write 0x000 w :: rest →
    ∃ t, step s = .next t ∧ t.cmd = w ∧ t.readResponse 0x000 = .read .okay w ∧ t.port = rest ∧
      t.responses = s.responses ++ [.write .okay] ∧
      ∀ i, decode w = .ok i → exec i { s with cmd := w, port := rest } = .next { t with responses := s.responses }) ∧
  (∀ (i : Instr) (s : State), ∃ t, exec i s = .next t ∧ t.cmd = s.cmd) ∧
  (∀ s t : State, step s = .next t → t.cmd = s.cmd ∨ (∃ w rest, s.port = .write 0x000 w :: rest ∧ t.cmd = w) ∨
    ∃ rest, s.port = .reset :: rest ∧ t.cmd = 0x00000000) ∧
  State.reset.readResponse 0x000 = .read .okay 0x00000000

/-- R65, R60: a read hands back one response and changes nothing else. -/
def Obligations.ReadsHaveNoSideEffect : Prop :=
  ∀ (s : State) (a : Addr) (rest : List PortEvent), s.port = .read a :: rest →
    step s = .next { s with port := rest, responses := s.responses ++ [s.readResponse a] }

/-- R61, R62: a misaligned or unmapped access answers ERROR, reads 0x00000000 and changes no state. -/
def Obligations.MisalignedAndUnmappedAnswerError : Prop :=
  ∀ (s : State) (a : Addr) (v : Word) (rest : List PortEvent), (a.toNat % 4 ≠ 0 ∨ Unmapped a.toNat) →
    (s.port = .read a :: rest →
      step s = .next { s with port := rest, responses := s.responses ++ [.read .error 0x00000000] }) ∧
    (s.port = .write a v :: rest →
      step s = .next { s with port := rest, responses := s.responses ++ [.write .error] })

/-- R67: every aligned offset that is not unmapped answers OKAY to a read and to a write. -/
def Obligations.MappedAccessesAnswerOkay : Prop :=
  ∀ (s : State) (a : Addr) (v : Word) (rest : List PortEvent), a.toNat % 4 = 0 → ¬ Unmapped a.toNat →
    (s.port = .read a :: rest → ∃ t x, step s = .next t ∧ t.responses = s.responses ++ [.read .okay x]) ∧
    (s.port = .write a v :: rest → ∃ t, step s = .next t ∧ t.responses = s.responses ++ [.write .okay])

/-- R67, R68, R63, R23, R37: what each register word reads as, as a number; reserved bits are 0. -/
def Obligations.RegisterWordsReadAsMapped : Prop :=
  ∀ s : State,
    s.readResponse 0x000 = .read .okay s.cmd ∧
    s.readResponse 0x004 = .read .okay (BitVec.ofNat 32 (s.statErr.toNat + 256 * s.statMatch.toNat + 512 * s.statFv.toNat +
      1024 * s.statNeg.toNat + 2048 * s.statSticky.toNat)) ∧
    s.readResponse 0x008 = .read .okay (BitVec.ofNat 32 s.wireLen.toNat) ∧
    s.readResponse 0x00C = .read .okay (BitVec.ofNat 32 s.frameOff.toNat) ∧
    s.readResponse 0x010 = .read .okay (BitVec.ofNat 32 s.frameLen.toNat) ∧
    s.readResponse 0x014 = .read .okay (BitVec.ofNat 32 s.ctrl.toNat) ∧
    s.readResponse 0x018 = .read .okay (BitVec.ofNat 32 s.dlen.toNat) ∧
    s.readResponse 0x01C = .read .okay (BitVec.ofNat 32 (s.nlenProduced.toNat + 2 ^ 8 * s.nlenDeclared.toNat)) ∧
    s.readResponse 0x020 = .read .okay (BitVec.ofNat 32
      (s.addr[0].toNat + 2 ^ 8 * s.addr[1].toNat + 2 ^ 16 * s.addr[2].toNat + 2 ^ 24 * s.addr[3].toNat)) ∧
    s.readResponse 0x024 = .read .okay (BitVec.ofNat 32 (s.addr[4].toNat + 2 ^ 8 * s.addr[5].toNat)) ∧
    s.readResponse 0x028 = .read .okay (BitVec.ofNat 32
      (s.myAddr[0].toNat + 2 ^ 8 * s.myAddr[1].toNat + 2 ^ 16 * s.myAddr[2].toNat + 2 ^ 24 * s.myAddr[3].toNat)) ∧
    s.readResponse 0x02C = .read .okay (BitVec.ofNat 32 (s.myAddr[4].toNat + 2 ^ 8 * s.myAddr[5].toNat)) ∧
    s.readResponse 0x030 = .read .okay (BitVec.ofNat 32 (s.opa.toNat % 2 ^ 32)) ∧
    s.readResponse 0x034 = .read .okay (BitVec.ofNat 32 (s.opa.toNat / 2 ^ 32)) ∧
    s.readResponse 0x038 = .read .okay (BitVec.ofNat 32 (s.result.toNat % 2 ^ 32)) ∧
    s.readResponse 0x03C = .read .okay (BitVec.ofNat 32 (s.result.toNat / 2 ^ 32)) ∧
    s.readResponse 0x040 = .read .okay s.fval ∧
    s.readResponse 0x044 = .read .okay (BitVec.ofNat 32
      (s.tYear.toNat + 2 ^ 16 * s.tMonth.toNat + 2 ^ 24 * s.tDay.toNat)) ∧
    s.readResponse 0x048 = .read .okay (BitVec.ofNat 32 (s.tHour.toNat + 2 ^ 8 * s.tMin.toNat)) ∧
    s.readResponse 0x050 = .read .okay (BitVec.ofNat 32
      (s.nbuf[0].toNat + 2 ^ 8 * s.nbuf[1].toNat + 2 ^ 16 * s.nbuf[2].toNat + 2 ^ 24 * s.nbuf[3].toNat)) ∧
    s.readResponse 0x054 = .read .okay (BitVec.ofNat 32
      (s.nbuf[4].toNat + 2 ^ 8 * s.nbuf[5].toNat + 2 ^ 16 * s.nbuf[6].toNat + 2 ^ 24 * s.nbuf[7].toNat))

/-- R67, R68, R69: the words of the RAM windows, byte k of DATA or WIRE in lane k rem 4; the last DATA word's lane 3 reads 0. -/
def Obligations.RamWindowsReadTheBytes : Prop :=
  ∀ (s : State) (j : Nat),
    (j < 63 → s.readResponse (BitVec.ofNat 12 (0x100 + 4 * j)) = .read .okay (BitVec.ofNat 32
      ((s.dataByte (4 * j)).toNat + 2 ^ 8 * (s.dataByte (4 * j + 1)).toNat + 2 ^ 16 * (s.dataByte (4 * j + 2)).toNat +
        2 ^ 24 * (s.dataByte (4 * j + 3)).toNat))) ∧
    s.readResponse 0x1FC = .read .okay (BitVec.ofNat 32
      ((s.dataByte 252).toNat + 2 ^ 8 * (s.dataByte 253).toNat + 2 ^ 16 * (s.dataByte 254).toNat)) ∧
    (j < 256 → s.readResponse (BitVec.ofNat 12 (0x400 + 4 * j)) = .read .okay (BitVec.ofNat 32
      ((s.wireByte (4 * j)).toNat + 2 ^ 8 * (s.wireByte (4 * j + 1)).toNat + 2 ^ 16 * (s.wireByte (4 * j + 2)).toNat +
        2 ^ 24 * (s.wireByte (4 * j + 3)).toNat)))

/-- R64: a write to STATUS, FRAME_OFF, FRAME_LEN, NLEN, RESULT_LO or RESULT_HI answers OKAY and changes no state. -/
def Obligations.ReadOnlyWritesAreIgnored : Prop :=
  ∀ (s : State) (a : Addr) (v : Word) (rest : List PortEvent), a ∈ ([0x004, 0x00C, 0x010, 0x01C, 0x038, 0x03C] : List Addr) →
    s.port = .write a v :: rest →
    step s = .next { s with port := rest, responses := s.responses ++ [.write .okay] }

/-- R63, R69, R75: a read after a write of a read/write word returns the defined bits written and 0 in the others. -/
def Obligations.ReadAfterWriteReturnsDefinedBits : Prop :=
  ∀ (s : State) (a : Addr) (v m : Word) (rest : List PortEvent), writableBits a.toNat = some m →
    s.port = .write a v :: .read a :: rest →
    ∃ t u, step s = .next t ∧ step t = .next u ∧
      u.responses = s.responses ++ [.write .okay, .read .okay (v &&& m)] ∧ u.port = rest

/-- R65: a write other than a CMD write changes what no other word reads as. -/
def Obligations.WriteLeavesOtherWords : Prop :=
  ∀ (s : State) (a b : Addr) (v : Word) (rest : List PortEvent), a.toNat ≠ 0x000 → b ≠ a → s.port = .write a v :: rest →
    ∃ t, step s = .next t ∧ t.readResponse b = s.readResponse b

/-- R65, R68, R69: a write of a RAM window word stores its lanes in the RAM bytes it names and changes no register and no other
RAM byte. -/
def Obligations.RamWriteStoresItsLanes : Prop :=
  ∀ (s : State) (a : Addr) (v : Word) (rest : List PortEvent), a.toNat % 4 = 0 →
    ((0x100 ≤ a.toNat ∧ a.toNat ≤ 0x1FC) ∨ (0x400 ≤ a.toNat ∧ a.toNat ≤ 0x7FC)) → s.port = .write a v :: rest →
    ∃ t, step s = .next t ∧ t = { s with port := rest, responses := s.responses ++ [.write .okay], mem := t.mem } ∧
      (∀ k < 4, a.toNat + k ≠ 0x1FF → t.ramByte (a.toNat + k) = BitVec.ofNat 8 (v.toNat / 2 ^ (8 * k))) ∧
      (∀ x, (x < a.toNat ∨ a.toNat + 4 ≤ x ∨ x = 0x1FF) → t.ramByte x = s.ramByte x)

/-! ### Reset -/

/-- R282: the reset value of every register and field. (The RAM rows of R282 say "unspecified": RamBytesAfterReset.) -/
def Obligations.ResetValues : Prop :=
  State.reset.cmd = 0x00000000 ∧ State.reset.statErr = 0x00 ∧ State.reset.statMatch = false ∧ State.reset.statFv = false ∧
  State.reset.statNeg = false ∧ State.reset.statSticky = false ∧ State.reset.statusWord = 0x00000000 ∧
  State.reset.wireLen = 0 ∧ State.reset.frameOff = 0 ∧ State.reset.frameLen = 0 ∧ State.reset.ctrl = 0x00 ∧
  State.reset.dlen = 0x00 ∧ State.reset.nlenProduced = 0 ∧ State.reset.nlenDeclared = 0 ∧
  (∀ k : Fin 6, State.reset.addr[k] = 0x00) ∧ (∀ k : Fin 6, State.reset.myAddr[k] = 0x00) ∧
  State.reset.opa = 0 ∧ State.reset.result = 0 ∧ State.reset.fval = 0x00000000 ∧
  State.reset.tYear = 0 ∧ State.reset.tMonth = 0 ∧ State.reset.tDay = 0 ∧ State.reset.tHour = 0 ∧ State.reset.tMin = 0 ∧
  ∀ k : Fin 8, State.reset.nbuf[k] = 0x00

/-- R281, in the model's terms: with no byte written, each RAM byte is its own draw, whichever draw is current, and a written
byte no longer depends on the draw. That the draws are numbered is the model's choice (assumption log 1). -/
def Obligations.RamBytesAfterReset : Prop :=
  ∀ n a : Nat, ({ State.reset with resets := n } : State).ramByte a = Config.ramInit n a ∧
    ∀ (v : BitVec 8) (b : Nat), ({ State.reset with resets := n }.setRamBytes a [v] : State).ramByte b =
      if b = a then v else Config.ramInit n b

/-- R280, R281: a reset event, from any state, sets every register to its reset value and replaces every RAM byte by the
next draw; the host's pending accesses stay (that the draw is numbered by a counter is the model's choice, assumption log 1). -/
def Obligations.ResetEventRestartsTheBlock : Prop :=
  ∀ (s : State) (rest : List PortEvent), s.port = .reset :: rest →
    ∃ t, step s = .next t ∧
      t = { State.reset with resets := s.resets + 1, port := rest, responses := s.responses } ∧
      ∀ a, t.ramByte a = Config.ramInit (s.resets + 1) a

/-! ### Miscellaneous, BCD and little-endian commands -/

/-- R240. -/
def Obligations.NopWritesOnlyErr : Prop :=
  encode .nop = 0x00000000 ∧
  (∀ s : State, exec .nop s = .next { s with statErr := 0x00 }) ∧
  ∀ w : Word, w.toNat % 256 = 0 → w ≠ 0 → decode w = .error .badField

/-- R110, R111: `bcdval` is the weighted sum, and `bcdstr v n` is the one valid n-byte string of value v. -/
def Obligations.BcdStringIsUnique : Prop :=
  (∀ bs : List (BitVec 8), bcdval bs = bcdSum bs) ∧
  ∀ (v n : Nat), v < 100 ^ n →
    ((bcdstr v n).length = n ∧ (∀ b ∈ bcdstr v n, IsBcdByte b) ∧ bcdSum (bcdstr v n) = v) ∧
    ∀ bs : List (BitVec 8), bs.length = n → (∀ b ∈ bs, IsBcdByte b) → bcdSum bs = v → bs = bcdstr v n

/-- R112. -/
def Obligations.Bcd8ToBinResult : Prop :=
  encode .bcd8ToBin = 0x00000010 ∧
  ∀ s : State,
    (s.opa.toNat % 256 / 16 ≤ 9 ∧ s.opa.toNat % 16 ≤ 9 →
      exec .bcd8ToBin s =
        .next { s with result := BitVec.ofNat 64 (10 * (s.opa.toNat % 256 / 16) + s.opa.toNat % 16), statErr := 0x00 }) ∧
    (¬ (s.opa.toNat % 256 / 16 ≤ 9 ∧ s.opa.toNat % 16 ≤ 9) →
      exec .bcd8ToBin s = .next { s with result := 0, statErr := 0x20, statSticky := true })

/-- R113. -/
def Obligations.BinToBcd8Result : Prop :=
  encode .binToBcd8 = 0x00000011 ∧
  ∀ s : State,
    (s.opa.toNat ≤ 99 →
      exec .binToBcd8 s =
        .next { s with result := BitVec.ofNat 64 (16 * (s.opa.toNat / 10) + s.opa.toNat % 10), statErr := 0x00 }) ∧
    (s.opa.toNat > 99 → exec .binToBcd8 s = .next { s with result := 0, statErr := 0x21, statSticky := true })

/-- R114, by its encoding line; its example word is a misprint (assumption log 4). -/
def Obligations.IntToBcdResult : Prop :=
  ∀ (le : Bool) (nb : BitVec 4) (s : State), 1 ≤ nb.toNat → nb.toNat ≤ 8 →
    encode (.intToBcd le nb) = BitVec.ofNat 32 (0x12 + 2 ^ 8 * le.toNat + 2 ^ 12 * nb.toNat) ∧
    (s.opa.toNat ≥ 100 ^ nb.toNat →
      exec (.intToBcd le nb) s =
        .next { s with nbuf := nbufOf [], nlenProduced := 0, nlenDeclared := 0, statErr := 0x21, statSticky := true }) ∧
    (s.opa.toNat < 100 ^ nb.toNat →
      exec (.intToBcd le nb) s =
        .next { s with nbuf := nbufOf (revIf le (bcdstr s.opa.toNat nb.toNat)), nlenProduced := nb, nlenDeclared := nb,
                       statErr := 0x00 })

/-- R116, by its encoding line (assumption log 4): NBUF[NB..7] and the sign convention play no part. -/
def Obligations.BcdToIntResult : Prop :=
  ∀ (le : Bool) (nb : BitVec 4) (s : State) (bs : List (BitVec 8)), 1 ≤ nb.toNat → nb.toNat ≤ 8 →
    bs = revIf le (s.nbuf.toList.take nb.toNat) →
    encode (.bcdToInt le nb) = BitVec.ofNat 32 (0x13 + 2 ^ 8 * le.toNat + 2 ^ 12 * nb.toNat) ∧
    ((∀ b ∈ bs, IsBcdByte b) →
      exec (.bcdToInt le nb) s = .next { s with result := BitVec.ofNat 64 (bcdSum bs), statErr := 0x00 } ∧
      bcdSum bs < 10 ^ 16) ∧
    (¬ (∀ b ∈ bs, IsBcdByte b) →
      exec (.bcdToInt le nb) s = .next { s with result := 0, statErr := 0x20, statSticky := true })

/-- R114, R116, R72: an integer that fits comes back from its string, in either byte order. R117, R118: the low 32 bits of OPA
come back from their four bytes. -/
def Obligations.IntegerRoundTrips : Prop :=
  (∀ (le : Bool) (nb : BitVec 4) (s : State), 1 ≤ nb.toNat → nb.toNat ≤ 8 → s.opa.toNat < 100 ^ nb.toNat →
    ∃ t u, exec (.intToBcd le nb) s = .next t ∧ exec (.bcdToInt le nb) t = .next u ∧ u.result = s.opa ∧ u.statErr = 0x00) ∧
  ∀ s : State, ∃ t u, exec .u32ToLe4 s = .next t ∧ exec .le4ToU32 t = .next u ∧ u.result.toNat = s.opa.toNat % 2 ^ 32

/-- R117, R73. -/
def Obligations.U32ToLe4Result : Prop :=
  encode .u32ToLe4 = 0x00000019 ∧
  ∀ s : State, exec .u32ToLe4 s =
    .next { s with nbuf := Vector.ofFn fun k : Fin 8 => if k.val < 4 then BitVec.ofNat 8 (s.opa.toNat / 2 ^ (8 * k.val)) else 0,
                   nlenProduced := 4, nlenDeclared := 4, statErr := 0x00 }

/-- R118, R73. -/
def Obligations.Le4ToU32Result : Prop :=
  encode .le4ToU32 = 0x0000001A ∧
  ∀ s : State, exec .le4ToU32 s =
    .next { s with result := BitVec.ofNat 64 (s.nbuf[0].toNat + 2 ^ 8 * s.nbuf[1].toNat + 2 ^ 16 * s.nbuf[2].toNat +
                     2 ^ 24 * s.nbuf[3].toNat),
                   statErr := 0x00 }

/-! ### The fixed-point converter -/

/-- R140 with the table of R90: n, d, the scale, W and Max of each format code; codes 8..15 name no format. -/
def Obligations.FormatTable : Prop :=
  ((List.range 16).map fun c =>
      (formatOf (BitVec.ofNat 4 c)).map fun f => (f.mask, f.n, f.d, f.scale, f.width, f.maxScaled)) =
    [some ("XXXXXX.XX", 8, 2, 100, 4, 79999999), some ("XXXX.XX", 6, 2, 100, 3, 799999),
     some ("XXX.XXX", 6, 3, 1000, 3, 799999), some ("XXX.X", 4, 1, 10, 2, 7999), some ("XX.XXXX", 6, 4, 10000, 3, 799999),
     some ("XX.XX", 4, 2, 100, 2, 7999), some ("X.XXX", 4, 3, 1000, 2, 7999),
     some ("XXXXXXXXXXXX", 12, 0, 1, 6, 799999999999), none, none, none, none, none, none, none, none]

/-- R142, R143: the integer computation is the exact floor(|real(x)| * 10^d + 1/2), with no intermediate rounding; a non-finite x
is never in range. -/
def Obligations.ScaledMagnitudeIsExact : Prop :=
  ∀ x : BitVec 32, (∀ d : Nat, scaledMag x d = scaledValue x d) ∧ ∀ f : Format, f32Exp x = 255 → inRange x f = false

/-- R144: `rnd_f32(M / 10^d)` is finite, is a nearest binary32 to the quotient, and has an even fraction when another magnitude
is as near; M = 0 gives a zero. The value of a pattern is IEEE 754's, presumed (assumption log 6). -/
def Obligations.RoundingIsNearestEven : Prop :=
  ∀ (neg : Bool) (m d : Nat), m < 10 ^ 16 → d ≤ 4 →
    f32Finite (rndF32 neg m (10 ^ d)) = true ∧ f32Sign (rndF32 neg m (10 ^ d)) = neg ∧
    (∀ z : BitVec 32, f32Finite z = true →
      abs ((m : ℚ) / 10 ^ d - |f32Real (rndF32 neg m (10 ^ d))|) ≤ abs ((m : ℚ) / 10 ^ d - |f32Real z|)) ∧
    (∀ z : BitVec 32, f32Finite z = true → |f32Real z| ≠ |f32Real (rndF32 neg m (10 ^ d))| →
      abs ((m : ℚ) / 10 ^ d - |f32Real (rndF32 neg m (10 ^ d))|) = abs ((m : ℚ) / 10 ^ d - |f32Real z|) →
      f32Frac (rndF32 neg m (10 ^ d)) % 2 = 0) ∧
    (m = 0 → rndF32 neg m (10 ^ d) = if neg = true then 0x80000000 else 0x00000000)

/-- R146, R145: with the sign of the exact real value and the pad bytes of the 4-byte minimum width. -/
def Obligations.FloatToBcdResult : Prop :=
  ∀ (le : Bool) (fmt : BitVec 4) (f : Format) (s : State) (m p : Nat) (b c : List (BitVec 8)), formatOf fmt = some f →
    m = scaledValue s.fval f.d → p = max 4 f.width → b = List.replicate (p - f.width) 0x00 ++ bcdstr m f.width →
    c = (if f32Real s.fval < 0 then b.modifyHead (fun x => x ||| 0x80) else b) →
    encode (.floatToBcd le fmt) = BitVec.ofNat 32 (0x14 + 2 ^ 8 * le.toNat + 2 ^ 16 * fmt.toNat) ∧
    (¬ ValidFor s.fval f →
      exec (.floatToBcd le fmt) s =
        .next { s with nbuf := nbufOf [], nlenProduced := 0, nlenDeclared := 0, statErr := 0x22, statSticky := true }) ∧
    (ValidFor s.fval f →
      exec (.floatToBcd le fmt) s =
        .next { s with nbuf := nbufOf (revIf le c), nlenProduced := BitVec.ofNat 4 p, nlenDeclared := BitVec.ofNat 4 f.width,
                       statErr := 0x00 })

/-- R148, by its encoding line (assumption log 4): the sign bit is bit 7 of the most significant byte after any reversal, and
FVAL is `rnd_f32(M / 10^d)` re-signed. -/
def Obligations.BcdToFloatResult : Prop :=
  ∀ (le : Bool) (nb fmt : BitVec 4) (f : Format) (s : State) (b0 : BitVec 8) (bs c : List (BitVec 8)) (neg : Bool),
    1 ≤ nb.toNat → nb.toNat ≤ 8 → formatOf fmt = some f → b0 :: bs = revIf le (s.nbuf.toList.take nb.toNat) →
    c = BitVec.ofNat 8 (b0.toNat % 128) :: bs → neg = decide (128 ≤ b0.toNat) →
    encode (.bcdToFloat le nb fmt) = BitVec.ofNat 32 (0x15 + 2 ^ 8 * le.toNat + 2 ^ 12 * nb.toNat + 2 ^ 16 * fmt.toNat) ∧
    (¬ (∀ b ∈ c, IsBcdByte b) →
      exec (.bcdToFloat le nb fmt) s =
        .next { s with fval := 0x00000000, result := 0, statNeg := false, statErr := 0x20, statSticky := true }) ∧
    ((∀ b ∈ c, IsBcdByte b) →
      bcdSum c < 8 * 10 ^ (2 * nb.toNat - 1) ∧
      exec (.bcdToFloat le nb fmt) s =
        .next { s with result := BitVec.ofNat 64 (bcdSum c), statNeg := neg, fval := rndF32 neg (bcdSum c) (10 ^ f.d),
                       statErr := 0x00 })

/-- R150: MATCH is the range check, and is 1 exactly when FLOAT_TO_BCD with that FMT succeeds. -/
def Obligations.ValueValidResult : Prop :=
  ∀ (fmt : BitVec 4) (f : Format) (s : State), formatOf fmt = some f →
    encode (.valueValid fmt) = BitVec.ofNat 32 (0x16 + 2 ^ 16 * fmt.toNat) ∧
    ∃ t, exec (.valueValid fmt) s = .next t ∧ t = { s with statMatch := t.statMatch, statErr := 0x00 } ∧
      (t.statMatch = true ↔ ValidFor s.fval f) ∧
      ∀ le, ∃ u, exec (.floatToBcd le fmt) s = .next u ∧ (u.statErr = 0x22 ↔ t.statMatch = false)

/-- From R146 and R148, in place of R151's bound (which fails, assumption log 7): encoding a valid x and decoding the uncut
string gives back M and a binary32 within half a format unit plus half an ulp of the RESULT, with the sign of x unless x is
-0.0. -/
def Obligations.FloatRoundTrip : Prop :=
  ∀ (le : Bool) (fmt : BitVec 4) (f : Format) (s : State), formatOf fmt = some f → ValidFor s.fval f →
    ∃ t u, exec (.floatToBcd le fmt) s = .next t ∧ exec (.bcdToFloat le t.nlenProduced fmt) t = .next u ∧ u.statErr = 0x00 ∧
      u.result.toNat = scaledValue s.fval f.d ∧
      u.fval = rndF32 (decide (f32Real s.fval < 0)) (scaledValue s.fval f.d) (10 ^ f.d) ∧
      |f32Real u.fval - f32Real s.fval| ≤ (1 / 2) / 10 ^ f.d + f32Ulp u.fval / 2 ∧
      f32Sign u.fval = (f32Sign s.fval && decide (s.fval ≠ 0x80000000)) ∧
      (s.fval = 0x80000000 → u.fval = 0x00000000) ∧
      (f32Real s.fval < 0 → scaledValue s.fval f.d = 0 → u.fval = 0x80000000)

/-- R151 word for word: the bound uses half an ulp of x. EXPECTED TO FAIL (assumption log 7): FVAL = 0x3AC49BA6 under XXX.XXX. -/
def Obligations.FloatRoundTripWithinHalfUlpOfOperand : Prop :=
  ∀ (le : Bool) (fmt : BitVec 4) (f : Format) (s t u : State), formatOf fmt = some f → ValidFor s.fval f →
    exec (.floatToBcd le fmt) s = .next t → exec (.bcdToFloat le t.nlenProduced fmt) t = .next u →
    |f32Real u.fval - f32Real s.fval| ≤ (1 / 2) / 10 ^ f.d + f32Ulp s.fval / 2 ∧
      f32Sign u.fval = (f32Sign s.fval && decide (s.fval ≠ 0x80000000)) ∧
      (s.fval = 0x80000000 → u.fval = 0x00000000) ∧
      (f32Real s.fval < 0 → scaledValue s.fval f.d = 0 → u.fval = 0x80000000)

/-- R147, R290: the LE = 1 string cut to its declared width, for the formats narrower than 4 bytes, decodes to the magnitude
with the sign lost. -/
def Obligations.CutStringLosesTheSign : Prop :=
  ∀ (fmt : BitVec 4) (f : Format) (s : State), formatOf fmt = some f → f.width < 4 → ValidFor s.fval f →
    ∃ t u, exec (.floatToBcd true fmt) s = .next t ∧ exec (.bcdToFloat true t.nlenDeclared fmt) t = .next u ∧
      u.statErr = 0x00 ∧ u.statNeg = false ∧ u.result.toNat = scaledValue s.fval f.d

/-! ### Time -/

/-- R172, R170, R171. -/
def Obligations.TimeToBcdResult : Prop :=
  ∀ (le : Bool) (s : State),
    encode (.timeToBcd le) = BitVec.ofNat 32 (0x17 + 2 ^ 8 * le.toNat) ∧
    (s.tMonth.toNat > 99 ∨ s.tDay.toNat > 99 ∨ s.tHour.toNat > 99 ∨ s.tMin.toNat > 99 →
      exec (.timeToBcd le) s =
        .next { s with nbuf := nbufOf [], nlenProduced := 0, nlenDeclared := 0, statErr := 0x23, statSticky := true }) ∧
    (s.tMonth.toNat ≤ 99 → s.tDay.toNat ≤ 99 → s.tHour.toNat ≤ 99 → s.tMin.toNat ≤ 99 →
      exec (.timeToBcd le) s =
        .next { s with
          nbuf := nbufOf (revIf le ([s.tYear.toNat % 100, s.tMonth.toNat, s.tDay.toNat, s.tHour.toNat, s.tMin.toNat].map
            fun x => BitVec.ofNat 8 (16 * (x / 10) + x % 10)))
          nlenProduced := 5, nlenDeclared := 5, statErr := 0x00 })

/-- R173. -/
def Obligations.BcdToTimeResult : Prop :=
  ∀ (le : Bool) (s : State) (yy mm dd hh mi : BitVec 8), [yy, mm, dd, hh, mi] = revIf le (s.nbuf.toList.take 5) →
    encode (.bcdToTime le) = BitVec.ofNat 32 (0x18 + 2 ^ 8 * le.toNat) ∧
    (¬ (∀ b ∈ [yy, mm, dd, hh, mi], IsBcdByte b) →
      exec (.bcdToTime le) s =
        .next { s with tYear := 0, tMonth := 0, tDay := 0, tHour := 0, tMin := 0, statErr := 0x20, statSticky := true }) ∧
    ((∀ b ∈ [yy, mm, dd, hh, mi], IsBcdByte b) →
      exec (.bcdToTime le) s =
        .next { s with
          tYear := BitVec.ofNat 16 (2000 + bcdSum [yy]), tMonth := BitVec.ofNat 8 (bcdSum [mm])
          tDay := BitVec.ofNat 8 (bcdSum [dd]), tHour := BitVec.ofNat 8 (bcdSum [hh]), tMin := BitVec.ofNat 8 (bcdSum [mi])
          statErr := 0x00 })

/-- R174. -/
def Obligations.TimeRoundTrip : Prop :=
  ∀ (le : Bool) (s : State), s.tMonth.toNat ≤ 99 → s.tDay.toNat ≤ 99 → s.tHour.toNat ≤ 99 → s.tMin.toNat ≤ 99 →
    ∃ t u, exec (.timeToBcd le) s = .next t ∧ exec (.bcdToTime le) t = .next u ∧ u.statErr = 0x00 ∧
      u.tYear.toNat = 2000 + s.tYear.toNat % 100 ∧ u.tMonth = s.tMonth ∧ u.tDay = s.tDay ∧ u.tHour = s.tHour ∧
      u.tMin = s.tMin

/-! ### The frame codec -/

/-- R191, R192, R193: what every byte of WIRE[0..16+L) is, what else changes, and that every other RAM byte stays. -/
def Obligations.FrameBuildResult : Prop :=
  encode .frameBuild = 0x00000001 ∧
  ∀ (s : State) (l : Nat), l = s.dlen.toNat →
    ∃ t, exec .frameBuild s = .next t ∧
      t = { s with wireLen := BitVec.ofNat 11 (16 + l), frameOff := 4, frameLen := BitVec.ofNat 9 (12 + l), statErr := 0x00,
                   mem := t.mem } ∧
      (∀ k < 4, t.wireByte k = 0xFE) ∧ t.wireByte 4 = 0x68 ∧ (∀ k : Fin 6, t.wireByte (5 + k) = s.addr[k]) ∧
      t.wireByte 11 = 0x68 ∧ t.wireByte 12 = s.ctrl ∧ t.wireByte 13 = BitVec.ofNat 8 l ∧
      (∀ i < l, t.wireByte (14 + i) = BitVec.ofNat 8 ((s.dataByte i).toNat + 0x33)) ∧
      t.wireByte (14 + l) = sum256 t.wireByte 4 (14 + l) ∧ t.wireByte (15 + l) = 0x16 ∧
      ∀ a, (a < 0x400 ∨ 0x400 + 16 + l ≤ a) → t.ramByte a = s.ramByte a

/-- R195, R194, R196: the checks in order, the code of the first that fails, and what a frame that passes them all leaves. -/
def Obligations.FrameParseResult : Prop :=
  encode .frameParse = 0x00000002 ∧
  ∀ (s : State) (n : Nat), n = s.wireLen.toNat →
    (n > 1024 → exec .frameParse s = .next { s with statFv := false, statErr := 0x02, statSticky := true }) ∧
    (n ≤ 1024 → (∀ i < n, s.wireByte i ≠ 0x68) →
      exec .frameParse s = .next { s with statFv := false, statErr := 0x10, statSticky := true }) ∧
    ∀ (p l : Nat), n ≤ 1024 → LeastStart s n p → l = (s.wireByte (p + 9)).toNat →
      (n - (p + 1) < 11 → exec .frameParse s = .next { s with statFv := false, statErr := 0x11, statSticky := true }) ∧
      (11 ≤ n - (p + 1) → s.wireByte (p + 7) ≠ 0x68 →
        exec .frameParse s = .next { s with statFv := false, statErr := 0x12, statSticky := true }) ∧
      (11 ≤ n - (p + 1) → s.wireByte (p + 7) = 0x68 → p + 12 + l > n →
        exec .frameParse s = .next { s with statFv := false, statErr := 0x13, statSticky := true }) ∧
      (11 ≤ n - (p + 1) → s.wireByte (p + 7) = 0x68 → p + 12 + l ≤ n →
        sum256 s.wireByte p (p + 10 + l) ≠ s.wireByte (p + 10 + l) →
        exec .frameParse s = .next { s with statFv := false, statErr := 0x14, statSticky := true }) ∧
      (11 ≤ n - (p + 1) → s.wireByte (p + 7) = 0x68 → p + 12 + l ≤ n →
        sum256 s.wireByte p (p + 10 + l) = s.wireByte (p + 10 + l) → s.wireByte (p + 11 + l) ≠ 0x16 →
        exec .frameParse s = .next { s with statFv := false, statErr := 0x15, statSticky := true }) ∧
      (11 ≤ n - (p + 1) → s.wireByte (p + 7) = 0x68 → p + 12 + l ≤ n →
        sum256 s.wireByte p (p + 10 + l) = s.wireByte (p + 10 + l) → s.wireByte (p + 11 + l) = 0x16 →
        ∃ t, exec .frameParse s = .next t ∧
          t = { s with addr := Vector.ofFn fun k : Fin 6 => s.wireByte (p + 1 + k), ctrl := s.wireByte (p + 8),
                       dlen := s.wireByte (p + 9), frameOff := BitVec.ofNat 11 p, frameLen := BitVec.ofNat 9 (12 + l),
                       statFv := true, statErr := 0x00, mem := t.mem } ∧
          (∀ i < l, t.dataByte i = BitVec.ofNat 8 ((s.wireByte (p + 10 + i)).toNat + 256 - 0x33)) ∧
          ∀ a, (a < 0x100 ∨ 0x100 + l ≤ a) → t.ramByte a = s.ramByte a)

/-- R257: a FRAME_PARSE that fails, for whatever reason, clears FV and leaves every frame register and every RAM byte. -/
def Obligations.FailedParseExposesNothing : Prop :=
  ∀ s : State, ∃ t, exec .frameParse s = .next t ∧
    (t.statErr ≠ 0x00 →
      t = { s with statFv := false, statErr := t.statErr, statSticky := true } ∧ ∀ a, t.ramByte a = s.ramByte a)

/-- R200: parsing what FRAME_BUILD left in WIRE, whatever has happened to the other registers and to DATA since, gives the frame
back. -/
def Obligations.FrameRoundTrip : Prop :=
  ∀ s : State, ∃ t, exec .frameBuild s = .next t ∧
    ∀ t' : State, t'.wireLen = t.wireLen → (∀ i < 1024, t'.wireByte i = t.wireByte i) →
      ∃ u, exec .frameParse t' = .next u ∧ u.statErr = 0x00 ∧ u.statFv = true ∧ u.frameOff = 4 ∧
        u.addr = s.addr ∧ u.ctrl = s.ctrl ∧ u.dlen = s.dlen ∧ ∀ i < s.dlen.toNat, u.dataByte i = s.dataByte i

/-- R197, R198: a successful parse depends on the frame's own bytes alone, not on what precedes the first 0x68, nor on how much
does, nor on what follows the end marker. -/
def Obligations.ParseIgnoresNoiseAndTrailingBytes : Prop :=
  ∀ (s s' t : State) (p' : Nat), exec .frameParse s = .next t → t.statErr = 0x00 → s'.wireLen.toNat ≤ 1024 →
    LeastStart s' s'.wireLen.toNat p' → p' + t.frameLen.toNat ≤ s'.wireLen.toNat →
    (∀ i < t.frameLen.toNat, s'.wireByte (p' + i) = s.wireByte (t.frameOff.toNat + i)) →
    ∃ t', exec .frameParse s' = .next t' ∧ t'.statErr = 0x00 ∧ t'.frameOff.toNat = p' ∧ t'.frameLen = t.frameLen ∧
      t'.addr = t.addr ∧ t'.ctrl = t.ctrl ∧ t'.dlen = t.dlen ∧ ∀ i < t.dlen.toNat, t'.dataByte i = t.dataByte i

/-- R204: one flipped bit in a frame that parses. `j` is the flipped byte's offset in the frame, `k` the bit. -/
def Obligations.SingleBitFlipIsDetected : Prop :=
  ∀ (s s' t : State) (j k l : Nat), exec .frameParse s = .next t → t.statErr = 0x00 → l = t.dlen.toNat → k < 8 →
    s'.wireLen = s.wireLen →
    s'.wireByte (t.frameOff.toNat + j) = s.wireByte (t.frameOff.toNat + j) ^^^ BitVec.ofNat 8 (2 ^ k) →
    (∀ i, i ≠ t.frameOff.toNat + j → s'.wireByte i = s.wireByte i) →
    ∃ u, exec .frameParse s' = .next u ∧
      ((1 ≤ j ∧ j ≤ 6) ∨ j = 8 ∨ (10 ≤ j ∧ j ≤ 10 + l) → u.statErr = 0x14) ∧
      (j = 7 → u.statErr = 0x12) ∧ (j = 11 + l → u.statErr = 0x15)

/-- R284, R288: FRAME_BUILD reads exactly ADDR, CTRL, DLEN and DATA[0..DLEN): two states that agree there build the same bytes. -/
def Obligations.FrameBuildReadsOnlyItsOperands : Prop :=
  ∀ s s' : State, s'.addr = s.addr → s'.ctrl = s.ctrl → s'.dlen = s.dlen →
    (∀ i < s.dlen.toNat, s'.dataByte i = s.dataByte i) →
    ∃ t t', exec .frameBuild s = .next t ∧ exec .frameBuild s' = .next t' ∧ t'.wireLen = t.wireLen ∧
      t'.frameOff = t.frameOff ∧ t'.frameLen = t.frameLen ∧ ∀ i < 16 + s.dlen.toNat, t'.wireByte i = t.wireByte i

/-- R201, R202. -/
def Obligations.DomainCommandsTransformInPlace : Prop :=
  encode .domainEncode = 0x00000005 ∧ encode .domainDecode = 0x00000006 ∧
  ∀ (s : State) (l : Nat), l = s.dlen.toNat →
    (∃ t, exec .domainEncode s = .next t ∧ t = { s with statErr := 0x00, mem := t.mem } ∧
      (∀ i < l, t.dataByte i = BitVec.ofNat 8 ((s.dataByte i).toNat + 0x33)) ∧
      ∀ a, (a < 0x100 ∨ 0x100 + l ≤ a) → t.ramByte a = s.ramByte a) ∧
    (∃ t, exec .domainDecode s = .next t ∧ t = { s with statErr := 0x00, mem := t.mem } ∧
      (∀ i < l, t.dataByte i = BitVec.ofNat 8 ((s.dataByte i).toNat + 256 - 0x33)) ∧
      ∀ a, (a < 0x100 ∨ 0x100 + l ≤ a) → t.ramByte a = s.ramByte a)

/-- R190, R202: the byte transform is addition modulo 256 and its two directions are inverse, and so DOMAIN_ENCODE then
DOMAIN_DECODE, and the other way round, leave every RAM byte as it was. -/
def Obligations.DomainTransformIsInverse : Prop :=
  (∀ b : BitVec 8, (enc33 b).toNat = (b.toNat + 0x33) % 256 ∧ (dec33 b).toNat = (b.toNat + 256 - 0x33) % 256 ∧
    dec33 (enc33 b) = b ∧ enc33 (dec33 b) = b) ∧
  ∀ s : State,
    (∃ t u, exec .domainEncode s = .next t ∧ exec .domainDecode t = .next u ∧ ∀ a, u.ramByte a = s.ramByte a) ∧
    (∃ t u, exec .domainDecode s = .next t ∧ exec .domainEncode t = .next u ∧ ∀ a, u.ramByte a = s.ramByte a)

/-! ### The address filter -/

/-- R230, R231, R89: equality over all six bytes with the configured address and the aliases. -/
def Obligations.AddressFilters : Prop :=
  encode .addrMatchSrv = 0x00000003 ∧ encode .addrMatchCli = 0x00000004 ∧
  ∀ s : State,
    (∃ t, exec .addrMatchSrv s = .next t ∧ t = { s with statMatch := t.statMatch, statErr := 0x00 } ∧
      (t.statMatch = true ↔ ((∀ k : Fin 6, s.addr[k] = s.myAddr[k]) ∨ (∀ k : Fin 6, s.addr[k] = 0xAA) ∨
        ∀ k : Fin 6, s.addr[k] = 0x99))) ∧
    (∃ t, exec .addrMatchCli s = .next t ∧ t = { s with statMatch := t.statMatch, statErr := 0x00 } ∧
      (t.statMatch = true ↔ ((∀ k : Fin 6, s.addr[k] = s.myAddr[k]) ∨ ∀ k : Fin 6, s.addr[k] = 0x99)))

/-! ### The whole machine -/

/-- R259: no error stops, hangs or resets the block: every step of every state answers a next state. R14, R268: with no event
at the port the step is idle and changes nothing. -/
def Obligations.NoStepStops : Prop :=
  ∀ s : State, (∃ t, step s = .next t) ∧ (s.port = [] → step s = .next s)

/-- R250, R254, R255: every command ends, with an ERR of the table and, once decoded, one whose "raised by" column names the
command; one that fails sets STICKY, one that succeeds leaves it. -/
def Obligations.EveryCommandReportsInErrAndSticky : Prop :=
  ∀ (i : Instr) (s : State), ∃ t, exec i s = .next t ∧ t.statErr ∈ errValues ∧
    (WellFormed i = true → t.statErr ∈ errorsOf i.op) ∧
    (t.statErr = 0x00 → t.statSticky = s.statSticky) ∧ (t.statErr ≠ 0x00 → t.statSticky = true)

/-- R82 and R83 as the model reads them (assumption log 5): a command with an illegal NB or FMT operand, which no word decodes
to (R85), reports E_BAD_FIELD and does nothing else, as R258 says of the word. -/
def Obligations.IllegalOperandsReportBadField : Prop :=
  ∀ (i : Instr) (s : State), WellFormed i = false → exec i s = .next { s with statErr := 0x02, statSticky := true }

/-- R255: a CMD write that ends with ERR other than 0 sets STICKY; no step but a reset clears it, and a reset does. -/
def Obligations.OnlyResetClearsSticky : Prop :=
  ∀ s t : State, step s = .next t →
    (∀ w rest, s.port = .write 0x000 w :: rest → t.statErr ≠ 0x00 → t.statSticky = true) ∧
    (s.statSticky = true → t.statSticky = true ∨ ∃ rest, s.port = .reset :: rest) ∧
    (∀ rest, s.port = .reset :: rest → t.statSticky = false)

/-- R23: the fields of STATUS that a command does not write stay: MATCH, FV and NEG have the writers the table names. -/
def Obligations.StatusFieldWriters : Prop :=
  ∀ (i : Instr) (s : State), ∃ t, exec i s = .next t ∧
    (i.op ∉ [Op.addrMatchSrv, .addrMatchCli, .valueValid] → t.statMatch = s.statMatch) ∧
    (i.op ≠ .frameParse → t.statFv = s.statFv) ∧
    (i.op ≠ .bcdToFloat → t.statNeg = s.statNeg)

/-- R20: the "written by commands" column, for every register and both RAMs, and that a command leaves the host's port lists and
the draw's number. -/
def Obligations.CommandsWriteOnlyTheirRegisters : Prop :=
  ∀ (i : Instr) (s : State), ∃ t, exec i s = .next t ∧
    t.cmd = s.cmd ∧ t.myAddr = s.myAddr ∧ t.opa = s.opa ∧
    t.port = s.port ∧ t.responses = s.responses ∧ t.resets = s.resets ∧
    (i.op ≠ .frameBuild → t.wireLen = s.wireLen) ∧
    (i.op ∉ [Op.frameBuild, .frameParse] → t.frameOff = s.frameOff ∧ t.frameLen = s.frameLen) ∧
    (i.op ≠ .frameParse → t.addr = s.addr ∧ t.ctrl = s.ctrl ∧ t.dlen = s.dlen) ∧
    (i.op ∉ [Op.intToBcd, .floatToBcd, .timeToBcd, .u32ToLe4] →
      t.nbuf = s.nbuf ∧ t.nlenProduced = s.nlenProduced ∧ t.nlenDeclared = s.nlenDeclared) ∧
    (i.op ∉ [Op.bcd8ToBin, .binToBcd8, .bcdToInt, .le4ToU32, .bcdToFloat] → t.result = s.result) ∧
    (i.op ≠ .bcdToFloat → t.fval = s.fval) ∧
    (i.op ≠ .bcdToTime →
      t.tYear = s.tYear ∧ t.tMonth = s.tMonth ∧ t.tDay = s.tDay ∧ t.tHour = s.tHour ∧ t.tMin = s.tMin) ∧
    (i.op ∉ [Op.frameParse, .domainEncode, .domainDecode] → ∀ k < 255, t.dataByte k = s.dataByte k) ∧
    (i.op ≠ .frameBuild → ∀ k < 1024, t.wireByte k = s.wireByte k) ∧
    (i.op ∉ [Op.frameBuild, .frameParse, .domainEncode, .domainDecode] → ∀ a, t.ramByte a = s.ramByte a)

/-- The invariant of Safety.lean holds after reset. -/
def Obligations.InvariantAtReset : Prop := State.reset.Inv

/-- Every step keeps the invariant, from every state that has it. -/
def Obligations.InvariantKeptByStep : Prop :=
  ∀ s t : State, s.Inv → step s = .next t → t.Inv
end

