-- ==== Sys2Proof/Laws/State.lean ====
section
/-! SUPPORT. One lemma per field per named update of State: what each field is after it. All by rfl, so that no later proof
unfolds a record update. -/

namespace Sys2Proof.Machine

variable (s : State)

/-! ### withOk -/

@[simp] theorem State.withOk_cmd : (s.withOk).cmd = s.cmd := rfl
@[simp] theorem State.withOk_statErr : (s.withOk).statErr = 0x00 := rfl
@[simp] theorem State.withOk_statMatch : (s.withOk).statMatch = s.statMatch := rfl
@[simp] theorem State.withOk_statFv : (s.withOk).statFv = s.statFv := rfl
@[simp] theorem State.withOk_statNeg : (s.withOk).statNeg = s.statNeg := rfl
@[simp] theorem State.withOk_statSticky : (s.withOk).statSticky = s.statSticky := rfl
@[simp] theorem State.withOk_wireLen : (s.withOk).wireLen = s.wireLen := rfl
@[simp] theorem State.withOk_frameOff : (s.withOk).frameOff = s.frameOff := rfl
@[simp] theorem State.withOk_frameLen : (s.withOk).frameLen = s.frameLen := rfl
@[simp] theorem State.withOk_ctrl : (s.withOk).ctrl = s.ctrl := rfl
@[simp] theorem State.withOk_dlen : (s.withOk).dlen = s.dlen := rfl
@[simp] theorem State.withOk_nlenProduced : (s.withOk).nlenProduced = s.nlenProduced := rfl
@[simp] theorem State.withOk_nlenDeclared : (s.withOk).nlenDeclared = s.nlenDeclared := rfl
@[simp] theorem State.withOk_addr : (s.withOk).addr = s.addr := rfl
@[simp] theorem State.withOk_myAddr : (s.withOk).myAddr = s.myAddr := rfl
@[simp] theorem State.withOk_opa : (s.withOk).opa = s.opa := rfl
@[simp] theorem State.withOk_result : (s.withOk).result = s.result := rfl
@[simp] theorem State.withOk_fval : (s.withOk).fval = s.fval := rfl
@[simp] theorem State.withOk_tYear : (s.withOk).tYear = s.tYear := rfl
@[simp] theorem State.withOk_tMonth : (s.withOk).tMonth = s.tMonth := rfl
@[simp] theorem State.withOk_tDay : (s.withOk).tDay = s.tDay := rfl
@[simp] theorem State.withOk_tHour : (s.withOk).tHour = s.tHour := rfl
@[simp] theorem State.withOk_tMin : (s.withOk).tMin = s.tMin := rfl
@[simp] theorem State.withOk_nbuf : (s.withOk).nbuf = s.nbuf := rfl
@[simp] theorem State.withOk_mem : (s.withOk).mem = s.mem := rfl
@[simp] theorem State.withOk_resets : (s.withOk).resets = s.resets := rfl
@[simp] theorem State.withOk_port : (s.withOk).port = s.port := rfl
@[simp] theorem State.withOk_responses : (s.withOk).responses = s.responses := rfl

/-! ### withError -/

@[simp] theorem State.withError_cmd (e : ErrCode) : (s.withError e).cmd = s.cmd := rfl
@[simp] theorem State.withError_statErr (e : ErrCode) : (s.withError e).statErr = e.code := rfl
@[simp] theorem State.withError_statMatch (e : ErrCode) : (s.withError e).statMatch = s.statMatch := rfl
@[simp] theorem State.withError_statFv (e : ErrCode) : (s.withError e).statFv = s.statFv := rfl
@[simp] theorem State.withError_statNeg (e : ErrCode) : (s.withError e).statNeg = s.statNeg := rfl
@[simp] theorem State.withError_statSticky (e : ErrCode) : (s.withError e).statSticky = true := rfl
@[simp] theorem State.withError_wireLen (e : ErrCode) : (s.withError e).wireLen = s.wireLen := rfl
@[simp] theorem State.withError_frameOff (e : ErrCode) : (s.withError e).frameOff = s.frameOff := rfl
@[simp] theorem State.withError_frameLen (e : ErrCode) : (s.withError e).frameLen = s.frameLen := rfl
@[simp] theorem State.withError_ctrl (e : ErrCode) : (s.withError e).ctrl = s.ctrl := rfl
@[simp] theorem State.withError_dlen (e : ErrCode) : (s.withError e).dlen = s.dlen := rfl
@[simp] theorem State.withError_nlenProduced (e : ErrCode) : (s.withError e).nlenProduced = s.nlenProduced := rfl
@[simp] theorem State.withError_nlenDeclared (e : ErrCode) : (s.withError e).nlenDeclared = s.nlenDeclared := rfl
@[simp] theorem State.withError_addr (e : ErrCode) : (s.withError e).addr = s.addr := rfl
@[simp] theorem State.withError_myAddr (e : ErrCode) : (s.withError e).myAddr = s.myAddr := rfl
@[simp] theorem State.withError_opa (e : ErrCode) : (s.withError e).opa = s.opa := rfl
@[simp] theorem State.withError_result (e : ErrCode) : (s.withError e).result = s.result := rfl
@[simp] theorem State.withError_fval (e : ErrCode) : (s.withError e).fval = s.fval := rfl
@[simp] theorem State.withError_tYear (e : ErrCode) : (s.withError e).tYear = s.tYear := rfl
@[simp] theorem State.withError_tMonth (e : ErrCode) : (s.withError e).tMonth = s.tMonth := rfl
@[simp] theorem State.withError_tDay (e : ErrCode) : (s.withError e).tDay = s.tDay := rfl
@[simp] theorem State.withError_tHour (e : ErrCode) : (s.withError e).tHour = s.tHour := rfl
@[simp] theorem State.withError_tMin (e : ErrCode) : (s.withError e).tMin = s.tMin := rfl
@[simp] theorem State.withError_nbuf (e : ErrCode) : (s.withError e).nbuf = s.nbuf := rfl
@[simp] theorem State.withError_mem (e : ErrCode) : (s.withError e).mem = s.mem := rfl
@[simp] theorem State.withError_resets (e : ErrCode) : (s.withError e).resets = s.resets := rfl
@[simp] theorem State.withError_port (e : ErrCode) : (s.withError e).port = s.port := rfl
@[simp] theorem State.withError_responses (e : ErrCode) : (s.withError e).responses = s.responses := rfl

/-! ### setMatch -/

@[simp] theorem State.setMatch_cmd (b : Bool) : (s.setMatch b).cmd = s.cmd := rfl
@[simp] theorem State.setMatch_statErr (b : Bool) : (s.setMatch b).statErr = s.statErr := rfl
@[simp] theorem State.setMatch_statMatch (b : Bool) : (s.setMatch b).statMatch = b := rfl
@[simp] theorem State.setMatch_statFv (b : Bool) : (s.setMatch b).statFv = s.statFv := rfl
@[simp] theorem State.setMatch_statNeg (b : Bool) : (s.setMatch b).statNeg = s.statNeg := rfl
@[simp] theorem State.setMatch_statSticky (b : Bool) : (s.setMatch b).statSticky = s.statSticky := rfl
@[simp] theorem State.setMatch_wireLen (b : Bool) : (s.setMatch b).wireLen = s.wireLen := rfl
@[simp] theorem State.setMatch_frameOff (b : Bool) : (s.setMatch b).frameOff = s.frameOff := rfl
@[simp] theorem State.setMatch_frameLen (b : Bool) : (s.setMatch b).frameLen = s.frameLen := rfl
@[simp] theorem State.setMatch_ctrl (b : Bool) : (s.setMatch b).ctrl = s.ctrl := rfl
@[simp] theorem State.setMatch_dlen (b : Bool) : (s.setMatch b).dlen = s.dlen := rfl
@[simp] theorem State.setMatch_nlenProduced (b : Bool) : (s.setMatch b).nlenProduced = s.nlenProduced := rfl
@[simp] theorem State.setMatch_nlenDeclared (b : Bool) : (s.setMatch b).nlenDeclared = s.nlenDeclared := rfl
@[simp] theorem State.setMatch_addr (b : Bool) : (s.setMatch b).addr = s.addr := rfl
@[simp] theorem State.setMatch_myAddr (b : Bool) : (s.setMatch b).myAddr = s.myAddr := rfl
@[simp] theorem State.setMatch_opa (b : Bool) : (s.setMatch b).opa = s.opa := rfl
@[simp] theorem State.setMatch_result (b : Bool) : (s.setMatch b).result = s.result := rfl
@[simp] theorem State.setMatch_fval (b : Bool) : (s.setMatch b).fval = s.fval := rfl
@[simp] theorem State.setMatch_tYear (b : Bool) : (s.setMatch b).tYear = s.tYear := rfl
@[simp] theorem State.setMatch_tMonth (b : Bool) : (s.setMatch b).tMonth = s.tMonth := rfl
@[simp] theorem State.setMatch_tDay (b : Bool) : (s.setMatch b).tDay = s.tDay := rfl
@[simp] theorem State.setMatch_tHour (b : Bool) : (s.setMatch b).tHour = s.tHour := rfl
@[simp] theorem State.setMatch_tMin (b : Bool) : (s.setMatch b).tMin = s.tMin := rfl
@[simp] theorem State.setMatch_nbuf (b : Bool) : (s.setMatch b).nbuf = s.nbuf := rfl
@[simp] theorem State.setMatch_mem (b : Bool) : (s.setMatch b).mem = s.mem := rfl
@[simp] theorem State.setMatch_resets (b : Bool) : (s.setMatch b).resets = s.resets := rfl
@[simp] theorem State.setMatch_port (b : Bool) : (s.setMatch b).port = s.port := rfl
@[simp] theorem State.setMatch_responses (b : Bool) : (s.setMatch b).responses = s.responses := rfl

/-! ### setFv -/

@[simp] theorem State.setFv_cmd (b : Bool) : (s.setFv b).cmd = s.cmd := rfl
@[simp] theorem State.setFv_statErr (b : Bool) : (s.setFv b).statErr = s.statErr := rfl
@[simp] theorem State.setFv_statMatch (b : Bool) : (s.setFv b).statMatch = s.statMatch := rfl
@[simp] theorem State.setFv_statFv (b : Bool) : (s.setFv b).statFv = b := rfl
@[simp] theorem State.setFv_statNeg (b : Bool) : (s.setFv b).statNeg = s.statNeg := rfl
@[simp] theorem State.setFv_statSticky (b : Bool) : (s.setFv b).statSticky = s.statSticky := rfl
@[simp] theorem State.setFv_wireLen (b : Bool) : (s.setFv b).wireLen = s.wireLen := rfl
@[simp] theorem State.setFv_frameOff (b : Bool) : (s.setFv b).frameOff = s.frameOff := rfl
@[simp] theorem State.setFv_frameLen (b : Bool) : (s.setFv b).frameLen = s.frameLen := rfl
@[simp] theorem State.setFv_ctrl (b : Bool) : (s.setFv b).ctrl = s.ctrl := rfl
@[simp] theorem State.setFv_dlen (b : Bool) : (s.setFv b).dlen = s.dlen := rfl
@[simp] theorem State.setFv_nlenProduced (b : Bool) : (s.setFv b).nlenProduced = s.nlenProduced := rfl
@[simp] theorem State.setFv_nlenDeclared (b : Bool) : (s.setFv b).nlenDeclared = s.nlenDeclared := rfl
@[simp] theorem State.setFv_addr (b : Bool) : (s.setFv b).addr = s.addr := rfl
@[simp] theorem State.setFv_myAddr (b : Bool) : (s.setFv b).myAddr = s.myAddr := rfl
@[simp] theorem State.setFv_opa (b : Bool) : (s.setFv b).opa = s.opa := rfl
@[simp] theorem State.setFv_result (b : Bool) : (s.setFv b).result = s.result := rfl
@[simp] theorem State.setFv_fval (b : Bool) : (s.setFv b).fval = s.fval := rfl
@[simp] theorem State.setFv_tYear (b : Bool) : (s.setFv b).tYear = s.tYear := rfl
@[simp] theorem State.setFv_tMonth (b : Bool) : (s.setFv b).tMonth = s.tMonth := rfl
@[simp] theorem State.setFv_tDay (b : Bool) : (s.setFv b).tDay = s.tDay := rfl
@[simp] theorem State.setFv_tHour (b : Bool) : (s.setFv b).tHour = s.tHour := rfl
@[simp] theorem State.setFv_tMin (b : Bool) : (s.setFv b).tMin = s.tMin := rfl
@[simp] theorem State.setFv_nbuf (b : Bool) : (s.setFv b).nbuf = s.nbuf := rfl
@[simp] theorem State.setFv_mem (b : Bool) : (s.setFv b).mem = s.mem := rfl
@[simp] theorem State.setFv_resets (b : Bool) : (s.setFv b).resets = s.resets := rfl
@[simp] theorem State.setFv_port (b : Bool) : (s.setFv b).port = s.port := rfl
@[simp] theorem State.setFv_responses (b : Bool) : (s.setFv b).responses = s.responses := rfl

/-! ### setNeg -/

@[simp] theorem State.setNeg_cmd (b : Bool) : (s.setNeg b).cmd = s.cmd := rfl
@[simp] theorem State.setNeg_statErr (b : Bool) : (s.setNeg b).statErr = s.statErr := rfl
@[simp] theorem State.setNeg_statMatch (b : Bool) : (s.setNeg b).statMatch = s.statMatch := rfl
@[simp] theorem State.setNeg_statFv (b : Bool) : (s.setNeg b).statFv = s.statFv := rfl
@[simp] theorem State.setNeg_statNeg (b : Bool) : (s.setNeg b).statNeg = b := rfl
@[simp] theorem State.setNeg_statSticky (b : Bool) : (s.setNeg b).statSticky = s.statSticky := rfl
@[simp] theorem State.setNeg_wireLen (b : Bool) : (s.setNeg b).wireLen = s.wireLen := rfl
@[simp] theorem State.setNeg_frameOff (b : Bool) : (s.setNeg b).frameOff = s.frameOff := rfl
@[simp] theorem State.setNeg_frameLen (b : Bool) : (s.setNeg b).frameLen = s.frameLen := rfl
@[simp] theorem State.setNeg_ctrl (b : Bool) : (s.setNeg b).ctrl = s.ctrl := rfl
@[simp] theorem State.setNeg_dlen (b : Bool) : (s.setNeg b).dlen = s.dlen := rfl
@[simp] theorem State.setNeg_nlenProduced (b : Bool) : (s.setNeg b).nlenProduced = s.nlenProduced := rfl
@[simp] theorem State.setNeg_nlenDeclared (b : Bool) : (s.setNeg b).nlenDeclared = s.nlenDeclared := rfl
@[simp] theorem State.setNeg_addr (b : Bool) : (s.setNeg b).addr = s.addr := rfl
@[simp] theorem State.setNeg_myAddr (b : Bool) : (s.setNeg b).myAddr = s.myAddr := rfl
@[simp] theorem State.setNeg_opa (b : Bool) : (s.setNeg b).opa = s.opa := rfl
@[simp] theorem State.setNeg_result (b : Bool) : (s.setNeg b).result = s.result := rfl
@[simp] theorem State.setNeg_fval (b : Bool) : (s.setNeg b).fval = s.fval := rfl
@[simp] theorem State.setNeg_tYear (b : Bool) : (s.setNeg b).tYear = s.tYear := rfl
@[simp] theorem State.setNeg_tMonth (b : Bool) : (s.setNeg b).tMonth = s.tMonth := rfl
@[simp] theorem State.setNeg_tDay (b : Bool) : (s.setNeg b).tDay = s.tDay := rfl
@[simp] theorem State.setNeg_tHour (b : Bool) : (s.setNeg b).tHour = s.tHour := rfl
@[simp] theorem State.setNeg_tMin (b : Bool) : (s.setNeg b).tMin = s.tMin := rfl
@[simp] theorem State.setNeg_nbuf (b : Bool) : (s.setNeg b).nbuf = s.nbuf := rfl
@[simp] theorem State.setNeg_mem (b : Bool) : (s.setNeg b).mem = s.mem := rfl
@[simp] theorem State.setNeg_resets (b : Bool) : (s.setNeg b).resets = s.resets := rfl
@[simp] theorem State.setNeg_port (b : Bool) : (s.setNeg b).port = s.port := rfl
@[simp] theorem State.setNeg_responses (b : Bool) : (s.setNeg b).responses = s.responses := rfl

/-! ### setNbuf -/

@[simp] theorem State.setNbuf_cmd (bs : List (BitVec 8)) (n : Nat) : (s.setNbuf bs n).cmd = s.cmd := rfl
@[simp] theorem State.setNbuf_statErr (bs : List (BitVec 8)) (n : Nat) : (s.setNbuf bs n).statErr = s.statErr := rfl
@[simp] theorem State.setNbuf_statMatch (bs : List (BitVec 8)) (n : Nat) : (s.setNbuf bs n).statMatch = s.statMatch := rfl
@[simp] theorem State.setNbuf_statFv (bs : List (BitVec 8)) (n : Nat) : (s.setNbuf bs n).statFv = s.statFv := rfl
@[simp] theorem State.setNbuf_statNeg (bs : List (BitVec 8)) (n : Nat) : (s.setNbuf bs n).statNeg = s.statNeg := rfl
@[simp] theorem State.setNbuf_statSticky (bs : List (BitVec 8)) (n : Nat) : (s.setNbuf bs n).statSticky = s.statSticky := rfl
@[simp] theorem State.setNbuf_wireLen (bs : List (BitVec 8)) (n : Nat) : (s.setNbuf bs n).wireLen = s.wireLen := rfl
@[simp] theorem State.setNbuf_frameOff (bs : List (BitVec 8)) (n : Nat) : (s.setNbuf bs n).frameOff = s.frameOff := rfl
@[simp] theorem State.setNbuf_frameLen (bs : List (BitVec 8)) (n : Nat) : (s.setNbuf bs n).frameLen = s.frameLen := rfl
@[simp] theorem State.setNbuf_ctrl (bs : List (BitVec 8)) (n : Nat) : (s.setNbuf bs n).ctrl = s.ctrl := rfl
@[simp] theorem State.setNbuf_dlen (bs : List (BitVec 8)) (n : Nat) : (s.setNbuf bs n).dlen = s.dlen := rfl
@[simp] theorem State.setNbuf_nlenProduced (bs : List (BitVec 8)) (n : Nat) : (s.setNbuf bs n).nlenProduced = BitVec.ofNat 4 bs.length := rfl
@[simp] theorem State.setNbuf_nlenDeclared (bs : List (BitVec 8)) (n : Nat) : (s.setNbuf bs n).nlenDeclared = BitVec.ofNat 4 n := rfl
@[simp] theorem State.setNbuf_addr (bs : List (BitVec 8)) (n : Nat) : (s.setNbuf bs n).addr = s.addr := rfl
@[simp] theorem State.setNbuf_myAddr (bs : List (BitVec 8)) (n : Nat) : (s.setNbuf bs n).myAddr = s.myAddr := rfl
@[simp] theorem State.setNbuf_opa (bs : List (BitVec 8)) (n : Nat) : (s.setNbuf bs n).opa = s.opa := rfl
@[simp] theorem State.setNbuf_result (bs : List (BitVec 8)) (n : Nat) : (s.setNbuf bs n).result = s.result := rfl
@[simp] theorem State.setNbuf_fval (bs : List (BitVec 8)) (n : Nat) : (s.setNbuf bs n).fval = s.fval := rfl
@[simp] theorem State.setNbuf_tYear (bs : List (BitVec 8)) (n : Nat) : (s.setNbuf bs n).tYear = s.tYear := rfl
@[simp] theorem State.setNbuf_tMonth (bs : List (BitVec 8)) (n : Nat) : (s.setNbuf bs n).tMonth = s.tMonth := rfl
@[simp] theorem State.setNbuf_tDay (bs : List (BitVec 8)) (n : Nat) : (s.setNbuf bs n).tDay = s.tDay := rfl
@[simp] theorem State.setNbuf_tHour (bs : List (BitVec 8)) (n : Nat) : (s.setNbuf bs n).tHour = s.tHour := rfl
@[simp] theorem State.setNbuf_tMin (bs : List (BitVec 8)) (n : Nat) : (s.setNbuf bs n).tMin = s.tMin := rfl
@[simp] theorem State.setNbuf_nbuf (bs : List (BitVec 8)) (n : Nat) : (s.setNbuf bs n).nbuf = fillNbuf bs := rfl
@[simp] theorem State.setNbuf_mem (bs : List (BitVec 8)) (n : Nat) : (s.setNbuf bs n).mem = s.mem := rfl
@[simp] theorem State.setNbuf_resets (bs : List (BitVec 8)) (n : Nat) : (s.setNbuf bs n).resets = s.resets := rfl
@[simp] theorem State.setNbuf_port (bs : List (BitVec 8)) (n : Nat) : (s.setNbuf bs n).port = s.port := rfl
@[simp] theorem State.setNbuf_responses (bs : List (BitVec 8)) (n : Nat) : (s.setNbuf bs n).responses = s.responses := rfl

/-! ### setTime -/

@[simp] theorem State.setTime_cmd (bs : List (BitVec 8)) : (s.setTime bs).cmd = s.cmd := rfl
@[simp] theorem State.setTime_statErr (bs : List (BitVec 8)) : (s.setTime bs).statErr = s.statErr := rfl
@[simp] theorem State.setTime_statMatch (bs : List (BitVec 8)) : (s.setTime bs).statMatch = s.statMatch := rfl
@[simp] theorem State.setTime_statFv (bs : List (BitVec 8)) : (s.setTime bs).statFv = s.statFv := rfl
@[simp] theorem State.setTime_statNeg (bs : List (BitVec 8)) : (s.setTime bs).statNeg = s.statNeg := rfl
@[simp] theorem State.setTime_statSticky (bs : List (BitVec 8)) : (s.setTime bs).statSticky = s.statSticky := rfl
@[simp] theorem State.setTime_wireLen (bs : List (BitVec 8)) : (s.setTime bs).wireLen = s.wireLen := rfl
@[simp] theorem State.setTime_frameOff (bs : List (BitVec 8)) : (s.setTime bs).frameOff = s.frameOff := rfl
@[simp] theorem State.setTime_frameLen (bs : List (BitVec 8)) : (s.setTime bs).frameLen = s.frameLen := rfl
@[simp] theorem State.setTime_ctrl (bs : List (BitVec 8)) : (s.setTime bs).ctrl = s.ctrl := rfl
@[simp] theorem State.setTime_dlen (bs : List (BitVec 8)) : (s.setTime bs).dlen = s.dlen := rfl
@[simp] theorem State.setTime_nlenProduced (bs : List (BitVec 8)) : (s.setTime bs).nlenProduced = s.nlenProduced := rfl
@[simp] theorem State.setTime_nlenDeclared (bs : List (BitVec 8)) : (s.setTime bs).nlenDeclared = s.nlenDeclared := rfl
@[simp] theorem State.setTime_addr (bs : List (BitVec 8)) : (s.setTime bs).addr = s.addr := rfl
@[simp] theorem State.setTime_myAddr (bs : List (BitVec 8)) : (s.setTime bs).myAddr = s.myAddr := rfl
@[simp] theorem State.setTime_opa (bs : List (BitVec 8)) : (s.setTime bs).opa = s.opa := rfl
@[simp] theorem State.setTime_result (bs : List (BitVec 8)) : (s.setTime bs).result = s.result := rfl
@[simp] theorem State.setTime_fval (bs : List (BitVec 8)) : (s.setTime bs).fval = s.fval := rfl
@[simp] theorem State.setTime_tYear (bs : List (BitVec 8)) : (s.setTime bs).tYear = BitVec.ofNat 16 (2000 + bcd8 (bs.getD 0 0)) := rfl
@[simp] theorem State.setTime_tMonth (bs : List (BitVec 8)) : (s.setTime bs).tMonth = BitVec.ofNat 8 (bcd8 (bs.getD 1 0)) := rfl
@[simp] theorem State.setTime_tDay (bs : List (BitVec 8)) : (s.setTime bs).tDay = BitVec.ofNat 8 (bcd8 (bs.getD 2 0)) := rfl
@[simp] theorem State.setTime_tHour (bs : List (BitVec 8)) : (s.setTime bs).tHour = BitVec.ofNat 8 (bcd8 (bs.getD 3 0)) := rfl
@[simp] theorem State.setTime_tMin (bs : List (BitVec 8)) : (s.setTime bs).tMin = BitVec.ofNat 8 (bcd8 (bs.getD 4 0)) := rfl
@[simp] theorem State.setTime_nbuf (bs : List (BitVec 8)) : (s.setTime bs).nbuf = s.nbuf := rfl
@[simp] theorem State.setTime_mem (bs : List (BitVec 8)) : (s.setTime bs).mem = s.mem := rfl
@[simp] theorem State.setTime_resets (bs : List (BitVec 8)) : (s.setTime bs).resets = s.resets := rfl
@[simp] theorem State.setTime_port (bs : List (BitVec 8)) : (s.setTime bs).port = s.port := rfl
@[simp] theorem State.setTime_responses (bs : List (BitVec 8)) : (s.setTime bs).responses = s.responses := rfl

/-! ### clearTime -/

@[simp] theorem State.clearTime_cmd : (s.clearTime).cmd = s.cmd := rfl
@[simp] theorem State.clearTime_statErr : (s.clearTime).statErr = s.statErr := rfl
@[simp] theorem State.clearTime_statMatch : (s.clearTime).statMatch = s.statMatch := rfl
@[simp] theorem State.clearTime_statFv : (s.clearTime).statFv = s.statFv := rfl
@[simp] theorem State.clearTime_statNeg : (s.clearTime).statNeg = s.statNeg := rfl
@[simp] theorem State.clearTime_statSticky : (s.clearTime).statSticky = s.statSticky := rfl
@[simp] theorem State.clearTime_wireLen : (s.clearTime).wireLen = s.wireLen := rfl
@[simp] theorem State.clearTime_frameOff : (s.clearTime).frameOff = s.frameOff := rfl
@[simp] theorem State.clearTime_frameLen : (s.clearTime).frameLen = s.frameLen := rfl
@[simp] theorem State.clearTime_ctrl : (s.clearTime).ctrl = s.ctrl := rfl
@[simp] theorem State.clearTime_dlen : (s.clearTime).dlen = s.dlen := rfl
@[simp] theorem State.clearTime_nlenProduced : (s.clearTime).nlenProduced = s.nlenProduced := rfl
@[simp] theorem State.clearTime_nlenDeclared : (s.clearTime).nlenDeclared = s.nlenDeclared := rfl
@[simp] theorem State.clearTime_addr : (s.clearTime).addr = s.addr := rfl
@[simp] theorem State.clearTime_myAddr : (s.clearTime).myAddr = s.myAddr := rfl
@[simp] theorem State.clearTime_opa : (s.clearTime).opa = s.opa := rfl
@[simp] theorem State.clearTime_result : (s.clearTime).result = s.result := rfl
@[simp] theorem State.clearTime_fval : (s.clearTime).fval = s.fval := rfl
@[simp] theorem State.clearTime_tYear : (s.clearTime).tYear = 0 := rfl
@[simp] theorem State.clearTime_tMonth : (s.clearTime).tMonth = 0 := rfl
@[simp] theorem State.clearTime_tDay : (s.clearTime).tDay = 0 := rfl
@[simp] theorem State.clearTime_tHour : (s.clearTime).tHour = 0 := rfl
@[simp] theorem State.clearTime_tMin : (s.clearTime).tMin = 0 := rfl
@[simp] theorem State.clearTime_nbuf : (s.clearTime).nbuf = s.nbuf := rfl
@[simp] theorem State.clearTime_mem : (s.clearTime).mem = s.mem := rfl
@[simp] theorem State.clearTime_resets : (s.clearTime).resets = s.resets := rfl
@[simp] theorem State.clearTime_port : (s.clearTime).port = s.port := rfl
@[simp] theorem State.clearTime_responses : (s.clearTime).responses = s.responses := rfl

/-! ### setRamBytes -/

@[simp] theorem State.setRamBytes_cmd (a : Nat) (bs : List (BitVec 8)) : (s.setRamBytes a bs).cmd = s.cmd := rfl
@[simp] theorem State.setRamBytes_statErr (a : Nat) (bs : List (BitVec 8)) : (s.setRamBytes a bs).statErr = s.statErr := rfl
@[simp] theorem State.setRamBytes_statMatch (a : Nat) (bs : List (BitVec 8)) : (s.setRamBytes a bs).statMatch = s.statMatch := rfl
@[simp] theorem State.setRamBytes_statFv (a : Nat) (bs : List (BitVec 8)) : (s.setRamBytes a bs).statFv = s.statFv := rfl
@[simp] theorem State.setRamBytes_statNeg (a : Nat) (bs : List (BitVec 8)) : (s.setRamBytes a bs).statNeg = s.statNeg := rfl
@[simp] theorem State.setRamBytes_statSticky (a : Nat) (bs : List (BitVec 8)) : (s.setRamBytes a bs).statSticky = s.statSticky := rfl
@[simp] theorem State.setRamBytes_wireLen (a : Nat) (bs : List (BitVec 8)) : (s.setRamBytes a bs).wireLen = s.wireLen := rfl
@[simp] theorem State.setRamBytes_frameOff (a : Nat) (bs : List (BitVec 8)) : (s.setRamBytes a bs).frameOff = s.frameOff := rfl
@[simp] theorem State.setRamBytes_frameLen (a : Nat) (bs : List (BitVec 8)) : (s.setRamBytes a bs).frameLen = s.frameLen := rfl
@[simp] theorem State.setRamBytes_ctrl (a : Nat) (bs : List (BitVec 8)) : (s.setRamBytes a bs).ctrl = s.ctrl := rfl
@[simp] theorem State.setRamBytes_dlen (a : Nat) (bs : List (BitVec 8)) : (s.setRamBytes a bs).dlen = s.dlen := rfl
@[simp] theorem State.setRamBytes_nlenProduced (a : Nat) (bs : List (BitVec 8)) : (s.setRamBytes a bs).nlenProduced = s.nlenProduced := rfl
@[simp] theorem State.setRamBytes_nlenDeclared (a : Nat) (bs : List (BitVec 8)) : (s.setRamBytes a bs).nlenDeclared = s.nlenDeclared := rfl
@[simp] theorem State.setRamBytes_addr (a : Nat) (bs : List (BitVec 8)) : (s.setRamBytes a bs).addr = s.addr := rfl
@[simp] theorem State.setRamBytes_myAddr (a : Nat) (bs : List (BitVec 8)) : (s.setRamBytes a bs).myAddr = s.myAddr := rfl
@[simp] theorem State.setRamBytes_opa (a : Nat) (bs : List (BitVec 8)) : (s.setRamBytes a bs).opa = s.opa := rfl
@[simp] theorem State.setRamBytes_result (a : Nat) (bs : List (BitVec 8)) : (s.setRamBytes a bs).result = s.result := rfl
@[simp] theorem State.setRamBytes_fval (a : Nat) (bs : List (BitVec 8)) : (s.setRamBytes a bs).fval = s.fval := rfl
@[simp] theorem State.setRamBytes_tYear (a : Nat) (bs : List (BitVec 8)) : (s.setRamBytes a bs).tYear = s.tYear := rfl
@[simp] theorem State.setRamBytes_tMonth (a : Nat) (bs : List (BitVec 8)) : (s.setRamBytes a bs).tMonth = s.tMonth := rfl
@[simp] theorem State.setRamBytes_tDay (a : Nat) (bs : List (BitVec 8)) : (s.setRamBytes a bs).tDay = s.tDay := rfl
@[simp] theorem State.setRamBytes_tHour (a : Nat) (bs : List (BitVec 8)) : (s.setRamBytes a bs).tHour = s.tHour := rfl
@[simp] theorem State.setRamBytes_tMin (a : Nat) (bs : List (BitVec 8)) : (s.setRamBytes a bs).tMin = s.tMin := rfl
@[simp] theorem State.setRamBytes_nbuf (a : Nat) (bs : List (BitVec 8)) : (s.setRamBytes a bs).nbuf = s.nbuf := rfl
@[simp] theorem State.setRamBytes_mem (a : Nat) (bs : List (BitVec 8)) : (s.setRamBytes a bs).mem = Memory.insertBytes s.mem a bs := rfl
@[simp] theorem State.setRamBytes_resets (a : Nat) (bs : List (BitVec 8)) : (s.setRamBytes a bs).resets = s.resets := rfl
@[simp] theorem State.setRamBytes_port (a : Nat) (bs : List (BitVec 8)) : (s.setRamBytes a bs).port = s.port := rfl
@[simp] theorem State.setRamBytes_responses (a : Nat) (bs : List (BitVec 8)) : (s.setRamBytes a bs).responses = s.responses := rfl

/-! ### respond -/

@[simp] theorem State.respond_cmd (r : Response) : (s.respond r).cmd = s.cmd := rfl
@[simp] theorem State.respond_statErr (r : Response) : (s.respond r).statErr = s.statErr := rfl
@[simp] theorem State.respond_statMatch (r : Response) : (s.respond r).statMatch = s.statMatch := rfl
@[simp] theorem State.respond_statFv (r : Response) : (s.respond r).statFv = s.statFv := rfl
@[simp] theorem State.respond_statNeg (r : Response) : (s.respond r).statNeg = s.statNeg := rfl
@[simp] theorem State.respond_statSticky (r : Response) : (s.respond r).statSticky = s.statSticky := rfl
@[simp] theorem State.respond_wireLen (r : Response) : (s.respond r).wireLen = s.wireLen := rfl
@[simp] theorem State.respond_frameOff (r : Response) : (s.respond r).frameOff = s.frameOff := rfl
@[simp] theorem State.respond_frameLen (r : Response) : (s.respond r).frameLen = s.frameLen := rfl
@[simp] theorem State.respond_ctrl (r : Response) : (s.respond r).ctrl = s.ctrl := rfl
@[simp] theorem State.respond_dlen (r : Response) : (s.respond r).dlen = s.dlen := rfl
@[simp] theorem State.respond_nlenProduced (r : Response) : (s.respond r).nlenProduced = s.nlenProduced := rfl
@[simp] theorem State.respond_nlenDeclared (r : Response) : (s.respond r).nlenDeclared = s.nlenDeclared := rfl
@[simp] theorem State.respond_addr (r : Response) : (s.respond r).addr = s.addr := rfl
@[simp] theorem State.respond_myAddr (r : Response) : (s.respond r).myAddr = s.myAddr := rfl
@[simp] theorem State.respond_opa (r : Response) : (s.respond r).opa = s.opa := rfl
@[simp] theorem State.respond_result (r : Response) : (s.respond r).result = s.result := rfl
@[simp] theorem State.respond_fval (r : Response) : (s.respond r).fval = s.fval := rfl
@[simp] theorem State.respond_tYear (r : Response) : (s.respond r).tYear = s.tYear := rfl
@[simp] theorem State.respond_tMonth (r : Response) : (s.respond r).tMonth = s.tMonth := rfl
@[simp] theorem State.respond_tDay (r : Response) : (s.respond r).tDay = s.tDay := rfl
@[simp] theorem State.respond_tHour (r : Response) : (s.respond r).tHour = s.tHour := rfl
@[simp] theorem State.respond_tMin (r : Response) : (s.respond r).tMin = s.tMin := rfl
@[simp] theorem State.respond_nbuf (r : Response) : (s.respond r).nbuf = s.nbuf := rfl
@[simp] theorem State.respond_mem (r : Response) : (s.respond r).mem = s.mem := rfl
@[simp] theorem State.respond_resets (r : Response) : (s.respond r).resets = s.resets := rfl
@[simp] theorem State.respond_port (r : Response) : (s.respond r).port = s.port := rfl
@[simp] theorem State.respond_responses (r : Response) : (s.respond r).responses = s.responses ++ [r] := rfl

end Sys2Proof.Machine
end

