-- ==== Sys2Proof/Laws/Bits.lean ====
section
/-! SUPPORT. Bit vectors as numbers: concatenation, words of four bytes, the lanes of a word, the command word's fields. -/

namespace Sys2Proof.Machine

/-- Concatenation as a number. -/
theorem toNat_append_eq {m n : Nat} (x : BitVec m) (y : BitVec n) : (x ++ y).toNat = x.toNat * 2 ^ n + y.toNat := by
  rw [BitVec.toNat_append, ← Nat.shiftLeft_add_eq_or_of_lt y.isLt, Nat.shiftLeft_eq]

theorem word4_toNat (b0 b1 b2 b3 : BitVec 8) :
    (word4 b0 b1 b2 b3).toNat = b0.toNat + 2 ^ 8 * b1.toNat + 2 ^ 16 * b2.toNat + 2 ^ 24 * b3.toNat := by
  simp only [word4, toNat_append_eq]; omega

/-- A word of four bytes written as the number of its bytes. -/
theorem word4_eq_ofNat (b0 b1 b2 b3 : BitVec 8) :
    word4 b0 b1 b2 b3 = BitVec.ofNat 32 (b0.toNat + 2 ^ 8 * b1.toNat + 2 ^ 16 * b2.toNat + 2 ^ 24 * b3.toNat) := by
  rw [← word4_toNat, BitVec.ofNat_toNat, BitVec.setWidth_eq]

theorem lane_toNat (v : Word) (k : Nat) : (lane v k).toNat = v.toNat / 2 ^ (8 * k) % 256 := by
  simp [lane, Nat.shiftRight_eq_div_pow]

theorem lane_eq_ofNat (v : Word) (k : Nat) : lane v k = BitVec.ofNat 8 (v.toNat / 2 ^ (8 * k)) := by
  apply BitVec.eq_of_toNat_eq; rw [lane_toNat]; simp

/-- A word is its four lanes. -/
theorem word4_lanes (v : Word) : word4 (lane v 0) (lane v 1) (lane v 2) (lane v 3) = v := by
  apply BitVec.eq_of_toNat_eq
  rw [word4_toNat]; simp only [lane_toNat]
  have := v.isLt; omega

@[simp] theorem lane_word4_zero (b0 b1 b2 b3 : BitVec 8) : lane (word4 b0 b1 b2 b3) 0 = b0 := by
  apply BitVec.eq_of_toNat_eq; rw [lane_toNat, word4_toNat]; have := b0.isLt; omega
@[simp] theorem lane_word4_one (b0 b1 b2 b3 : BitVec 8) : lane (word4 b0 b1 b2 b3) 1 = b1 := by
  apply BitVec.eq_of_toNat_eq; rw [lane_toNat, word4_toNat]; have := b0.isLt; have := b1.isLt; omega
@[simp] theorem lane_word4_two (b0 b1 b2 b3 : BitVec 8) : lane (word4 b0 b1 b2 b3) 2 = b2 := by
  apply BitVec.eq_of_toNat_eq; rw [lane_toNat, word4_toNat]
  have := b0.isLt; have := b1.isLt; have := b2.isLt; omega
@[simp] theorem lane_word4_three (b0 b1 b2 b3 : BitVec 8) : lane (word4 b0 b1 b2 b3) 3 = b3 := by
  apply BitVec.eq_of_toNat_eq; rw [lane_toNat, word4_toNat]
  have := b0.isLt; have := b1.isLt; have := b2.isLt; have := b3.isLt; omega

end Sys2Proof.Machine

namespace Sys2Proof

/-! ### The command word's fields as numbers (spec/30_encoding.md R80) -/

theorem opField_toNat (w : Word) : (opField w).toNat = w.toNat % 256 := by simp [opField]

theorem leField_eq_true (w : Word) : leField w = true ↔ w.toNat / 2 ^ 8 % 2 ≠ 0 := by
  simp [leField, BitVec.getLsbD, Nat.testBit_eq_decide_div_mod_eq]

theorem reservedLow_toNat (w : Word) : (reservedLow w).toNat = w.toNat / 2 ^ 9 % 8 := by
  simp [reservedLow, Nat.shiftRight_eq_div_pow]

theorem nbField_toNat (w : Word) : (nbField w).toNat = w.toNat / 2 ^ 12 % 16 := by
  simp [nbField, Nat.shiftRight_eq_div_pow]

theorem fmtField_toNat (w : Word) : (fmtField w).toNat = w.toNat / 2 ^ 16 % 16 := by
  simp [fmtField, Nat.shiftRight_eq_div_pow]

theorem reservedHigh_toNat (w : Word) : (reservedHigh w).toNat = w.toNat / 2 ^ 20 := by
  have := w.isLt
  simp [reservedHigh, Nat.shiftRight_eq_div_pow]; omega

/-- A packed word as a number. -/
theorem packFields_toNat (op : BitVec 8) (le : Bool) (nb fmt : BitVec 4) :
    (packFields op le nb fmt).toNat = op.toNat + 2 ^ 8 * le.toNat + 2 ^ 12 * nb.toNat + 2 ^ 16 * fmt.toNat := by
  simp only [packFields, Machine.toNat_append_eq]
  simp; omega

/-- A decoded word, check by check (spec/30_encoding.md R85). -/
theorem decode_eq_ok {w : Word} {i : Instr} (h : decode w = .ok i) :
    ∃ op, opOfCode (opField w) = some op ∧ reservedHigh w = 0 ∧ reservedLow w = 0 ∧
      (op.usesLE = false → leField w = false) ∧ (op.usesNB = false → nbField w = 0) ∧
      (op.usesNB = true → legalNB (nbField w) = true) ∧ (op.usesFMT = false → fmtField w = 0) ∧
      (op.usesFMT = true → legalFMT (fmtField w) = true) ∧ i = op.instr (leField w) (nbField w) (fmtField w) := by
  unfold decode at h
  split at h
  · cases h
  · rename_i op hop
    refine ⟨op, hop, ?_⟩
    split_ifs at h with c1 c2 c3 c4 c5 c6
    injection h with h
    simp only [not_or, not_and, not_not, Bool.not_eq_true, Bool.not_eq_false, ne_eq] at c1 c2 c3 c4 c5 c6
    exact ⟨c1.1, c1.2, c2, c3, c4, c5, c6, h.symm⟩

end Sys2Proof
end

