-- ==== Sys2Proof/Laws/Memory.lean ====
section
/-! SUPPORT. What the memory operations do: a read after a write, and that every operation keeps the canonical form. -/

namespace Sys2Proof.Machine

/-! ### Reading -/

theorem Memory.lookup_insert (m : List Host.Cell) (a x : Nat) (v : BitVec 8) :
    Memory.lookup (Memory.insert m a v) x = if x = a then some v else Memory.lookup m x := by
  induction m with
  | nil => simp [Memory.insert, Memory.lookup]
  | cons c rest ih =>
    obtain ⟨y, b⟩ := c
    by_cases h1 : a < y
    · simp [Memory.insert, h1, Memory.lookup]
    · by_cases h2 : a = y
      · subst h2; by_cases hx : x = a <;> simp [Memory.insert, Memory.lookup, hx]
      · by_cases hx : x = y
        · subst hx; simp [Memory.insert, Memory.lookup, h1, h2, Ne.symm h2]
        · simp [Memory.insert, Memory.lookup, h1, h2, hx, ih]

/-- A block write is read back inside the block and leaves every other address. -/
theorem Memory.lookup_insertBytes (bs : List (BitVec 8)) : ∀ (m : List Host.Cell) (a x : Nat),
    Memory.lookup (Memory.insertBytes m a bs) x =
      if a ≤ x ∧ x < a + bs.length then bs[x - a]? else Memory.lookup m x := by
  induction bs with
  | nil => intro m a x; simp [Memory.insertBytes]
  | cons b bs ih =>
    intro m a x
    rw [Memory.insertBytes, ih, Memory.lookup_insert]
    by_cases hx : x = a
    · subst hx; simp
    · by_cases hin : a ≤ x ∧ x < a + (bs.length + 1)
      · have h1 : a + 1 ≤ x ∧ x < a + 1 + bs.length := by omega
        have h2 : x - a = (x - (a + 1)) + 1 := by omega
        simp [h1, h2, hin]
      · have h1 : ¬ (a + 1 ≤ x ∧ x < a + 1 + bs.length) := by omega
        rw [if_neg h1, if_neg hx, if_neg (by simpa using hin)]

/-- The RAM byte read after a block write. -/
theorem State.ramByte_setRamBytes (s : State) (a x : Nat) (bs : List (BitVec 8)) :
    (s.setRamBytes a bs).ramByte x = if a ≤ x ∧ x < a + bs.length then bs.getD (x - a) 0 else s.ramByte x := by
  unfold State.ramByte
  rw [State.setRamBytes_mem, State.setRamBytes_resets, Memory.lookup_insertBytes]
  split_ifs with h
  · have hl : x - a < bs.length := by omega
    simp [List.getD, List.getElem?_eq_getElem hl]
  · rfl

/-- Any two states with the same memory list and the same draw read the same RAM bytes. -/
theorem State.ramByte_congr {s t : State} (hm : t.mem = s.mem) (hr : t.resets = s.resets) (a : Nat) :
    t.ramByte a = s.ramByte a := by
  unfold State.ramByte; rw [hm, hr]

/-! ### The canonical form -/

theorem Memory.risingFrom_mono {m : List Host.Cell} {lo lo' : Nat} (h : lo' ≤ lo) (hm : Memory.risingFrom lo m = true) :
    Memory.risingFrom lo' m = true := by
  cases m with
  | nil => rfl
  | cons c rest =>
    obtain ⟨x, b⟩ := c
    simp only [Memory.risingFrom, Bool.and_eq_true, decide_eq_true_eq] at hm ⊢
    exact ⟨by omega, hm.2⟩

theorem Memory.risingFrom_insert (m : List Host.Cell) : ∀ {lo a : Nat} {v : BitVec 8}, lo ≤ a →
    Memory.risingFrom lo m = true → Memory.risingFrom lo (Memory.insert m a v) = true := by
  induction m with
  | nil => intro lo a v h _; simp [Memory.insert, Memory.risingFrom, h]
  | cons c rest ih =>
    obtain ⟨x, b⟩ := c
    intro lo a v h hm
    simp only [Memory.risingFrom, Bool.and_eq_true, decide_eq_true_eq] at hm
    unfold Memory.insert
    split_ifs with h1 h2
    · simp only [Memory.risingFrom, Bool.and_eq_true, decide_eq_true_eq]
      exact ⟨h, by omega, hm.2⟩
    · subst h2
      simp only [Memory.risingFrom, Bool.and_eq_true, decide_eq_true_eq]
      exact ⟨h, hm.2⟩
    · simp only [Memory.risingFrom, Bool.and_eq_true, decide_eq_true_eq]
      exact ⟨hm.1, ih (by omega) hm.2⟩

theorem Memory.all_insert (m : List Host.Cell) (p : Host.Cell → Bool) (a : Nat) (v : BitVec 8) (hp : p (a, v) = true)
    (hm : m.all p = true) : (Memory.insert m a v).all p = true := by
  induction m with
  | nil => simp [Memory.insert, hp]
  | cons c rest ih =>
    obtain ⟨x, b⟩ := c
    simp only [List.all_cons, Bool.and_eq_true] at hm
    unfold Memory.insert
    split_ifs <;> simp [hp, hm.1, hm.2, ih hm.2]

theorem Memory.wf_insert {m : List Host.Cell} {a : Nat} {v : BitVec 8} (ha : isRamByte a = true) (hm : Memory.wf m = true) :
    Memory.wf (Memory.insert m a v) = true := by
  simp only [Memory.wf, Bool.and_eq_true] at hm ⊢
  exact ⟨Memory.risingFrom_insert m (Nat.zero_le a) hm.1, Memory.all_insert m _ a v ha hm.2⟩

/-- A block write inside the RAMs keeps the canonical form. -/
theorem Memory.wf_insertBytes (bs : List (BitVec 8)) : ∀ {m : List Host.Cell} {a : Nat},
    (∀ k < bs.length, isRamByte (a + k) = true) → Memory.wf m = true → Memory.wf (Memory.insertBytes m a bs) = true := by
  induction bs with
  | nil => intro m a _ hm; exact hm
  | cons b bs ih =>
    intro m a ha hm
    refine ih (fun k hk => ?_) (Memory.wf_insert (ha 0 (by simp)) hm)
    have := ha (k + 1) (by simp; omega)
    rwa [show a + 1 + k = a + (k + 1) by omega]

theorem Memory.wf_reset : Memory.wf State.reset.mem = true := rfl

/-- The RAM byte addresses as numbers (R67, R69). -/
theorem isRamByte_iff (a : Nat) : isRamByte a = true ↔ (0x100 ≤ a ∧ a < 0x1FF) ∨ (0x400 ≤ a ∧ a < 0x800) := by
  simp only [isRamByte, Bool.or_eq_true, Bool.and_eq_true, decide_eq_true_eq]
  exact Iff.rfl

/-- The RAM windows as numbers (R67). -/
theorem inRamWindow_iff (a : Nat) : inRamWindow a = true ↔ (0x100 ≤ a ∧ a < 0x200) ∨ (0x400 ≤ a ∧ a < 0x800) := by
  simp only [inRamWindow, Bool.or_eq_true, Bool.and_eq_true, decide_eq_true_eq]
  exact Iff.rfl

end Sys2Proof.Machine
end

