-- ==== Sys2Proof/Laws/Exec.lean ====
section
/-! SUPPORT. What a command can do, one lemma per command: the cases its meaning has, each with its next state. Every later
proof about a command starts from these. -/

namespace Sys2Proof.Machine

theorem execNop_eq (s : State) : exec .nop s = .next s.withOk := rfl

theorem execFrameBuild_eq (s : State) : exec .frameBuild s = .next { s.setRamBytes wireBase (builtWire s) with
    wireLen := BitVec.ofNat 11 (16 + s.dlen.toNat), frameOff := 4, frameLen := BitVec.ofNat 9 (12 + s.dlen.toNat),
    statErr := 0x00 } := rfl

theorem execFrameParse_error {s : State} {e : ErrCode} (h : s.frameCheck = .error e) :
    exec .frameParse s = .next ((s.setFv false).withError e) := by
  simp only [exec, execFrameParse, h]; rfl

theorem execFrameParse_ok {s : State} {p : Nat} (h : s.frameCheck = .ok p) :
    exec .frameParse s = .next ((s.loadFrame p).setFv true).withOk := by
  simp only [exec, execFrameParse, h]; rfl

theorem execAddrMatchSrv_eq (s : State) : exec .addrMatchSrv s =
    .next (s.setMatch (decide (s.addr = s.myAddr) || decide (s.addr = bcastAA) || decide (s.addr = bcast99))).withOk := rfl

theorem execAddrMatchCli_eq (s : State) : exec .addrMatchCli s =
    .next (s.setMatch (decide (s.addr = s.myAddr) || decide (s.addr = bcast99))).withOk := rfl

theorem execDomainEncode_eq (s : State) : exec .domainEncode s = .next (s.mapData enc33).withOk := rfl

theorem execDomainDecode_eq (s : State) : exec .domainDecode s = .next (s.mapData dec33).withOk := rfl

theorem execBcd8ToBin_cases (s : State) :
    (validBcd (s.opa.extractLsb' 0 8) = true ∧
      exec .bcd8ToBin s = .next { s with result := BitVec.ofNat 64 (bcd8 (s.opa.extractLsb' 0 8)), statErr := 0x00 }) ∨
    (validBcd (s.opa.extractLsb' 0 8) = false ∧
      exec .bcd8ToBin s = .next ({ s with result := 0 }.withError .bcdDigit)) := by
  cases h : validBcd (s.opa.extractLsb' 0 8) <;> simp only [exec, execBcd8ToBin, h] <;> simp [succeed, raise, State.withOk]

theorem execBinToBcd8_cases (s : State) :
    (s.opa.toNat ≤ 99 ∧
      exec .binToBcd8 s = .next { s with result := (tobcd8 s.opa.toNat).setWidth 64, statErr := 0x00 }) ∨
    (99 < s.opa.toNat ∧ exec .binToBcd8 s = .next ({ s with result := 0 }.withError .overflow)) := by
  by_cases h : s.opa.toNat > 99
  · right; exact ⟨h, by simp only [exec, execBinToBcd8, if_pos h, raise]⟩
  · left; exact ⟨by omega, by simp only [exec, execBinToBcd8, if_neg h, succeed]; rfl⟩

theorem execIntToBcd_cases (le : Bool) (nb : BitVec 4) (s : State) :
    (legalNB nb = false ∧ exec (.intToBcd le nb) s = .next (s.withError .badField)) ∨
    (legalNB nb = true ∧ 100 ^ nb.toNat ≤ s.opa.toNat ∧
      exec (.intToBcd le nb) s = .next (s.clearNbuf.withError .overflow)) ∨
    (legalNB nb = true ∧ s.opa.toNat < 100 ^ nb.toNat ∧
      exec (.intToBcd le nb) s = .next (s.setNbuf (orderLE le (bcdstr s.opa.toNat nb.toNat)) nb.toNat).withOk) := by
  cases h : legalNB nb
  · left; exact ⟨rfl, by simp only [exec, execIntToBcd, h, if_true, raise]⟩
  · by_cases h2 : s.opa.toNat ≥ 100 ^ nb.toNat
    · right; left; exact ⟨rfl, h2, by simp [exec, execIntToBcd, h, h2, raise]⟩
    · right; right; exact ⟨rfl, by omega, by simp [exec, execIntToBcd, h, h2, succeed]⟩

theorem execBcdToInt_cases (le : Bool) (nb : BitVec 4) (s : State) :
    (legalNB nb = false ∧ exec (.bcdToInt le nb) s = .next (s.withError .badField)) ∨
    (legalNB nb = true ∧ (s.nbufString le nb.toNat).all validBcd = true ∧
      exec (.bcdToInt le nb) s =
        .next { s with result := BitVec.ofNat 64 (bcdval (s.nbufString le nb.toNat)), statErr := 0x00 }) ∨
    (legalNB nb = true ∧ (s.nbufString le nb.toNat).all validBcd = false ∧
      exec (.bcdToInt le nb) s = .next ({ s with result := 0 }.withError .bcdDigit)) := by
  cases h : legalNB nb
  · left; exact ⟨rfl, by simp only [exec, execBcdToInt, h, if_true, raise]⟩
  · cases h2 : (s.nbufString le nb.toNat).all validBcd
    · right; right; exact ⟨rfl, rfl, by simp only [exec, execBcdToInt, h, h2]; rfl⟩
    · right; left; exact ⟨rfl, rfl, by simp only [exec, execBcdToInt, h, h2]; rfl⟩

theorem execFloatToBcd_cases (le : Bool) (fmt : BitVec 4) (s : State) :
    (formatOf fmt = none ∧ exec (.floatToBcd le fmt) s = .next (s.withError .badField)) ∨
    (∃ f, formatOf fmt = some f ∧ inRange s.fval f = true ∧
      exec (.floatToBcd le fmt) s = .next (s.setNbuf (orderLE le (floatString s.fval f)) f.width).withOk) ∨
    (∃ f, formatOf fmt = some f ∧ inRange s.fval f = false ∧
      exec (.floatToBcd le fmt) s = .next (s.clearNbuf.withError .range)) := by
  cases h : formatOf fmt with
  | none => left; exact ⟨rfl, by simp only [exec, execFloatToBcd, h, raise]⟩
  | some f =>
    cases h2 : inRange s.fval f
    · right; right; exact ⟨f, rfl, h2, by simp only [exec, execFloatToBcd, h, h2]; rfl⟩
    · right; left; exact ⟨f, rfl, h2, by simp only [exec, execFloatToBcd, h, h2]; rfl⟩

theorem execBcdToFloat_cases (le : Bool) (nb fmt : BitVec 4) (s : State) :
    ((formatOf fmt = none ∨ legalNB nb = false) ∧ exec (.bcdToFloat le nb fmt) s = .next (s.withError .badField)) ∨
    (∃ f, formatOf fmt = some f ∧ legalNB nb = true ∧
      (clearSignBit (s.nbufString le nb.toNat)).all validBcd = true ∧
      exec (.bcdToFloat le nb fmt) s = .next { s with
        result := BitVec.ofNat 64 (bcdval (clearSignBit (s.nbufString le nb.toNat)))
        fval := rndF32 (signBitOf (s.nbufString le nb.toNat)) (bcdval (clearSignBit (s.nbufString le nb.toNat))) f.scale
        statNeg := signBitOf (s.nbufString le nb.toNat), statErr := 0x00 }) ∨
    (∃ f, formatOf fmt = some f ∧ legalNB nb = true ∧
      (clearSignBit (s.nbufString le nb.toNat)).all validBcd = false ∧
      exec (.bcdToFloat le nb fmt) s =
        .next ({ s with result := 0, fval := 0, statNeg := false }.withError .bcdDigit)) := by
  cases h : formatOf fmt with
  | none => left; exact ⟨Or.inl rfl, by simp only [exec, execBcdToFloat, h, raise]⟩
  | some f =>
    cases h1 : legalNB nb
    · left; exact ⟨Or.inr rfl, by simp only [exec, execBcdToFloat, h, h1, if_true, raise]⟩
    · cases h2 : (clearSignBit (s.nbufString le nb.toNat)).all validBcd
      · right; right; exact ⟨f, rfl, rfl, rfl, by simp only [exec, execBcdToFloat, h, h1, h2]; rfl⟩
      · right; left; exact ⟨f, rfl, rfl, rfl, by simp only [exec, execBcdToFloat, h, h1, h2]; rfl⟩

theorem execValueValid_cases (fmt : BitVec 4) (s : State) :
    (formatOf fmt = none ∧ exec (.valueValid fmt) s = .next (s.withError .badField)) ∨
    (∃ f, formatOf fmt = some f ∧ exec (.valueValid fmt) s = .next (s.setMatch (inRange s.fval f)).withOk) := by
  cases h : formatOf fmt with
  | none => left; exact ⟨rfl, by simp only [exec, execValueValid, h, raise]⟩
  | some f => right; exact ⟨f, rfl, by simp only [exec, execValueValid, h, succeed]⟩

theorem execTimeToBcd_cases (le : Bool) (s : State) :
    ((s.tMonth.toNat > 99 ∨ s.tDay.toNat > 99 ∨ s.tHour.toNat > 99 ∨ s.tMin.toNat > 99) ∧
      exec (.timeToBcd le) s = .next (s.clearNbuf.withError .timeField)) ∨
    ((s.tMonth.toNat ≤ 99 ∧ s.tDay.toNat ≤ 99 ∧ s.tHour.toNat ≤ 99 ∧ s.tMin.toNat ≤ 99) ∧
      exec (.timeToBcd le) s = .next (s.setNbuf (orderLE le (timeString s)) 5).withOk) := by
  by_cases h : s.tMonth.toNat > 99 ∨ s.tDay.toNat > 99 ∨ s.tHour.toNat > 99 ∨ s.tMin.toNat > 99
  · left; exact ⟨h, by simp only [exec, execTimeToBcd, if_pos h, raise]⟩
  · right; exact ⟨by omega, by simp only [exec, execTimeToBcd, if_neg h, succeed]⟩

theorem execBcdToTime_cases (le : Bool) (s : State) :
    ((s.nbufString le 5).all validBcd = true ∧
      exec (.bcdToTime le) s = .next (s.setTime (s.nbufString le 5)).withOk) ∨
    ((s.nbufString le 5).all validBcd = false ∧ exec (.bcdToTime le) s = .next (s.clearTime.withError .bcdDigit)) := by
  cases h : (s.nbufString le 5).all validBcd
  · right; exact ⟨rfl, by simp only [exec, execBcdToTime, h]; rfl⟩
  · left; exact ⟨rfl, by simp only [exec, execBcdToTime, h]; rfl⟩

theorem execU32ToLe4_eq (s : State) : exec .u32ToLe4 s = .next (s.setNbuf (opaBytes4 s.opa) 4).withOk := rfl

theorem execLe4ToU32_eq (s : State) : exec .le4ToU32 s =
    .next { s with result := (word4 s.nbuf[0] s.nbuf[1] s.nbuf[2] s.nbuf[3]).setWidth 64, statErr := 0x00 } := rfl

end Sys2Proof.Machine
end

