-- ==== Sys2Proof/Laws/Float.lean ====
section
/-! SUPPORT. What the binary32 operations do: the fields of a rounded pattern, and the rounding as a bound on the distance. -/

namespace Sys2Proof.Machine

theorem abs_f32Real (x : BitVec 32) : |f32Real x| = (f32Mant x : ℚ) * (2 : ℚ) ^ ((f32Unit x : ℤ) - 150) := by
  unfold f32Real
  rw [abs_mul, abs_mul]
  have : |(if f32Sign x = true then (-1 : ℚ) else 1)| = 1 := by split_ifs <;> simp
  rw [this, one_mul, abs_of_nonneg (by positivity : (0 : ℚ) ≤ (f32Mant x : ℚ)), abs_of_nonneg (by positivity)]

theorem f32Mant_lt (x : BitVec 32) : f32Mant x < 2 ^ 24 := by
  unfold f32Mant f32Frac
  have := (x.extractLsb' 0 23).isLt
  split_ifs <;> omega

/-- The rounded integer is within half of the quotient, and even at exactly half (R144). -/
theorem roundHalfEven_spec (num den : Nat) (hd : 0 < den) :
    2 * |(num : ℤ) - roundHalfEven num den * den| ≤ den ∧
      (2 * |(num : ℤ) - roundHalfEven num den * den| = den → roundHalfEven num den % 2 = 0) := by
  have h1 := Nat.div_add_mod num den
  have h2 := Nat.mod_lt num hd
  have h1' : (num : ℤ) = den * (num / den : ℕ) + (num % den : ℕ) := by exact_mod_cast h1.symm
  unfold roundHalfEven
  simp only
  generalize num / den = q at *
  generalize num % den = r at *
  have a1 : (num : ℤ) - (q : ℕ) * den = r := by rw [h1']; ring
  have a2 : (num : ℤ) - ((q + 1 : ℕ) : ℤ) * den = r - den := by rw [h1']; push_cast; ring
  have b1 : |(r : ℤ)| = r := abs_of_nonneg (by omega)
  have b2 : |(r : ℤ) - den| = den - r := by rw [abs_of_nonpos (by omega)]; ring
  split_ifs with c1 c2 c3
  · rw [a1, b1]; omega
  · rw [a2, b2]; omega
  · rw [a1, b1]; omega
  · rw [a2, b2]; omega

/-- `ilog2Ratio` is the floor of the binary logarithm. -/
theorem ilog2Ratio_spec (p r : Nat) (hp : 0 < p) (hr : 0 < r) :
    (2 : ℚ) ^ ilog2Ratio p r ≤ (p : ℚ) / r ∧ (p : ℚ) / r < (2 : ℚ) ^ (ilog2Ratio p r + 1) := by
  have p1 : (2 : ℚ) ^ Nat.log2 p ≤ p := by exact_mod_cast Nat.log2_self_le (n := p) (by omega)
  have p2 : (p : ℚ) < 2 ^ (Nat.log2 p + 1) := by exact_mod_cast Nat.lt_log2_self (n := p)
  have r1 : (2 : ℚ) ^ Nat.log2 r ≤ r := by exact_mod_cast Nat.log2_self_le (n := r) (by omega)
  have r2 : (r : ℚ) < 2 ^ (Nat.log2 r + 1) := by exact_mod_cast Nat.lt_log2_self (n := r)
  have hrq : (0 : ℚ) < r := by exact_mod_cast hr
  set l : ℤ := (Nat.log2 p : ℤ) - (Nat.log2 r : ℤ) with hl
  have up : (p : ℚ) / r < (2 : ℚ) ^ (l + 1) := by
    rw [div_lt_iff₀ hrq]
    calc (p : ℚ) < 2 ^ (Nat.log2 p + 1) := p2
      _ = (2 : ℚ) ^ (l + 1) * 2 ^ Nat.log2 r := by
          rw [← zpow_natCast, ← zpow_natCast, ← zpow_add₀ (by norm_num)]; congr 1; push_cast; omega
      _ ≤ (2 : ℚ) ^ (l + 1) * r := by gcongr
  have lo : (2 : ℚ) ^ (l - 1) ≤ (p : ℚ) / r := by
    rw [le_div_iff₀ hrq]
    calc (2 : ℚ) ^ (l - 1) * r ≤ (2 : ℚ) ^ (l - 1) * 2 ^ (Nat.log2 r + 1) := by gcongr
      _ = (2 : ℚ) ^ Nat.log2 p := by
          rw [← zpow_natCast, ← zpow_natCast, ← zpow_add₀ (by norm_num)]; congr 1; push_cast; omega
      _ ≤ p := p1
  have test : (if 0 ≤ l then decide (r * 2 ^ l.toNat ≤ p) else decide (r ≤ p * 2 ^ (-l).toNat)) = true ↔
      (2 : ℚ) ^ l ≤ (p : ℚ) / r := by
    rw [le_div_iff₀ hrq]
    split_ifs with h0
    · rw [decide_eq_true_eq]
      have : (2 : ℚ) ^ l = 2 ^ l.toNat := by rw [← zpow_natCast]; congr 1; omega
      rw [this, mul_comm]; norm_cast
    · rw [decide_eq_true_eq]
      have : (2 : ℚ) ^ l = (2 ^ (-l).toNat)⁻¹ := by rw [← zpow_natCast, ← zpow_neg]; congr 1; omega
      rw [this, inv_mul_le_iff₀ (by positivity), mul_comm (2 ^ _)]; norm_cast
  unfold ilog2Ratio
  simp only [← hl]
  by_cases ht : (if 0 ≤ l then decide (r * 2 ^ l.toNat ≤ p) else decide (r ≤ p * 2 ^ (-l).toNat)) = true
  · rw [if_pos ht]; exact ⟨test.1 ht, up⟩
  · rw [if_neg ht, sub_add_cancel]; exact ⟨lo, not_le.1 fun h => ht (test.2 h)⟩

/-- The three fields of a magnitude pattern with a sign put on it (R35). -/
theorem f32_fields (neg : Bool) (b : Nat) (hb : b < 2 ^ 31) :
    f32Exp (BitVec.ofNat 32 b ||| (if neg then 0x80000000 else 0)) = b / 2 ^ 23 ∧
    f32Frac (BitVec.ofNat 32 b ||| (if neg then 0x80000000 else 0)) = b % 2 ^ 23 ∧
    f32Sign (BitVec.ofNat 32 b ||| (if neg then 0x80000000 else 0)) = neg := by
  have h : (BitVec.ofNat 32 b ||| (if neg then 0x80000000 else 0)).toNat = b + (if neg then 2 ^ 31 else 0) := by
    rw [BitVec.toNat_or]
    have : (BitVec.ofNat 32 b).toNat = b := by simp; omega
    rw [this]
    cases neg
    · simp
    · simp only [if_true]
      show b ||| 2147483648 = b + 2 ^ 31
      rw [Nat.or_comm]
      have := Nat.two_pow_add_eq_or_of_lt hb 1
      simp at this; rw [← this]; omega
  refine ⟨?_, ?_, ?_⟩
  · unfold f32Exp; rw [BitVec.extractLsb'_toNat, h, Nat.shiftRight_eq_div_pow]; split_ifs <;> omega
  · unfold f32Frac; rw [BitVec.extractLsb'_toNat, h, Nat.shiftRight_eq_div_pow]; split_ifs <;> omega
  · unfold f32Sign; rw [BitVec.getLsbD, h, Nat.testBit_eq_decide_div_mod_eq]; cases neg <;> simp <;> omega

/-- The encoder's sign is that of the exact real value (R145). -/
theorem f32IsNeg_iff (x : BitVec 32) : f32IsNeg x = true ↔ f32Real x < 0 := by
  unfold f32IsNeg
  rw [Bool.and_eq_true, decide_eq_true_eq]
  have pz : (0 : ℚ) < 2 ^ ((f32Unit x : ℤ) - 150) := by positivity
  constructor
  · rintro ⟨h1, h2⟩
    unfold f32Real; rw [h1, if_pos rfl]
    have : (0 : ℚ) < f32Mant x := by exact_mod_cast Nat.pos_of_ne_zero h2
    nlinarith [mul_pos this pz]
  · intro h
    unfold f32Real at h
    constructor
    · by_contra hc; rw [if_neg hc] at h
      have : (0 : ℚ) ≤ f32Mant x := by positivity
      nlinarith [mul_nonneg this pz.le]
    · intro hc; rw [hc] at h; simp at h

end Sys2Proof.Machine
end

