-- ==== Sys2Proof/Laws/Frame.lean ====
section
/-! SUPPORT. What the parts of the frame codec do: the checksum as the spec's sum, the scan position, the checks of
FRAME_PARSE, and the bytes FRAME_BUILD puts in WIRE. -/

namespace Sys2Proof.Machine

/-! ### The sum -/

@[simp] theorem sumBytes_nil : sumBytes [] = 0 := rfl

@[simp] theorem sumBytes_cons (b : BitVec 8) (bs : List (BitVec 8)) : sumBytes (b :: bs) = b + sumBytes bs := rfl

theorem sumBytes_append (as bs : List (BitVec 8)) : sumBytes (as ++ bs) = sumBytes as + sumBytes bs := by
  induction as with
  | nil => simp
  | cons a as ih => simp [ih, add_assoc]

/-- `sum256` with one more byte at the end. -/
theorem sum256_succ (arr : Nat → BitVec 8) {i j : Nat} (h : i ≤ j) : sum256 arr i (j + 1) = sum256 arr i j + arr j := by
  apply BitVec.eq_of_toNat_eq
  simp [sum256, Finset.sum_Ico_succ_top h, BitVec.toNat_add]

@[simp] theorem sum256_self (arr : Nat → BitVec 8) (i : Nat) : sum256 arr i i = 0 := by simp [sum256]

/-- The sum over consecutive elements is the sum of their list. -/
theorem sumBytes_range (arr : Nat → BitVec 8) (i n : Nat) :
    sumBytes ((List.range n).map fun k => arr (i + k)) = sum256 arr i (i + n) := by
  induction n with
  | zero => simp
  | succ n ih =>
    rw [List.range_succ, List.map_append, sumBytes_append, ih, ← Nat.add_assoc, sum256_succ arr (by omega)]
    simp

theorem State.sumWire_eq_sum256 (s : State) (i n : Nat) : s.sumWire i n = sum256 s.wireByte i (i + n) :=
  sumBytes_range s.wireByte i n

theorem sum256_congr {arr arr' : Nat → BitVec 8} {i j : Nat} (h : ∀ k, i ≤ k → k < j → arr k = arr' k) :
    sum256 arr i j = sum256 arr' i j := by
  unfold sum256
  congr 1
  refine Finset.sum_congr rfl fun k hk => ?_
  rw [Finset.mem_Ico] at hk
  rw [h k hk.1 hk.2]

/-! ### The scan -/

theorem State.firstStart_eq (s : State) (n : Nat) :
    s.firstStart n = (List.range n).find? fun i => decide (s.wireByte i = 0x68) := rfl

theorem State.firstStart_eq_some_iff (s : State) (n p : Nat) : s.firstStart n = some p ↔ LeastStart s n p := by
  simp only [State.firstStart_eq, List.find?_range_eq_some, LeastStart, List.mem_range, Bool.not_eq_true',
    decide_eq_true_eq, decide_eq_false_iff_not]
  tauto

theorem State.firstStart_eq_none_iff (s : State) (n : Nat) : s.firstStart n = none ↔ ∀ i < n, s.wireByte i ≠ 0x68 := by
  simp [State.firstStart_eq]

/-- There is at most one scan position. -/
theorem LeastStart.unique {s : State} {n p q : Nat} (hp : LeastStart s n p) (hq : LeastStart s n q) : p = q := by
  rcases Nat.lt_trichotomy p q with h | h | h
  · exact absurd hp.2.1 (hq.2.2 p h)
  · exact h
  · exact absurd hq.2.1 (hp.2.2 q h)

/-! ### The checks of FRAME_PARSE -/

/-- All checks of R195 passed, with the frame at p. -/
structure ParseOk (s : State) (p : Nat) : Prop where
  len_le : s.wireLen.toNat ≤ 1024
  start : LeastStart s s.wireLen.toNat p
  enough : 11 ≤ s.wireLen.toNat - (p + 1)
  second : s.wireByte (p + 7) = 0x68
  inside : p + 12 + (s.wireByte (p + 9)).toNat ≤ s.wireLen.toNat
  sum : sum256 s.wireByte p (p + 10 + (s.wireByte (p + 9)).toNat) = s.wireByte (p + 10 + (s.wireByte (p + 9)).toNat)
  ending : s.wireByte (p + 11 + (s.wireByte (p + 9)).toNat) = 0x16

/-- The checks in order, in the spec's numbers (R195). -/
theorem State.frameCheck_eq (s : State) : s.frameCheck =
    if s.wireLen.toNat > 1024 then .error .badField
    else match s.firstStart s.wireLen.toNat with
      | none => .error .noStart
      | some p =>
        if s.wireLen.toNat - (p + 1) < 11 then .error .short
        else if s.wireByte (p + 7) ≠ 0x68 then .error .noSecondStart
        else if p + 12 + (s.wireByte (p + 9)).toNat > s.wireLen.toNat then .error .length
        else if s.sumWire p (10 + (s.wireByte (p + 9)).toNat) ≠ s.wireByte (p + 10 + (s.wireByte (p + 9)).toNat) then
          .error .checksum
        else if s.wireByte (p + 11 + (s.wireByte (p + 9)).toNat) ≠ 0x16 then .error .noEnd
        else .ok p := rfl

/-- The checks once the scan position is known. -/
theorem State.frameCheck_of_start {s : State} {p : Nat} (h1 : s.wireLen.toNat ≤ 1024)
    (h2 : LeastStart s s.wireLen.toNat p) : s.frameCheck =
    if s.wireLen.toNat - (p + 1) < 11 then .error .short
    else if s.wireByte (p + 7) ≠ 0x68 then .error .noSecondStart
    else if p + 12 + (s.wireByte (p + 9)).toNat > s.wireLen.toNat then .error .length
    else if sum256 s.wireByte p (p + 10 + (s.wireByte (p + 9)).toNat) ≠ s.wireByte (p + 10 + (s.wireByte (p + 9)).toNat) then
      .error .checksum
    else if s.wireByte (p + 11 + (s.wireByte (p + 9)).toNat) ≠ 0x16 then .error .noEnd
    else .ok p := by
  rw [State.frameCheck_eq, if_neg (by omega), (State.firstStart_eq_some_iff s _ _).2 h2]
  simp only [State.sumWire_eq_sum256, ← Nat.add_assoc]

theorem State.frameCheck_eq_ok_iff (s : State) (p : Nat) : s.frameCheck = .ok p ↔ ParseOk s p := by
  constructor
  · intro h
    by_cases c1 : s.wireLen.toNat > 1024
    · rw [State.frameCheck_eq, if_pos c1] at h; cases h
    · cases hf : s.firstStart s.wireLen.toNat with
      | none => rw [State.frameCheck_eq, if_neg c1, hf] at h; cases h
      | some q =>
        have hq := (State.firstStart_eq_some_iff s _ _).1 hf
        rw [State.frameCheck_of_start (by omega) hq] at h
        split_ifs at h with c2 c3 c4 c5 c6
        injection h with h
        subst h
        exact ⟨by omega, hq, by omega, not_not.1 c3, by omega, not_not.1 c5, not_not.1 c6⟩
  · rintro ⟨h1, h2, h3, h4, h5, h6, h7⟩
    rw [State.frameCheck_of_start h1 h2, if_neg (by omega), if_neg (not_not.2 h4), if_neg (by omega),
      if_neg (not_not.2 h6), if_neg (not_not.2 h7)]

/-- FRAME_PARSE either fails with its code, clearing FV and nothing else, or loads the frame. -/
theorem execFrameParse_cases (s : State) :
    (∃ e, s.frameCheck = .error e ∧ exec .frameParse s = .next ((s.setFv false).withError e)) ∨
    (∃ p, ParseOk s p ∧ exec .frameParse s = .next ((s.loadFrame p).setFv true).withOk) := by
  cases h : s.frameCheck with
  | error e => exact Or.inl ⟨e, rfl, execFrameParse_error h⟩
  | ok p => exact Or.inr ⟨p, (State.frameCheck_eq_ok_iff s p).1 h, execFrameParse_ok h⟩

/-! ### The bytes the frame commands store -/

@[simp] theorem State.dataBytes_length (s : State) (n : Nat) : (s.dataBytes n).length = n := by simp [State.dataBytes]

theorem State.dataBytes_getD (s : State) {n i : Nat} (h : i < n) : (s.dataBytes n).getD i 0 = s.dataByte i := by
  simp [State.dataBytes, h]

@[simp] theorem State.parsedData_length (s : State) (p : Nat) :
    (s.parsedData p).length = (s.wireByte (p + 9)).toNat := by simp [State.parsedData]

theorem State.parsedData_getD (s : State) {p i : Nat} (h : i < (s.wireByte (p + 9)).toNat) :
    (s.parsedData p).getD i 0 = dec33 (s.wireByte (p + 10 + i)) := by simp [State.parsedData, h]

@[simp] theorem frameBody_length (addr : List (BitVec 8)) (ctrl len : BitVec 8) (data : List (BitVec 8)) :
    (frameBody addr ctrl len data).length = addr.length + data.length + 4 := by simp [frameBody]; omega

@[simp] theorem builtWire_length (s : State) : (builtWire s).length = 16 + s.dlen.toNat := by
  simp [builtWire, preamble]; omega

/-- DATA[i] after the in-place transform (R201, R202). -/
theorem State.ramByte_mapData (s : State) (f : BitVec 8 → BitVec 8) (a : Nat) :
    (s.mapData f).ramByte a =
      if 0x100 ≤ a ∧ a < 0x100 + s.dlen.toNat then f (s.ramByte a) else s.ramByte a := by
  rw [State.mapData, State.ramByte_setRamBytes]
  simp only [List.length_map, State.dataBytes_length, dataBase]
  split_ifs with h
  · have h1 : a - 256 < s.dlen.toNat := by omega
    simp only [State.dataBytes, List.map_map, List.getD_eq_getElem?_getD, List.getElem?_map, List.getElem?_range h1]
    simp only [Option.map_some, Function.comp_apply, Option.getD_some, State.dataByte, dataBase]
    rw [show 256 + (a - 256) = a by omega]
  · rfl

/-! ### The bytes FRAME_BUILD puts in WIRE -/

/-- The address bytes as a list. -/
theorem addr_toList (v : Vector (BitVec 8) 6) : v.toList = [v[0], v[1], v[2], v[3], v[4], v[5]] := by
  obtain ⟨⟨l⟩, h⟩ := v
  match l, h with
  | [_, _, _, _, _, _], _ => rfl

/-- The built bytes up to the length byte, then the encoded data, the checksum and the end marker (R191). -/
theorem builtWire_eq (s : State) : builtWire s =
    ([0xFE, 0xFE, 0xFE, 0xFE, 0x68, s.addr[0], s.addr[1], s.addr[2], s.addr[3], s.addr[4], s.addr[5], 0x68, s.ctrl,
      s.dlen] : List (BitVec 8)) ++ ((s.dataBytes s.dlen.toNat).map enc33 ++
      [sumBytes (frameBody s.addr.toList s.ctrl s.dlen (s.dataBytes s.dlen.toNat)), 0x16]) := by
  simp [builtWire, frameBody, preamble, startMarker, endMarker, addr_toList]

theorem builtWire_data (s : State) {i : Nat} (h : i < s.dlen.toNat) :
    (builtWire s).getD (14 + i) 0 = enc33 (s.dataByte i) := by
  rw [builtWire_eq, List.getD_append_right _ _ _ _ (by simp)]
  simp
  rw [List.getElem?_append_left (by simpa using h)]
  simp [State.dataBytes, h]

theorem builtWire_checksum (s : State) : (builtWire s).getD (14 + s.dlen.toNat) 0 =
    sumBytes (frameBody s.addr.toList s.ctrl s.dlen (s.dataBytes s.dlen.toNat)) := by
  rw [builtWire_eq, List.getD_append_right _ _ _ _ (by simp)]
  simp

theorem builtWire_end (s : State) : (builtWire s).getD (15 + s.dlen.toNat) 0 = 0x16 := by
  rw [builtWire_eq, List.getD_append_right _ _ _ _ (by simp; omega)]
  simp
  rw [List.getElem?_append_right (by simp; omega)]
  simp [show 15 + s.dlen.toNat - 14 - s.dlen.toNat = 1 by omega]

/-- WIRE after a build: the built bytes, and every later byte as it was. -/
theorem State.wireByte_setRamBytes_built (s : State) (k : Nat) : (s.setRamBytes wireBase (builtWire s)).wireByte k =
    if k < 16 + s.dlen.toNat then (builtWire s).getD k 0 else s.wireByte k := by
  rw [State.wireByte, State.ramByte_setRamBytes]
  simp only [builtWire_length, wireBase]
  by_cases h : k < 16 + s.dlen.toNat
  · rw [if_pos (by omega), if_pos h, show 1024 + k - 1024 = k by omega]
  · rw [if_neg (by omega), if_neg h]; rfl

/-- One changed byte changes a sum that covers it by the byte's difference. -/
theorem sum256_change {arr arr' : Nat → BitVec 8} {i j m : Nat} (him : i ≤ m) (hmj : m < j)
    (h : ∀ k, k ≠ m → arr' k = arr k) : sum256 arr' i j = sum256 arr i j + arr' m - arr m := by
  induction j with
  | zero => omega
  | succ n ih =>
    rw [sum256_succ _ (by omega), sum256_succ _ (by omega)]
    rcases Nat.lt_or_ge m n with h1 | h1
    · rw [ih h1, h n (by omega)]; ring
    · obtain rfl : m = n := by omega
      rw [sum256_congr (arr := arr') (arr' := arr) (fun k _ hk => h k (by omega))]
      ring

@[simp] theorem dec33_enc33 (b : BitVec 8) : dec33 (enc33 b) = b := by simp [dec33, enc33]

@[simp] theorem enc33_dec33 (b : BitVec 8) : enc33 (dec33 b) = b := by simp [dec33, enc33]

end Sys2Proof.Machine
end

