-- ==== Sys2Proof/Laws/Operands.lean ====
section
/-! SUPPORT. What the operand forms do: packed BCD bytes and strings, byte order, NBUF, and the eight formats. -/

namespace Sys2Proof.Machine

/-! ### Bytes of packed BCD -/

theorem validBcd_iff (b : BitVec 8) : validBcd b = true ↔ IsBcdByte b := by
  simp only [validBcd, Bool.and_eq_true, decide_eq_true_eq]; exact Iff.rfl

theorem all_validBcd_iff (bs : List (BitVec 8)) : bs.all validBcd = true ↔ ∀ b ∈ bs, IsBcdByte b := by
  simp only [List.all_eq_true, validBcd_iff]

theorem all_validBcd_false_iff (bs : List (BitVec 8)) : bs.all validBcd = false ↔ ¬ ∀ b ∈ bs, IsBcdByte b := by
  rw [← all_validBcd_iff, Bool.not_eq_true]

theorem tobcd8_toNat {x : Nat} (h : x < 100) : (tobcd8 x).toNat = 16 * (x / 10) + x % 10 := by
  simp only [tobcd8, BitVec.toNat_ofNat]; omega

theorem bcd8_tobcd8 {x : Nat} (h : x < 100) : bcd8 (tobcd8 x) = x := by
  simp only [bcd8, hiNibble, loNibble, tobcd8_toNat h]; omega

theorem validBcd_tobcd8 {x : Nat} (h : x < 100) : validBcd (tobcd8 x) = true := by
  rw [validBcd_iff, IsBcdByte, tobcd8_toNat h]; omega

theorem bcd8_lt {b : BitVec 8} (h : validBcd b = true) : bcd8 b < 100 := by
  rw [validBcd_iff] at h; obtain ⟨h1, h2⟩ := h
  simp only [bcd8, hiNibble, loNibble]; omega

/-- A valid byte is the encoding of its value. -/
theorem tobcd8_bcd8 {b : BitVec 8} (h : validBcd b = true) : tobcd8 (bcd8 b) = b := by
  apply BitVec.eq_of_toNat_eq
  rw [tobcd8_toNat (bcd8_lt h)]
  rw [validBcd_iff] at h; obtain ⟨h1, h2⟩ := h
  simp only [bcd8, hiNibble, loNibble]; omega

/-! ### Strings -/

@[simp] theorem bcdstr_length (v n : Nat) : (bcdstr v n).length = n := by
  induction n generalizing v with
  | zero => rfl
  | succ n ih => simp [bcdstr, ih]

@[simp] theorem bcdval_nil : bcdval [] = 0 := rfl

theorem bcdval_append_singleton (bs : List (BitVec 8)) (b : BitVec 8) : bcdval (bs ++ [b]) = 100 * bcdval bs + bcd8 b := by
  simp [bcdval]

theorem bcdstr_valid {v n : Nat} (h : v < 100 ^ n) : (bcdstr v n).all validBcd = true := by
  induction n generalizing v with
  | zero => rfl
  | succ n ih =>
    have h1 : v / 100 < 100 ^ n := by rw [pow_succ] at h; omega
    simp [bcdstr, ih h1, validBcd_tobcd8 (Nat.mod_lt v (by omega : 100 > 0)), -List.all_eq_true]

theorem bcdval_bcdstr {v n : Nat} (h : v < 100 ^ n) : bcdval (bcdstr v n) = v := by
  induction n generalizing v with
  | zero => simp at h; subst h; rfl
  | succ n ih =>
    have h1 : v / 100 < 100 ^ n := by rw [pow_succ] at h; omega
    rw [bcdstr, bcdval_append_singleton, ih h1, bcd8_tobcd8 (Nat.mod_lt v (by omega))]; omega

/-- A valid string's value has at most two digits a byte. -/
theorem bcdval_lt (bs : List (BitVec 8)) (h : bs.all validBcd = true) : bcdval bs < 100 ^ bs.length := by
  induction bs using List.reverseRecOn with
  | nil => simp
  | append_singleton bs b ih =>
    simp only [List.all_append, List.all_cons, List.all_nil, Bool.and_true, Bool.and_eq_true] at h
    have h1 := ih h.1
    have h2 := bcd8_lt h.2
    rw [bcdval_append_singleton]
    simp only [List.length_append, List.length_singleton, pow_succ]; omega

/-! ### Byte order and NBUF -/

theorem orderLE_eq_revIf (le : Bool) (bs : List (BitVec 8)) : orderLE le bs = revIf le bs := rfl

@[simp] theorem orderLE_length (le : Bool) (bs : List (BitVec 8)) : (orderLE le bs).length = bs.length := by
  cases le <;> simp [orderLE]

@[simp] theorem orderLE_orderLE (le : Bool) (bs : List (BitVec 8)) : orderLE le (orderLE le bs) = bs := by
  cases le <;> simp [orderLE]

theorem fillNbuf_eq_nbufOf (bs : List (BitVec 8)) : fillNbuf bs = nbufOf bs := by
  apply Vector.ext; intro i hi
  simp only [nbufOf, Vector.getElem_ofFn]
  interval_cases i <;> rfl

/-- The bytes a producing command put in NBUF, read back. -/
theorem take_fillNbuf {bs : List (BitVec 8)} (h : bs.length ≤ 8) : (fillNbuf bs).toList.take bs.length = bs := by
  apply List.ext_getElem?
  intro i
  rw [fillNbuf_eq_nbufOf]
  by_cases hi : i < bs.length
  · rw [List.getElem?_take_of_lt hi, List.getElem?_eq_getElem hi,
      List.getElem?_eq_getElem (by simp; omega)]
    simp [nbufOf, hi]
  · rw [List.getElem?_eq_none (by simp; omega), List.getElem?_eq_none (by omega)]

@[simp] theorem State.nbufString_length (s : State) (le : Bool) {n : Nat} (h : n ≤ 8) : (s.nbufString le n).length = n := by
  simp [State.nbufString, h]

/-- What the decoders read back from what a producing command wrote with the same byte order. -/
theorem State.nbufString_of_fill {s : State} {le : Bool} {bs : List (BitVec 8)} (hl : bs.length ≤ 8)
    (hn : s.nbuf = fillNbuf (orderLE le bs)) : s.nbufString le bs.length = bs := by
  unfold State.nbufString
  rw [hn]
  have := take_fillNbuf (bs := orderLE le bs) (by simpa using hl)
  rw [orderLE_length] at this
  rw [this, orderLE_orderLE]

/-! ### Formats -/

theorem formatOf_cases {fmt : BitVec 4} {f : Format} (h : formatOf fmt = some f) :
    f = ⟨8, 2, "XXXXXX.XX"⟩ ∨ f = ⟨6, 2, "XXXX.XX"⟩ ∨ f = ⟨6, 3, "XXX.XXX"⟩ ∨ f = ⟨4, 1, "XXX.X"⟩ ∨
    f = ⟨6, 4, "XX.XXXX"⟩ ∨ f = ⟨4, 2, "XX.XX"⟩ ∨ f = ⟨4, 3, "X.XXX"⟩ ∨ f = ⟨12, 0, "XXXXXXXXXXXX"⟩ := by
  have hm : f ∈ formatTable := List.mem_of_getElem? h
  simpa [formatTable] using hm

theorem formatOf_isSome_iff (fmt : BitVec 4) : (formatOf fmt).isSome = true ↔ legalFMT fmt = true := by
  revert fmt; decide

/-- Max of a format fits its W digit bytes (R140, R141), and leaves the top digit's sign bit free. -/
theorem Format.maxScaled_lt {fmt : BitVec 4} {f : Format} (h : formatOf fmt = some f) :
    f.maxScaled < 8 * 10 ^ (2 * f.width - 1) ∧ f.maxScaled < 100 ^ f.width ∧ 2 ≤ f.width ∧ f.width ≤ 6 ∧ f.d ≤ 4 := by
  rcases formatOf_cases h with rfl | rfl | rfl | rfl | rfl | rfl | rfl | rfl <;> decide

/-! ### The first byte of a string -/

theorem legalNB_iff (nb : BitVec 4) : legalNB nb = true ↔ 1 ≤ nb.toNat ∧ nb.toNat ≤ 8 := by simp [legalNB]

theorem bcdval_foldl (bs : List (BitVec 8)) (a : Nat) :
    bs.foldl (fun acc b => 100 * acc + bcd8 b) a = a * 100 ^ bs.length + bcdval bs := by
  induction bs using List.reverseRecOn with
  | nil => simp
  | append_singleton bs b ih => rw [List.foldl_append, bcdval_append_singleton, ih]; simp [pow_succ]; ring

/-- The first byte is the most significant one (R111). -/
theorem bcdval_cons (b : BitVec 8) (bs : List (BitVec 8)) : bcdval (b :: bs) = bcd8 b * 100 ^ bs.length + bcdval bs := by
  show List.foldl _ _ bs = _
  rw [bcdval_foldl]; simp

/-- Zero bytes in front do not change the value (R146's pad bytes). -/
theorem bcdval_replicate_append (k : Nat) (bs : List (BitVec 8)) : bcdval (List.replicate k 0 ++ bs) = bcdval bs := by
  induction k with
  | zero => simp
  | succ k ih => rw [List.replicate_succ, List.cons_append, bcdval_cons, ih]; simp [bcd8, hiNibble, loNibble]

end Sys2Proof.Machine
end

