-- ==== Sys2Proof/Laws/PerInstr.lean ====
section
/-! SUPPORT. The family Encoding, one lemma per command: the word of a command matches its row of spec/opcode_table.json under
that row's mask, and its OP field is the row's (spec/30_encoding.md R80, R86). -/

namespace Sys2Proof.Laws.Encoding

open Sys2Proof.Machine

/-- The encoded word has the row's match under the row's mask, and its low byte is the row's OP. -/
def Statement (i : Instr) : Prop :=
  encode i &&& (opcodeRow i.op).1 = (opcodeRow i.op).2.1 ∧ opField (encode i) = i.op.code

theorem nop : Statement .nop := by unfold Statement; decide
theorem frameBuild : Statement .frameBuild := by unfold Statement; decide
theorem frameParse : Statement .frameParse := by unfold Statement; decide
theorem addrMatchSrv : Statement .addrMatchSrv := by unfold Statement; decide
theorem addrMatchCli : Statement .addrMatchCli := by unfold Statement; decide
theorem domainEncode : Statement .domainEncode := by unfold Statement; decide
theorem domainDecode : Statement .domainDecode := by unfold Statement; decide
theorem bcd8ToBin : Statement .bcd8ToBin := by unfold Statement; decide
theorem binToBcd8 : Statement .binToBcd8 := by unfold Statement; decide
theorem intToBcd (le : Bool) (nb : BitVec 4) : Statement (.intToBcd le nb) := by
  unfold Statement; revert le nb; decide
theorem bcdToInt (le : Bool) (nb : BitVec 4) : Statement (.bcdToInt le nb) := by
  unfold Statement; revert le nb; decide
theorem floatToBcd (le : Bool) (fmt : BitVec 4) : Statement (.floatToBcd le fmt) := by
  unfold Statement; revert le fmt; decide
theorem bcdToFloat (le : Bool) (nb fmt : BitVec 4) : Statement (.bcdToFloat le nb fmt) := by
  unfold Statement; revert le nb fmt; decide +kernel
theorem valueValid (fmt : BitVec 4) : Statement (.valueValid fmt) := by
  unfold Statement; revert fmt; decide
theorem timeToBcd (le : Bool) : Statement (.timeToBcd le) := by unfold Statement; revert le; decide
theorem bcdToTime (le : Bool) : Statement (.bcdToTime le) := by unfold Statement; revert le; decide
theorem u32ToLe4 : Statement .u32ToLe4 := by unfold Statement; decide
theorem le4ToU32 : Statement .le4ToU32 := by unfold Statement; decide

end Sys2Proof.Laws.Encoding
end

