-- ==== Sys2Proof/Laws/Port.lean ====
section
/-! SUPPORT. What a port event and a step can do: one equation per kind of event, and where an address leads. -/

namespace Sys2Proof.Machine

@[simp] theorem andRespond_next (r : Response) (s : State) : andRespond r (.next s) = .next (s.respond r) := rfl

/-- Each register word is found at its offset (R67). -/
theorem locate_offset (r : Reg) : locate r.offset = some (.reg r) := by cases r <;> decide

theorem locate_cmd : locate 0x000 = some (.reg .cmd) := locate_offset .cmd

theorem offset_of_regAt {n : Nat} {r : Reg} (h : regAt n = some r) : n = r.offset.toNat := by
  unfold regAt at h
  split at h <;> first | (injection h with h; subst h; rfl) | cases h

/-- A register word is found only at its offset. -/
theorem offset_of_locate {a : Addr} {r : Reg} (h : locate a = some (.reg r)) : a = r.offset := by
  unfold locate at h
  by_cases h1 : a.toNat % 4 ≠ 0
  · rw [if_pos h1] at h; cases h
  · rw [if_neg h1] at h
    cases hr : regAt a.toNat with
    | none => simp only [hr] at h; split_ifs at h; cases h
    | some r' =>
      simp only [hr] at h
      injection h with h; injection h with h; subst h
      exact BitVec.eq_of_toNat_eq (offset_of_regAt hr)

/-- A RAM word is found exactly at the aligned addresses of the two windows. -/
theorem locate_eq_ram {a : Addr} {x : Nat} (h : locate a = some (.ram x)) :
    x = a.toNat ∧ x % 4 = 0 ∧ ((0x100 ≤ x ∧ x < 0x200) ∨ (0x400 ≤ x ∧ x < 0x800)) := by
  unfold locate at h
  by_cases h1 : a.toNat % 4 ≠ 0
  · rw [if_pos h1] at h; cases h
  · rw [if_neg h1] at h
    cases hr : regAt a.toNat with
    | some r => simp only [hr] at h; injection h with h; cases h
    | none =>
      simp only [hr] at h
      split_ifs at h with h2
      injection h with h; injection h with h; subst h
      exact ⟨rfl, by omega, (inRamWindow_iff _).1 h2⟩

theorem locate_ram {a : Addr} (h1 : a.toNat % 4 = 0)
    (h2 : (0x100 ≤ a.toNat ∧ a.toNat < 0x200) ∨ (0x400 ≤ a.toNat ∧ a.toNat < 0x800)) :
    locate a = some (.ram a.toNat) := by
  have hr : regAt a.toNat = none := by
    unfold regAt
    split <;> first | rfl | omega
  unfold locate
  rw [if_neg (by omega), hr]
  simp [(inRamWindow_iff a.toNat).2 h2]

/-! ### Steps by the next event -/

theorem step_idle {s : State} (h : s.port = []) : step s = .next s := by unfold step; rw [h]

theorem step_read {s : State} {a : Addr} {rest : List PortEvent} (h : s.port = .read a :: rest) :
    step s = .next ({ s with port := rest }.respond (s.readResponse a)) := by
  unfold step; rw [h]; rfl

theorem step_write {s : State} {a : Addr} {v : Word} {rest : List PortEvent} (h : s.port = .write a v :: rest) :
    step s = writeAccess a v { s with port := rest } := by
  unfold step; rw [h]; rfl

theorem step_reset {s : State} {rest : List PortEvent} (h : s.port = .reset :: rest) :
    step s = .next { s with port := rest }.resetEvent := by
  unfold step; rw [h]; rfl

/-- A write access, by what its address names (R61, R62, R22, R65). -/
theorem writeAccess_none {a : Addr} {v : Word} {s : State} (h : locate a = none) :
    writeAccess a v s = .next (s.respond (.write .error)) := by
  unfold writeAccess; rw [h]

theorem writeAccess_cmd (v : Word) (s : State) :
    writeAccess 0x000 v s = andRespond (.write .okay) (issueCommand v s) := by
  unfold writeAccess; rw [locate_cmd]

theorem writeAccess_store {a : Addr} {v : Word} {s : State} {l : Location} (h : locate a = some l) (hl : l ≠ .reg .cmd) :
    writeAccess a v s = .next ((s.writeLocation l v).respond (.write .okay)) := by
  unfold writeAccess; rw [h]
  split
  · contradiction
  · rename_i h'; injection h' with h'; exact absurd h' hl
  · rename_i h'; injection h' with h'; rw [h']

/-! ### Storing leaves the rest of the state -/

theorem State.writeLane_eq (s : State) (a : Nat) (b : BitVec 8) :
    s.writeLane a b = { s with mem := (s.writeLane a b).mem } := by
  unfold State.writeLane; split <;> rfl

/-- The RAM byte read after a lane write (R69: a lane that names no byte ignores the write). -/
theorem State.ramByte_writeLane (s : State) (a x : Nat) (b : BitVec 8) :
    (s.writeLane a b).ramByte x = if isRamByte a = true ∧ x = a then b else s.ramByte x := by
  unfold State.writeLane
  by_cases h : isRamByte a = true
  · rw [if_pos h, State.ramByte_setRamBytes]
    by_cases hx : x = a
    · subst hx; simp [h]
    · rw [if_neg (by simp; omega), if_neg (by tauto)]
  · rw [if_neg h, if_neg (by tauto)]

theorem State.mem_wf_writeLane {s : State} (a : Nat) (b : BitVec 8) (h : Memory.wf s.mem = true) :
    Memory.wf (s.writeLane a b).mem = true := by
  unfold State.writeLane
  split_ifs with ha
  · exact Memory.wf_insert ha h
  · exact h

end Sys2Proof.Machine
end

