-- ==== Sys2Proof/Machine/HostProgram.lean ====
section
/-! DEFINITION. The assembler and host-program notation of spec/30_encoding.md R94 to R96, as functions to command words and
port events. No step of the machine uses them; they are the spec's spelling of what a host sends (assumption
log 11). -/

namespace Sys2Proof.Machine

/-! ### Commands, R94 -/

/-- The mnemonic column of R86. -/
def mnemonicOf : Op → String
  | .nop => "NOP"
  | .frameBuild => "FRAME_BUILD"
  | .frameParse => "FRAME_PARSE"
  | .addrMatchSrv => "ADDR_MATCH_SRV"
  | .addrMatchCli => "ADDR_MATCH_CLI"
  | .domainEncode => "DOMAIN_ENCODE"
  | .domainDecode => "DOMAIN_DECODE"
  | .bcd8ToBin => "BCD8_TO_BIN"
  | .binToBcd8 => "BIN_TO_BCD8"
  | .intToBcd => "INT_TO_BCD"
  | .bcdToInt => "BCD_TO_INT"
  | .floatToBcd => "FLOAT_TO_BCD"
  | .bcdToFloat => "BCD_TO_FLOAT"
  | .valueValid => "VALUE_VALID"
  | .timeToBcd => "TIME_TO_BCD"
  | .bcdToTime => "BCD_TO_TIME"
  | .u32ToLe4 => "U32_TO_LE4"
  | .le4ToU32 => "LE4_TO_U32"

/-- Every row of R86, in its order. -/
def allOps : List Op :=
  [.nop, .frameBuild, .frameParse, .addrMatchSrv, .addrMatchCli, .domainEncode, .domainDecode, .bcd8ToBin, .binToBcd8,
   .intToBcd, .bcdToInt, .floatToBcd, .bcdToFloat, .valueValid, .timeToBcd, .bcdToTime, .u32ToLe4, .le4ToU32]

/-- How `fmt=` is written: a code, or the mask string of R90. -/
inductive FmtText where
  | code (n : Nat)
  | mask (m : String)
  deriving DecidableEq, Repr

/-- A command as written: its mnemonic and the `key=value` pairs present (R94). -/
structure AsmCommand where
  mnemonic : String
  le : Option Nat := none
  nb : Option Nat := none
  fmt : Option FmtText := none
  deriving DecidableEq, Repr

/-- The code a written `fmt` stands for; an omitted one means 0 (R94). -/
def fmtCode : Option FmtText → Option Nat
  | none => some 0
  | some (.code n) => if n ≤ 7 then some n else none
  | some (.mask m) => formatTable.findIdx? (fun f => f.mask == m)

/-- The command a written command stands for, `none` where R94 does not admit it: a field that is not used must not be written,
an omitted used field means 0, and NB must be written. -/
def assemble (c : AsmCommand) : Option Instr := do
  let op ← allOps.find? (fun o => mnemonicOf o == c.mnemonic)
  if (!op.usesLE && c.le.isSome) || (!op.usesNB && c.nb.isSome) || (!op.usesFMT && c.fmt.isSome) then none
  else
    let le := c.le.getD 0
    let nb := c.nb.getD 0
    let fmt ← fmtCode c.fmt
    if le ≤ 1 ∧ (op.usesNB = true → 1 ≤ nb ∧ nb ≤ 8) then
      some (op.instr (le == 1) (BitVec.ofNat 4 nb) (BitVec.ofNat 4 fmt))
    else none

/-! ### Host program lines, R95 and R96 -/

/-- The words a host program names: a register of R67, or `DATA+k` or `WIRE+k`, k a multiple of 4 (R95). -/
inductive WordName where
  | reg (r : Reg)
  | data (k : Nat)
  | wire (k : Nat)
  deriving DecidableEq, Repr

/-- The offset of a named word (R67, R95). -/
def WordName.offset : WordName → Addr
  | .reg r => r.offset
  | .data k => BitVec.ofNat 12 (dataBase + k)
  | .wire k => BitVec.ofNat 12 (wireBase + k)

/-- The arrays `WRBYTES` may name (R96). -/
inductive ArrayName where
  | data | wire | addr | myAddr | nbuf
  deriving DecidableEq, Repr

/-- The offset of an array's first word (R67). -/
def ArrayName.base : ArrayName → Nat
  | .data => 0x100
  | .wire => 0x400
  | .addr => 0x020
  | .myAddr => 0x028
  | .nbuf => 0x050

/-- Four bytes per word by R68, the last word padded with 0x00 bytes (R96). -/
def packWords : List (BitVec 8) → List Word
  | [] => []
  | [a] => [word4 a 0 0 0]
  | [a, b] => [word4 a b 0 0]
  | [a, b, c] => [word4 a b c 0]
  | a :: b :: c :: d :: rest => word4 a b c d :: packWords rest

/-- One write per word, at rising offsets. -/
def writeWords : Nat → List Word → List PortEvent
  | _, [] => []
  | a, v :: vs => .write (BitVec.ofNat 12 a) v :: writeWords (a + 4) vs

/-- A line of a host program (R95, R96). -/
inductive HostLine where
  /-- `WR <reg>, <value>` -/
  | wr (w : WordName) (v : Word)
  /-- `RD <reg>` -/
  | rd (w : WordName)
  /-- `CMD <command>` -/
  | cmd (i : Instr)
  /-- `WRBYTES <ARR>, k, b0 ... bm` -/
  | wrBytes (arr : ArrayName) (k : Nat) (bs : List (BitVec 8))
  /-- `LOADWIRE b0 ... bm` -/
  | loadWire (bs : List (BitVec 8))
  deriving DecidableEq, Repr

/-- The port accesses of a line (R95, R96). -/
def HostLine.events : HostLine → List PortEvent
  | .wr w v => [.write w.offset v]
  | .rd w => [.read w.offset]
  | .cmd i => [.write Reg.cmd.offset (encode i)]
  | .wrBytes arr k bs => writeWords (arr.base + k) (packWords bs)
  | .loadWire bs => writeWords wireBase (packWords bs) ++ [.write Reg.wireLen.offset (BitVec.ofNat 32 bs.length)]

/-- The port accesses of a host program, in order. -/
def hostProgram (lines : List HostLine) : List PortEvent := (lines.map HostLine.events).flatten

end Sys2Proof.Machine
end

