-- ==== Sys2Proof/Tests/Slice0.lean ====
section
/-! SUPPORT. Tests. Words and expected results are those of spec/95_test_vectors.md (its section is named), or are written out
from the encodings of spec/30_encoding.md R80 and R86. Then one witness for each statement of Obligations.lean that has
hypotheses. -/

namespace Sys2Proof.Tests

open Sys2Proof Sys2Proof.Machine

/-! ### WellFormed refuses an ill-formed term at each check (R82, R83) -/

theorem test_wf_intToBcd_nb : WellFormed (.intToBcd false 0) = false ∧ WellFormed (.intToBcd true 9) = false ∧
    WellFormed (.intToBcd true 1) = true ∧ WellFormed (.intToBcd true 8) = true := by decide
theorem test_wf_bcdToInt_nb : WellFormed (.bcdToInt false 0) = false ∧ WellFormed (.bcdToInt true 15) = false ∧
    WellFormed (.bcdToInt false 8) = true := by decide
theorem test_wf_floatToBcd_fmt : WellFormed (.floatToBcd false 8) = false ∧ WellFormed (.floatToBcd false 7) = true := by decide
theorem test_wf_bcdToFloat_nb : WellFormed (.bcdToFloat false 0 0) = false ∧ WellFormed (.bcdToFloat false 9 0) = false := by
  decide
theorem test_wf_bcdToFloat_fmt : WellFormed (.bcdToFloat false 1 8) = false ∧ WellFormed (.bcdToFloat true 8 7) = true := by
  decide
theorem test_wf_valueValid_fmt : WellFormed (.valueValid 15) = false ∧ WellFormed (.valueValid 0) = true := by decide

/-! ### Decoding, one word per constructor, fields as R80 lays them out: [31:20] 0, FMT, NB, [11:9] 0, LE, OP -/

theorem test_decode_nop : decode 0b000000000000_0000_0000_000_0_00000000 = .ok .nop := by decide
theorem test_decode_frameBuild : decode 0b000000000000_0000_0000_000_0_00000001 = .ok .frameBuild := by decide
theorem test_decode_frameParse : decode 0b000000000000_0000_0000_000_0_00000010 = .ok .frameParse := by decide
theorem test_decode_addrMatchSrv : decode 0b000000000000_0000_0000_000_0_00000011 = .ok .addrMatchSrv := by decide
theorem test_decode_addrMatchCli : decode 0b000000000000_0000_0000_000_0_00000100 = .ok .addrMatchCli := by decide
theorem test_decode_domainEncode : decode 0b000000000000_0000_0000_000_0_00000101 = .ok .domainEncode := by decide
theorem test_decode_domainDecode : decode 0b000000000000_0000_0000_000_0_00000110 = .ok .domainDecode := by decide
theorem test_decode_bcd8ToBin : decode 0b000000000000_0000_0000_000_0_00010000 = .ok .bcd8ToBin := by decide
theorem test_decode_binToBcd8 : decode 0b000000000000_0000_0000_000_0_00010001 = .ok .binToBcd8 := by decide
theorem test_decode_intToBcd : decode 0b000000000000_0000_0100_000_1_00010010 = .ok (.intToBcd true 4) := by decide
theorem test_decode_bcdToInt : decode 0b000000000000_0000_0110_000_1_00010011 = .ok (.bcdToInt true 6) := by decide
theorem test_decode_floatToBcd : decode 0b000000000000_0101_0000_000_1_00010100 = .ok (.floatToBcd true 5) := by decide
theorem test_decode_bcdToFloat : decode 0b000000000000_0110_0010_000_0_00010101 = .ok (.bcdToFloat false 2 6) := by decide
theorem test_decode_valueValid : decode 0b000000000000_0011_0000_000_0_00010110 = .ok (.valueValid 3) := by decide
theorem test_decode_timeToBcd : decode 0b000000000000_0000_0000_000_1_00010111 = .ok (.timeToBcd true) := by decide
theorem test_decode_bcdToTime : decode 0b000000000000_0000_0000_000_1_00011000 = .ok (.bcdToTime true) := by decide
theorem test_decode_u32ToLe4 : decode 0b000000000000_0000_0000_000_0_00011001 = .ok .u32ToLe4 := by decide
theorem test_decode_le4ToU32 : decode 0b000000000000_0000_0000_000_0_00011010 = .ok .le4ToU32 := by decide

/-- 95_test_vectors.md section 2.1: the reserved opcodes. -/
theorem test_decode_badOpcode : decode 0x00000007 = .error .badOpcode ∧ decode 0x0000000F = .error .badOpcode ∧
    decode 0x0000001B = .error .badOpcode ∧ decode 0x000000FF = .error .badOpcode := by decide

/-- 95_test_vectors.md section 2.1: the illegal fields. -/
theorem test_decode_badField : decode 0x00000100 = .error .badField ∧ decode 0x00000201 = .error .badField ∧
    decode 0x00100002 = .error .badField ∧ decode 0x80000010 = .error .badField ∧ decode 0x00000012 = .error .badField ∧
    decode 0x00009012 = .error .badField ∧ decode 0x0000F113 = .error .badField ∧ decode 0x00080014 = .error .badField ∧
    decode 0x000F0016 = .error .badField ∧ decode 0x00011011 = .error .badField ∧ decode 0x00010017 = .error .badField ∧
    decode 0x00000119 = .error .badField ∧ decode 0x00000718 = .error .badField := by decide

/-- 30_encoding.md R94, with the words of 95_test_vectors.md section 2.1 (R94's own two NB examples are misprinted, assumption
log 4). -/
theorem test_assemble : (assemble { mnemonic := "INT_TO_BCD", le := some 1, nb := some 8 }).map encode = some 0x00008112 ∧
    (assemble { mnemonic := "FLOAT_TO_BCD", le := some 1, fmt := some (.mask "XXXXXX.XX") }).map encode = some 0x00000114 ∧
    (assemble { mnemonic := "VALUE_VALID", fmt := some (.mask "XXX.X") }).map encode = some 0x00030016 ∧
    assemble { mnemonic := "NOP", nb := some 1 } = none ∧ assemble { mnemonic := "INT_TO_BCD" } = none := by decide

/-! ### The commands, each on a small state -/

/-- What a command leaves, looked at through a test. -/
def after (i : Instr) (s : State) (p : State → Bool) : Bool :=
  match exec i s with
  | .next t => p t
  | .fault _ => false
  | .refused _ => false

/-- What the next port event leaves. -/
def afterStep (s : State) (p : State → Bool) : Bool :=
  match step s with
  | .next t => p t
  | .fault _ => false
  | .refused _ => false

/-- The reset state with a byte array loaded in WIRE, and its length (R96, LOADWIRE). -/
def withWire (bs : List (BitVec 8)) : State :=
  { State.reset with mem := Memory.insertBytes [] 0x400 bs, wireLen := BitVec.ofNat 11 bs.length }

/-- The reset state with a byte array loaded in DATA, and its length. -/
def withData (bs : List (BitVec 8)) : State :=
  { State.reset with mem := Memory.insertBytes [] 0x100 bs, dlen := BitVec.ofNat 8 bs.length }

/-- The reset state with a string in NBUF. -/
def withNbuf (bs : List (BitVec 8)) : State := { State.reset with nbuf := fillNbuf bs }

/-- The first bytes of WIRE. -/
def wireOf (t : State) (n : Nat) : List (BitVec 8) := (List.range n).map t.wireByte

/-- The response frame of V1. -/
def v1 : List (BitVec 8) :=
  [0xFE, 0xFE, 0xFE, 0xFE, 0x68, 0x00, 0x00, 0x00, 0x00, 0x00, 0x00, 0x68, 0x91, 0x08, 0x33, 0x33, 0x33, 0x33, 0x89, 0x67,
   0x45, 0x33, 0x9D, 0x16]

/-- The smallest frame of section 2.6. -/
def smallest : List (BitVec 8) := [0x68, 0x00, 0x00, 0x00, 0x00, 0x00, 0x00, 0x68, 0x11, 0x00, 0xE1, 0x16]

/-- 45_misc.md R240's example. -/
theorem test_nop : after .nop { State.reset with statErr := 0x14, statSticky := true, statFv := true }
    (fun t => t.statErr == 0 && t.statSticky && t.statFv) = true := by decide

/-- Section 2.6, the wrap row. -/
theorem test_frameBuild : after .frameBuild
    { withData [0xCC, 0xCD, 0xFF, 0x00, 0x68, 0x16] with addr := #v[1, 2, 3, 4, 5, 6], ctrl := 0x14 }
    (fun t => wireOf t 22 == [0xFE, 0xFE, 0xFE, 0xFE, 0x68, 0x01, 0x02, 0x03, 0x04, 0x05, 0x06, 0x68, 0x14, 0x06, 0xFF, 0x00,
      0x32, 0x33, 0x9B, 0x49, 0x47, 0x16] && t.wireLen == 22 && t.frameOff == 4 && t.frameLen == 18 && t.statErr == 0) =
    true := by decide +kernel

/-- Section 2.9: the 16-byte frame after reset. -/
theorem test_frameBuild_empty : after .frameBuild State.reset
    (fun t => wireOf t 16 == [0xFE, 0xFE, 0xFE, 0xFE, 0x68, 0, 0, 0, 0, 0, 0, 0x68, 0, 0, 0xD0, 0x16] && t.wireLen == 16) =
    true := by decide +kernel

/-- Section 2.6, the V1 response row. -/
theorem test_frameParse : after .frameParse (withWire v1)
    (fun t => t.statErr == 0 && t.statFv && t.frameOff == 4 && t.frameLen == 20 && t.ctrl == 0x91 && t.dlen == 8 &&
      t.dataBytes 8 == [0, 0, 0, 0, 0x56, 0x34, 0x12, 0]) = true := by decide +kernel

/-- Section 2.6, the row with noise holding a 0x68 ahead. -/
theorem test_frameParse_noise : after .frameParse (withWire
    [0xFE, 0x68, 0xFE, 0xFE, 0x68, 0, 0, 0, 0, 0, 0, 0x68, 0x11, 0x04, 0x33, 0x33, 0x33, 0x33, 0xB1, 0x16])
    (fun t => t.statErr == 0x12 && !t.statFv && t.statSticky && t.frameLen == 0) = true := by decide +kernel

/-- Section 2.7. -/
theorem test_addrMatchSrv : after .addrMatchSrv { State.reset with addr := bcastAA } (fun t => t.statMatch) = true ∧
    after .addrMatchSrv { State.reset with addr := #v[0xAA, 0xAA, 0xAA, 0xAA, 0xAA, 0] } (fun t => !t.statMatch) = true := by
  decide

/-- Section 2.7. -/
theorem test_addrMatchCli : after .addrMatchCli { State.reset with addr := bcastAA } (fun t => !t.statMatch) = true ∧
    after .addrMatchCli { State.reset with addr := bcast99 } (fun t => t.statMatch) = true := by decide

/-- Section 2.6, DOMAIN_ENCODE. -/
theorem test_domainEncode : after .domainEncode { withData [0x12, 0x34, 0x56] with dlen := 2 }
    (fun t => t.dataBytes 3 == [0x45, 0x67, 0x56]) = true := by decide +kernel

/-- Section 2.6, DOMAIN_DECODE. -/
theorem test_domainDecode : after .domainDecode (withData [0x00, 0x32, 0x33, 0x68])
    (fun t => t.dataBytes 4 == [0xCD, 0xFF, 0x00, 0x35]) = true := by decide +kernel

/-- Section 2.3. -/
theorem test_bcd8ToBin : after .bcd8ToBin { State.reset with opa := 0xFFFFFFFFFFFFFF42 } (fun t => t.result == 42) = true := by
  decide
theorem test_bcd8ToBin_digit : after .bcd8ToBin { State.reset with opa := 0x9A, result := 0x5555 }
    (fun t => t.result == 0 && t.statErr == 0x20 && t.statSticky) = true := by decide

/-- Section 2.3. -/
theorem test_binToBcd8 : after .binToBcd8 { State.reset with opa := 56 } (fun t => t.result == 0x56) = true := by decide
theorem test_binToBcd8_overflow : after .binToBcd8 { State.reset with opa := 4294967301, result := 0x5555 }
    (fun t => t.result == 0 && t.statErr == 0x21) = true := by decide

/-- Section 2.3: 123456 little-endian in 4 bytes. -/
theorem test_intToBcd : after (.intToBcd true 4) { withNbuf (List.replicate 8 0xEE) with opa := 123456 }
    (fun t => t.nbuf == #v[0x56, 0x34, 0x12, 0, 0, 0, 0, 0] && t.nlenProduced == 4 && t.nlenDeclared == 4) = true := by
  decide +kernel
theorem test_intToBcd_overflow : after (.intToBcd false 1)
    { withNbuf (List.replicate 8 0xEE) with opa := 100, nlenProduced := 8, nlenDeclared := 8 }
    (fun t => t.nbuf == #v[0, 0, 0, 0, 0, 0, 0, 0] && t.nlenProduced == 0 && t.nlenDeclared == 0 && t.statErr == 0x21) = true := by
  decide +kernel

/-- Section 2.3. -/
theorem test_bcdToInt : after (.bcdToInt true 6) (withNbuf [1, 2, 3, 4, 5, 6]) (fun t => t.result == 60504030201) = true := by
  decide +kernel
theorem test_bcdToInt_ignores_rest : after (.bcdToInt false 2) (withNbuf [0x12, 0x34, 0xFF, 0xFF])
    (fun t => t.result == 1234 && t.statErr == 0) = true := by decide +kernel

/-- Section 2.4: -1.5 under XX.XX, the sign on the pad byte. -/
theorem test_floatToBcd : after (.floatToBcd true 5) { withNbuf (List.replicate 8 0xEE) with fval := 0xBFC00000 }
    (fun t => t.nbuf == #v[0x50, 0x01, 0x00, 0x80, 0, 0, 0, 0] && t.nlenProduced == 4 && t.nlenDeclared == 2) = true := by
  decide +kernel
/-- Section 2.4: 0.125 rounds away from zero. -/
theorem test_floatToBcd_half : after (.floatToBcd false 5) { State.reset with fval := 0x3E000000 }
    (fun t => t.nbuf == #v[0, 0, 0, 0x13, 0, 0, 0, 0]) = true := by decide +kernel

/-- Section 2.4: all nines under XXXXXXXXXXXX with the sign bit. -/
theorem test_bcdToFloat : after (.bcdToFloat false 8 7) (withNbuf (List.replicate 8 0x99))
    (fun t => t.result == 1999999999999999 && t.statNeg && t.fval == 0xD8E35FA9) = true := by decide +kernel
/-- Section 2.4: `80 8A` is invalid. -/
theorem test_bcdToFloat_digit : after (.bcdToFloat false 2 5)
    { withNbuf [0x80, 0x8A] with fval := 0x3F800000, result := 0x5555, statNeg := true }
    (fun t => t.result == 0 && !t.statNeg && t.fval == 0 && t.statErr == 0x20) = true := by decide +kernel

/-- Section 2.4, the largest valid binary32 under XXXX.XX and the next up. -/
theorem test_valueValid : after (.valueValid 1) { State.reset with fval := 0x45F9FFF5 } (fun t => t.statMatch) = true ∧
    after (.valueValid 1) { State.reset with fval := 0x45F9FFF6, statMatch := true } (fun t => !t.statMatch) = true := by
  decide +kernel

/-- Section 2.5. -/
theorem test_timeToBcd : after (.timeToBcd false)
    { State.reset with tYear := 1999, tMonth := 12, tDay := 31, tHour := 23, tMin := 59 }
    (fun t => t.nbuf == #v[0x99, 0x12, 0x31, 0x23, 0x59, 0, 0, 0] && t.nlenProduced == 5 && t.nlenDeclared == 5) = true := by
  decide +kernel
theorem test_timeToBcd_field : after (.timeToBcd true)
    { withNbuf (List.replicate 8 0xEE) with tYear := 2025, tMonth := 1, tDay := 1, tMin := 100 }
    (fun t => t.nbuf == #v[0, 0, 0, 0, 0, 0, 0, 0] && t.statErr == 0x23) = true := by decide +kernel

/-- Section 2.5. -/
theorem test_bcdToTime : after (.bcdToTime true) (withNbuf [0x30, 0x10, 0x11, 0x11, 0x25, 0xFF, 0xFF, 0xFF])
    (fun t => t.tYear == 2025 && t.tMonth == 11 && t.tDay == 11 && t.tHour == 10 && t.tMin == 30) = true := by decide +kernel
theorem test_bcdToTime_digit : after (.bcdToTime false) { withNbuf [0x25, 0x1A, 0x11, 0x10, 0x30] with tYear := 1, tMonth := 1 }
    (fun t => t.tYear == 0 && t.tMonth == 0 && t.statErr == 0x20) = true := by decide +kernel

/-- Section 2.3. -/
theorem test_u32ToLe4 : after .u32ToLe4 { State.reset with opa := 0xFFFFFFFF12345678 }
    (fun t => t.nbuf == #v[0x78, 0x56, 0x34, 0x12, 0, 0, 0, 0] && t.nlenProduced == 4) = true := by decide
theorem test_le4ToU32 : after .le4ToU32 (withNbuf [0x00, 0x01, 0x01, 0x02, 0x77, 0x77]) (fun t => t.result == 0x02010100) = true := by
  decide

/-! ### The port, one step each (section 2.2) -/

theorem test_port_misaligned : afterStep { State.reset with port := [.write 0x002 0x12345678] }
    (fun t => t.responses == [.write .error]) = true := by decide
theorem test_port_unmapped : afterStep { State.reset with port := [.read 0x800] }
    (fun t => t.responses == [.read .error 0]) = true := by decide
theorem test_port_wireLen : afterStep { State.reset with port := [.write 0x008 0xFFFFFFFF] }
    (fun t => t.wireLen == 2047 && t.responses == [.write .okay]) = true := by decide
theorem test_port_lastDataWord : afterStep { State.reset with port := [.write 0x1FC 0xAABBCCDD] }
    (fun t => t.mem == [(0x1FC, 0xDD), (0x1FD, 0xCC), (0x1FE, 0xBB)] && t.readResponse 0x1FC == .read .okay 0x00BBCCDD) = true := by
  decide +kernel
theorem test_port_badOpcode : afterStep { State.reset with port := [.write 0x000 0x000000FF] }
    (fun t => t.cmd == 0xFF && t.statusWord == 0x801) = true := by decide
theorem test_port_reset : afterStep { State.reset with statSticky := true, mem := [(0x100, 1)], port := [.reset] }
    (fun t => t == { State.reset with resets := 1 }) = true := by decide +kernel
theorem test_withFetchWord : afterStep (State.reset.withFetchWord 32 0x00000010)
    (fun t => t.cmd == 0x10 && t.statErr == 0 && t.responses == [.write .okay]) = true := by decide +kernel

/-! ### Witnesses: for each statement with hypotheses, values that meet all of them, at the bounds of its clauses -/

theorem witness_ReservedAndIllegalWordsAreRefused : (0x00000112 % 256, true, true, false) ∈ opcodeMap ∧
    decode 0x00000112 = .error .badField ∧ decode 0x00001112 = .ok (.intToBcd true 1) := by decide

theorem witness_DecodeOfEncode : WellFormed (.bcdToFloat true 8 7) = true ∧ WellFormed (.bcdToFloat false 1 0) = true := by decide

theorem witness_EncodeOfDecode : decode 0x00078115 = .ok (.bcdToFloat true 8 7) := by decide

theorem witness_StepRunsTheDecodedCommand :
    ({ State.reset with port := [.write 0x000 0x00004112] } : State).port = .write 0x000 0x00004112 :: [] ∧
    decode 0x00004112 = .ok (.intToBcd true 4) := by decide

theorem witness_FailedDecodeWritesOnlyCmdErrSticky :
    ({ State.reset with port := [.write 0x000 0x07, .read 0x004] } : State).port = .write 0x000 0x07 :: [.read 0x004] ∧
    (0x07 ≤ (0x07 : Word).toNat % 256 ∧ (0x07 : Word).toNat % 256 ≤ 0x0F) ∧ 0x1B ≤ (0xFF : Word).toNat % 256 ∧
    ({ State.reset with port := [.write 0x000 0x0100] } : State).port = .write 0x000 0x0100 :: [] ∧
    decode 0x0100 = .error .badField := by decide

theorem witness_CmdHoldsTheLastWordWritten :
    ({ State.reset with port := [.write 0x000 0xFF] } : State).port = .write 0x000 0xFF :: [] := by decide

theorem witness_CmdHoldsTheLastWordWritten_step : step { State.reset with cmd := 5 } = .next { State.reset with cmd := 5 } ∧
    decode 0x00000000 = .ok .nop := ⟨rfl, by decide⟩

theorem witness_ReadsHaveNoSideEffect : ({ State.reset with port := [.read 0x7FC] } : State).port = .read 0x7FC :: [] := by decide

/-- A misaligned address, and both ends of each unmapped range. -/
theorem witness_MisalignedAndUnmappedAnswerError :
    ((0x001 : Addr).toNat % 4 ≠ 0) ∧ ((0xFFF : Addr).toNat % 4 ≠ 0) ∧
    (∀ a ∈ ([0x04C, 0x058, 0x0FC, 0x200, 0x3FC, 0x800, 0xFFC] : List Addr), Unmapped a.toNat) ∧
    ({ State.reset with port := [.read 0x200] } : State).port = .read 0x200 :: [] ∧
    ({ State.reset with port := [.write 0x3FC 1] } : State).port = .write 0x3FC 1 :: [] := by
  simp [Unmapped]

/-- The first and last mapped offset of each mapped range. -/
theorem witness_MappedAccessesAnswerOkay :
    (∀ a ∈ ([0x000, 0x048, 0x050, 0x054, 0x100, 0x1FC, 0x400, 0x7FC] : List Addr), a.toNat % 4 = 0 ∧ ¬ Unmapped a.toNat) ∧
    ({ State.reset with port := [.read 0x7FC] } : State).port = .read 0x7FC :: [] ∧
    ({ State.reset with port := [.write 0x048 1] } : State).port = .write 0x048 1 :: [] := by
  simp [Unmapped]

theorem witness_RamWindowsReadTheBytes : (62 < 63 ∧ BitVec.ofNat 12 (0x100 + 4 * 62) = 0x1F8) ∧
    (255 < 256 ∧ BitVec.ofNat 12 (0x400 + 4 * 255) = 0x7FC) := by decide

theorem witness_ReadOnlyWritesAreIgnored : (0x03C : Addr) ∈ ([0x004, 0x00C, 0x010, 0x01C, 0x038, 0x03C] : List Addr) ∧
    ({ State.reset with port := [.write 0x03C 5] } : State).port = .write 0x03C 5 :: [] := by decide

/-- A word of each writable width, the last DATA word and its neighbour, the ends of the WIRE window. -/
theorem witness_ReadAfterWriteReturnsDefinedBits :
    writableBits 0x054 = some 0xFFFFFFFF ∧ writableBits 0x048 = some 0x0000FFFF ∧ writableBits 0x018 = some 0x000000FF ∧
    writableBits 0x008 = some 0x000007FF ∧ writableBits 0x1F8 = some 0xFFFFFFFF ∧ writableBits 0x1FC = some 0x00FFFFFF ∧
    writableBits 0x400 = some 0xFFFFFFFF ∧ writableBits 0x7FC = some 0xFFFFFFFF ∧ writableBits 0x000 = none ∧
    ({ State.reset with port := [.write 0x1FC 1, .read 0x1FC] } : State).port = .write 0x1FC 1 :: .read 0x1FC :: [] := by
  decide

theorem witness_WriteLeavesOtherWords : (0x100 : Addr).toNat ≠ 0x000 ∧ (0x104 : Addr) ≠ 0x100 ∧
    ({ State.reset with port := [.write 0x100 1] } : State).port = .write 0x100 1 :: [] := by decide

theorem witness_RamWriteStoresItsLanes :
    (∀ a ∈ ([0x100, 0x1FC, 0x400, 0x7FC] : List Addr), a.toNat % 4 = 0 ∧
      ((0x100 ≤ a.toNat ∧ a.toNat ≤ 0x1FC) ∨ (0x400 ≤ a.toNat ∧ a.toNat ≤ 0x7FC))) ∧
    ({ State.reset with port := [.write 0x1FC 1] } : State).port = .write 0x1FC 1 :: [] := by simp

theorem witness_ResetEventRestartsTheBlock : ({ State.reset with statSticky := true, port := [.reset] } : State).port = .reset :: [] := by
  decide

theorem witness_NopWritesOnlyErr : (0x00000100 : Word).toNat % 256 = 0 ∧ (0x00000100 : Word) ≠ 0 := by decide

theorem witness_BcdStringIsUnique : 9999 < 100 ^ 2 ∧ ([0x99, 0x99] : List (BitVec 8)).length = 2 ∧
    (∀ b ∈ ([0x99, 0x99] : List (BitVec 8)), IsBcdByte b) ∧ bcdSum [0x99, 0x99] = 9999 :=
  ⟨by decide, rfl, by unfold IsBcdByte; decide, by simp [bcdSum, Finset.sum_range_succ]⟩

theorem witness_Bcd8ToBinResult : ((0x99 : BitVec 64).toNat % 256 / 16 ≤ 9 ∧ (0x99 : BitVec 64).toNat % 16 ≤ 9) ∧
    ¬ ((0x9A : BitVec 64).toNat % 256 / 16 ≤ 9 ∧ (0x9A : BitVec 64).toNat % 16 ≤ 9) := by decide

theorem witness_BinToBcd8Result : (99 : BitVec 64).toNat ≤ 99 ∧ (100 : BitVec 64).toNat > 99 := by decide

/-- The least and the greatest NB, with the greatest value that fits and the least that does not. -/
theorem witness_IntToBcdResult : (1 ≤ (1 : BitVec 4).toNat ∧ (1 : BitVec 4).toNat ≤ 8 ∧ (99 : BitVec 64).toNat < 100 ^ (1 : BitVec 4).toNat ∧
      (100 : BitVec 64).toNat ≥ 100 ^ (1 : BitVec 4).toNat) ∧
    (1 ≤ (8 : BitVec 4).toNat ∧ (8 : BitVec 4).toNat ≤ 8 ∧ (9999999999999999 : BitVec 64).toNat < 100 ^ (8 : BitVec 4).toNat ∧
      (10000000000000000 : BitVec 64).toNat ≥ 100 ^ (8 : BitVec 4).toNat) := by decide

theorem witness_BcdToIntResult : 1 ≤ (2 : BitVec 4).toNat ∧ (2 : BitVec 4).toNat ≤ 8 ∧
    [0x34, 0x12] = revIf true ((withNbuf [0x12, 0x34, 0xFF]).nbuf.toList.take (2 : BitVec 4).toNat) ∧
    (∀ b ∈ ([0x34, 0x12] : List (BitVec 8)), IsBcdByte b) ∧
    [0x12, 0x3A] = revIf false ((withNbuf [0x12, 0x3A]).nbuf.toList.take (2 : BitVec 4).toNat) ∧
    ¬ (∀ b ∈ ([0x12, 0x3A] : List (BitVec 8)), IsBcdByte b) := by
  unfold IsBcdByte; decide

theorem witness_IntegerRoundTrips : 1 ≤ (8 : BitVec 4).toNat ∧ (8 : BitVec 4).toNat ≤ 8 ∧
    ({ State.reset with opa := 9999999999999999 } : State).opa.toNat < 100 ^ (8 : BitVec 4).toNat := by decide

/-- The scaled magnitude is at most m when the exact value is below m + 1/2. -/
theorem scaledValue_le {x : BitVec 32} {d m : Nat}
    (h : (f32Mant x : ℚ) * (2 : ℚ) ^ ((f32Unit x : ℤ) - 150) * 10 ^ d + 1 / 2 < m + 1) : scaledValue x d ≤ m := by
  unfold scaledValue
  rw [abs_f32Real]
  have : ⌊(f32Mant x : ℚ) * (2 : ℚ) ^ ((f32Unit x : ℤ) - 150) * 10 ^ d + 1 / 2⌋₊ < m + 1 := by
    rw [Nat.floor_lt (by positivity)]
    exact_mod_cast h
  omega

/-- 75.0 = 9830400 * 2^-17, under XX.XXXX. -/
theorem valid_75 : ValidFor 0x42960000 ⟨6, 4, "XX.XXXX"⟩ := by
  refine ⟨by decide, scaledValue_le ?_⟩
  rw [show f32Mant 0x42960000 = 9830400 by decide, show f32Unit 0x42960000 = 133 by decide,
    show (⟨6, 4, "XX.XXXX"⟩ : Format).maxScaled = 799999 by decide]
  norm_num

/-- -0.001 = -8589935 * 2^-33, and -0.0, under XX.XX. -/
theorem valid_small (x : BitVec 32) (hx : x = 0xBA83126F ∨ x = 0x80000000) : ValidFor x ⟨4, 2, "XX.XX"⟩ ∧ scaledValue x 2 = 0 := by
  have h0 : scaledValue x 2 = 0 := by
    refine Nat.le_zero.1 (scaledValue_le ?_)
    rcases hx with rfl | rfl
    · rw [show f32Mant 0xBA83126F = 8589935 by decide, show f32Unit 0xBA83126F = 117 by decide]; norm_num
    · rw [show f32Mant 0x80000000 = 0 by decide]; norm_num
  refine ⟨⟨by rcases hx with rfl | rfl <;> decide, ?_⟩, h0⟩
  show scaledValue x 2 ≤ _
  rw [h0]; exact Nat.zero_le _

/-- The tie 2^24 + 1 between two neighbours, with d = 0, and the other neighbour as z. -/
theorem witness_RoundingIsNearestEven : 16777217 < 10 ^ 16 ∧ 0 ≤ 4 ∧ f32Finite 0x4B800001 = true ∧
    |f32Real 0x4B800001| ≠ |f32Real (rndF32 false 16777217 (10 ^ 0))| ∧
    abs (((16777217 : ℕ) : ℚ) / 10 ^ 0 - |f32Real (rndF32 false 16777217 (10 ^ 0))|) =
      abs (((16777217 : ℕ) : ℚ) / 10 ^ 0 - |f32Real 0x4B800001|) := by
  rw [show rndF32 false 16777217 (10 ^ 0) = 0x4B800000 by decide +kernel, abs_f32Real, abs_f32Real,
    show f32Mant 0x4B800000 = 8388608 by decide, show f32Unit 0x4B800000 = 151 by decide,
    show f32Mant 0x4B800001 = 8388609 by decide, show f32Unit 0x4B800001 = 151 by decide]
  exact ⟨by norm_num, by norm_num, by decide, by norm_num, by norm_num⟩

theorem witness_ScaledMagnitudeIsExact : f32Exp 0x7FC00000 = 255 := by decide

theorem witness_FloatToBcdResult : (formatOf 4 = some ⟨6, 4, "XX.XXXX"⟩ ∧ ValidFor 0x42960000 ⟨6, 4, "XX.XXXX"⟩) ∧
    (formatOf 0 = some ⟨8, 2, "XXXXXX.XX"⟩ ∧ ¬ ValidFor 0x7FC00000 ⟨8, 2, "XXXXXX.XX"⟩) :=
  ⟨⟨by decide, valid_75⟩, by decide, fun h => absurd rfl h.1⟩

theorem witness_BcdToFloatResult : (1 ≤ (2 : BitVec 4).toNat ∧ (2 : BitVec 4).toNat ≤ 8 ∧ formatOf 5 = some ⟨4, 2, "XX.XX"⟩) ∧
    0x80 :: [0x50] = revIf true ((withNbuf [0x50, 0x80]).nbuf.toList.take (2 : BitVec 4).toNat) ∧
    (∀ b ∈ BitVec.ofNat 8 ((0x80 : BitVec 8).toNat % 128) :: [0x50], IsBcdByte b) ∧
    0x80 :: [0x8A] = revIf false ((withNbuf [0x80, 0x8A]).nbuf.toList.take (2 : BitVec 4).toNat) ∧
    ¬ (∀ b ∈ BitVec.ofNat 8 ((0x80 : BitVec 8).toNat % 128) :: [0x8A], IsBcdByte b) := by
  unfold IsBcdByte; decide

theorem witness_ValueValidResult : formatOf 7 = some ⟨12, 0, "XXXXXXXXXXXX"⟩ := by decide

theorem witness_FloatRoundTrip : (formatOf 4 = some ⟨6, 4, "XX.XXXX"⟩ ∧
      ValidFor ({ State.reset with fval := 0x42960000 } : State).fval ⟨6, 4, "XX.XXXX"⟩) ∧
    (formatOf 5 = some ⟨4, 2, "XX.XX"⟩ ∧ ValidFor 0x80000000 ⟨4, 2, "XX.XX"⟩ ∧ ValidFor 0xBA83126F ⟨4, 2, "XX.XX"⟩ ∧
      f32Real 0xBA83126F < 0 ∧ scaledValue 0xBA83126F 2 = 0) :=
  ⟨⟨by decide, valid_75⟩, by decide, (valid_small _ (.inr rfl)).1, (valid_small _ (.inl rfl)).1,
    (f32IsNeg_iff _).1 (by decide), (valid_small _ (.inl rfl)).2⟩

theorem witness_FloatRoundTripWithinHalfUlpOfOperand : ∃ s t u : State, formatOf 4 = some ⟨6, 4, "XX.XXXX"⟩ ∧
    ValidFor s.fval ⟨6, 4, "XX.XXXX"⟩ ∧ exec (.floatToBcd false 4) s = .next t ∧
    exec (.bcdToFloat false t.nlenProduced 4) t = .next u := by
  have next1 : ∀ (le : Bool) (fmt : BitVec 4) (s : State), ∃ t, exec (.floatToBcd le fmt) s = .next t := by
    intro le fmt s
    rcases execFloatToBcd_cases le fmt s with ⟨_, h⟩ | ⟨_, _, _, h⟩ | ⟨_, _, _, h⟩ <;> exact ⟨_, h⟩
  have next2 : ∀ (le : Bool) (nb fmt : BitVec 4) (s : State), ∃ t, exec (.bcdToFloat le nb fmt) s = .next t := by
    intro le nb fmt s
    rcases execBcdToFloat_cases le nb fmt s with ⟨_, h⟩ | ⟨_, _, _, _, h⟩ | ⟨_, _, _, _, h⟩ <;> exact ⟨_, h⟩
  obtain ⟨t, ht⟩ := next1 false 4 { State.reset with fval := 0x42960000 }
  obtain ⟨u, hu⟩ := next2 false t.nlenProduced 4 t
  exact ⟨{ State.reset with fval := 0x42960000 }, t, u, by decide, valid_75, ht, hu⟩

theorem witness_CutStringLosesTheSign : formatOf 5 = some ⟨4, 2, "XX.XX"⟩ ∧ (⟨4, 2, "XX.XX"⟩ : Format).width < 4 ∧
    ValidFor 0xBA83126F ⟨4, 2, "XX.XX"⟩ := ⟨by decide, by decide, (valid_small _ (.inl rfl)).1⟩

theorem witness_TimeToBcdResult : (100 : BitVec 8).toNat > 99 ∧ (99 : BitVec 8).toNat ≤ 99 := by decide

theorem witness_BcdToTimeResult :
    [0x25, 0x11, 0x11, 0x10, 0x30] = revIf true ((withNbuf [0x30, 0x10, 0x11, 0x11, 0x25, 0xFF]).nbuf.toList.take 5) ∧
    (∀ b ∈ ([0x25, 0x11, 0x11, 0x10, 0x30] : List (BitVec 8)), IsBcdByte b) ∧
    [0x25, 0x1A, 0x11, 0x10, 0x30] = revIf false ((withNbuf [0x25, 0x1A, 0x11, 0x10, 0x30]).nbuf.toList.take 5) ∧
    ¬ (∀ b ∈ ([0x25, 0x1A, 0x11, 0x10, 0x30] : List (BitVec 8)), IsBcdByte b) := by
  unfold IsBcdByte; decide

theorem witness_TimeRoundTrip : ∃ s : State, s.tMonth.toNat ≤ 99 ∧ s.tDay.toNat ≤ 99 ∧ s.tHour.toNat ≤ 99 ∧ s.tMin.toNat ≤ 99 :=
  ⟨{ State.reset with tYear := 65535, tMonth := 99, tDay := 31, tHour := 24, tMin := 60 }, by decide⟩

/-- The longest data domain. -/
theorem witness_FrameBuildResult : 255 = ({ State.reset with dlen := 255 } : State).dlen.toNat := by decide

/-- `sum256` as the list sum, which evaluates. -/
theorem sum256_eval (s : State) (i n : Nat) : sum256 s.wireByte i (i + n) = s.sumWire i n := (s.sumWire_eq_sum256 i n).symm

theorem leastStart_of (s : State) (n p : Nat) (h : s.firstStart n = some p) : LeastStart s n p :=
  (s.firstStart_eq_some_iff n p).1 h

/-- WIRE_LEN above 1024, and no start marker at WIRE_LEN 1024 and below it. -/
theorem witness_FrameParseResult_before_scan :
    (1025 = ({ withWire v1 with wireLen := 1025 } : State).wireLen.toNat ∧ 1025 > 1024) ∧
    (4 = (withWire [0xFE, 0xFE, 0xFE, 0xFE]).wireLen.toNat ∧ 4 ≤ 1024 ∧
      ∀ i < 4, (withWire [0xFE, 0xFE, 0xFE, 0xFE]).wireByte i ≠ 0x68) := by decide +kernel

/-- A frame cut to 11 bytes: one byte short of the least a frame has. -/
theorem witness_FrameParseResult_short : LeastStart (withWire (smallest.take 11)) 11 0 ∧ 11 - (0 + 1) < 11 :=
  ⟨leastStart_of _ _ _ (by decide +kernel), by decide⟩

/-- Eleven bytes after the first 0x68, the second marker wrong. -/
theorem witness_FrameParseResult_second :
    LeastStart (withWire [0xFE, 0x68, 0, 0, 0, 0, 0, 0, 0x69, 0x11, 0, 0xE2, 0x16]) 13 1 ∧ 11 ≤ 13 - (1 + 1) ∧
    (withWire [0xFE, 0x68, 0, 0, 0, 0, 0, 0, 0x69, 0x11, 0, 0xE2, 0x16]).wireByte (1 + 7) ≠ 0x68 :=
  ⟨leastStart_of _ _ _ (by decide +kernel), by decide, by decide +kernel⟩

/-- The end marker one byte beyond WIRE_LEN. -/
theorem witness_FrameParseResult_length : LeastStart (withWire (v1.take 23)) 23 4 ∧ 11 ≤ 23 - (4 + 1) ∧
    (withWire (v1.take 23)).wireByte (4 + 7) = 0x68 ∧ 4 + 12 + ((withWire (v1.take 23)).wireByte (4 + 9)).toNat > 23 :=
  ⟨leastStart_of _ _ _ (by decide +kernel), by decide, by decide +kernel, by decide +kernel⟩

/-- The checksum off by one; the end marker wrong; all checks passed with the frame ending at WIRE_LEN. -/
theorem witness_FrameParseResult_checksum : LeastStart (withWire (smallest.set 10 0xE2)) 12 0 ∧
    (withWire (smallest.set 10 0xE2)).wireByte (0 + 7) = 0x68 ∧
    0 + 12 + ((withWire (smallest.set 10 0xE2)).wireByte (0 + 9)).toNat ≤ 12 ∧
    sum256 (withWire (smallest.set 10 0xE2)).wireByte 0 (0 + 10) ≠ (withWire (smallest.set 10 0xE2)).wireByte 10 :=
  ⟨leastStart_of _ _ _ (by decide +kernel), by decide +kernel, by decide +kernel, by rw [sum256_eval]; decide +kernel⟩

theorem witness_FrameParseResult_end : LeastStart (withWire (smallest.set 11 0x17)) 12 0 ∧
    (withWire (smallest.set 11 0x17)).wireByte (0 + 7) = 0x68 ∧
    0 + 12 + ((withWire (smallest.set 11 0x17)).wireByte (0 + 9)).toNat ≤ 12 ∧
    sum256 (withWire (smallest.set 11 0x17)).wireByte 0 (0 + 10) = (withWire (smallest.set 11 0x17)).wireByte 10 ∧
    (withWire (smallest.set 11 0x17)).wireByte 11 ≠ 0x16 :=
  ⟨leastStart_of _ _ _ (by decide +kernel), by decide +kernel, by decide +kernel, by rw [sum256_eval]; decide +kernel,
    by decide +kernel⟩

theorem witness_FrameParseResult_ok : LeastStart (withWire smallest) 12 0 ∧ 12 = (withWire smallest).wireLen.toNat ∧
    0 = ((withWire smallest).wireByte (0 + 9)).toNat ∧ 11 ≤ 12 - (0 + 1) ∧ (withWire smallest).wireByte (0 + 7) = 0x68 ∧
    sum256 (withWire smallest).wireByte 0 (0 + 10) = (withWire smallest).wireByte 10 ∧ (withWire smallest).wireByte 11 = 0x16 :=
  ⟨leastStart_of _ _ _ (by decide +kernel), by decide, by decide +kernel, by decide, by decide +kernel,
    by rw [sum256_eval]; decide +kernel, by decide +kernel⟩

theorem witness_FailedParseExposesNothing : ∃ t, exec .frameParse State.reset = .next t ∧ t.statErr ≠ 0x00 :=
  ⟨_, execFrameParse_error (e := .noStart) rfl, by decide⟩

theorem witness_FrameRoundTrip : ∃ t t' : State, exec .frameBuild State.reset = .next t ∧ t'.wireLen = t.wireLen ∧
    ∀ i < 1024, t'.wireByte i = t.wireByte i := ⟨_, _, rfl, rfl, fun _ _ => rfl⟩

/-- A frame with nothing around it parses. -/
theorem smallest_parses : exec .frameParse (withWire smallest) = .next (((withWire smallest).loadFrame 0).setFv true).withOk :=
  execFrameParse_ok (by decide +kernel)

/-- The same frame after two bytes of noise and before one more byte. -/
theorem witness_ParseIgnoresNoiseAndTrailingBytes :
    let t := (((withWire smallest).loadFrame 0).setFv true).withOk
    let s' := withWire ([0xFE, 0x55] ++ smallest ++ [0x68])
    exec .frameParse (withWire smallest) = .next t ∧ t.statErr = 0x00 ∧ s'.wireLen.toNat ≤ 1024 ∧
      LeastStart s' s'.wireLen.toNat 2 ∧ 2 + t.frameLen.toNat ≤ s'.wireLen.toNat ∧
      ∀ i < t.frameLen.toNat, s'.wireByte (2 + i) = (withWire smallest).wireByte (t.frameOff.toNat + i) :=
  ⟨smallest_parses, rfl, by decide, leastStart_of _ _ _ (by decide +kernel), by decide +kernel, by decide +kernel⟩

/-- A write of one WIRE byte leaves the others. -/
theorem wireByte_flip (s : State) (m : Nat) (v : BitVec 8) : (s.setRamBytes (0x400 + m) [v]).wireByte m = v ∧
    ∀ i, i ≠ m → (s.setRamBytes (0x400 + m) [v]).wireByte i = s.wireByte i := by
  refine ⟨by simp [State.wireByte, wireBase, State.ramByte_setRamBytes], fun i hi => ?_⟩
  rw [State.wireByte, State.ramByte_setRamBytes, if_neg (by simp [wireBase]; omega)]; rfl

/-- A flip at each kind of offset the statement names: address, second marker, control, checksum, end marker. -/
theorem witness_SingleBitFlipIsDetected : ∀ j ∈ [1, 6, 7, 8, 10, 11], ∃ s' : State,
    let t := (((withWire smallest).loadFrame 0).setFv true).withOk
    exec .frameParse (withWire smallest) = .next t ∧ t.statErr = 0x00 ∧ 0 = t.dlen.toNat ∧ 7 < 8 ∧
      s'.wireLen = (withWire smallest).wireLen ∧
      s'.wireByte (t.frameOff.toNat + j) = (withWire smallest).wireByte (t.frameOff.toNat + j) ^^^ BitVec.ofNat 8 (2 ^ 7) ∧
      ∀ i, i ≠ t.frameOff.toNat + j → s'.wireByte i = (withWire smallest).wireByte i := by
  intro j _
  refine ⟨(withWire smallest).setRamBytes (0x400 + j) [(withWire smallest).wireByte j ^^^ BitVec.ofNat 8 (2 ^ 7)],
    smallest_parses, rfl, by decide +kernel, by decide, rfl, ?_, ?_⟩
  · rw [show (((((withWire smallest).loadFrame 0).setFv true).withOk).frameOff).toNat = 0 from rfl, Nat.zero_add]
    exact (wireByte_flip _ _ _).1
  · rw [show (((((withWire smallest).loadFrame 0).setFv true).withOk).frameOff).toNat = 0 from rfl, Nat.zero_add]
    exact (wireByte_flip _ _ _).2

theorem witness_FrameBuildReadsOnlyItsOperands : ∃ s s' : State, s' ≠ s ∧ s'.addr = s.addr ∧ s'.ctrl = s.ctrl ∧
    s'.dlen = s.dlen ∧ ∀ i < s.dlen.toNat, s'.dataByte i = s.dataByte i :=
  ⟨withData [1, 2], { withData [1, 2] with cmd := 1, nbuf := #v[1, 1, 1, 1, 1, 1, 1, 1] }, by decide +kernel, rfl, rfl, rfl,
    fun _ _ => rfl⟩

theorem witness_DomainCommandsTransformInPlace : 255 = ({ State.reset with dlen := 255 } : State).dlen.toNat := by decide

theorem witness_NoStepStops : State.reset.port = [] := rfl

theorem witness_EveryCommandReportsInErrAndSticky : WellFormed .frameParse = true ∧
    after .frameParse State.reset (fun t => decide (t.statErr ≠ 0x00)) = true ∧
    after .nop State.reset (fun t => decide (t.statErr = 0x00)) = true := by decide

theorem witness_IllegalOperandsReportBadField : WellFormed (.intToBcd false 0) = false ∧
    WellFormed (.bcdToFloat false 1 8) = false := by decide

theorem witness_OnlyResetClearsSticky_cmd : ∃ t, step { State.reset with port := [.write 0x000 0xFF] } = .next t ∧
    t.statErr ≠ 0x00 := ⟨_, rfl, by decide⟩

theorem witness_OnlyResetClearsSticky_reset : ∃ t, step { State.reset with statSticky := true, port := [.reset] } = .next t ∧
    ({ State.reset with statSticky := true, port := [.reset] } : State).port = .reset :: [] := ⟨_, rfl, rfl⟩

theorem witness_OnlyResetClearsSticky : ({ State.reset with statSticky := true } : State).statSticky = true ∧
    step { State.reset with statSticky := true } = .next { State.reset with statSticky := true } := ⟨rfl, rfl⟩

theorem witness_StatusFieldWriters : Instr.nop.op ∉ [Op.addrMatchSrv, .addrMatchCli, .valueValid] ∧
    Instr.nop.op ≠ .frameParse ∧ Instr.nop.op ≠ .bcdToFloat := by decide

/-- A command outside every list of the statement. -/
theorem witness_CommandsWriteOnlyTheirRegisters : Instr.nop.op ∉ [Op.frameBuild, .frameParse, .domainEncode, .domainDecode] ∧
    Instr.nop.op ∉ [Op.intToBcd, .floatToBcd, .timeToBcd, .u32ToLe4] ∧
    Instr.nop.op ∉ [Op.bcd8ToBin, .binToBcd8, .bcdToInt, .le4ToU32, .bcdToFloat] ∧ Instr.nop.op ≠ .bcdToTime := by decide

/-- A state with a frame and bytes written, and a step of it. -/
theorem witness_InvariantKeptByStep : ∃ s t : State, s.Inv ∧ s.mem ≠ [] ∧ s.frameLen = 267 ∧ step s = .next t :=
  ⟨{ State.reset with mem := [(0x100, 1), (0x7FF, 2)], frameOff := 757, frameLen := 267, port := [.read 0x004] }, _,
    ⟨by decide, fun h => absurd rfl h, by decide, .inr (by decide), by decide, by decide, by decide⟩, by decide, rfl, rfl⟩

end Sys2Proof.Tests
end

/-! PROOF. O8, the CMD register (spec/10_state.md R22). Three layers, each a lemma of its own: the registers that no command
writes, what a CMD write makes of the state, and which steps change CMD. -/

namespace Sys2Proof.Machine

/-! ### What no command writes -/

/-- `t` has the fields of `s` that no command writes: the registers with "no" in R20's last column, and the model's own. -/
structure State.CommandFrame (s t : State) : Prop where
  cmd : t.cmd = s.cmd
  myAddr : t.myAddr = s.myAddr
  opa : t.opa = s.opa
  resets : t.resets = s.resets
  port : t.port = s.port
  responses : t.responses = s.responses

/-- Every command ends in a next state, in which the fields of `CommandFrame` are unchanged. -/
theorem exec_next_commandFrame (i : Instr) (s : State) : ∃ t, exec i s = .next t ∧ s.CommandFrame t := by
  cases i with
  | nop => exact ⟨_, execNop_eq s, rfl, rfl, rfl, rfl, rfl, rfl⟩
  | frameBuild => exact ⟨_, execFrameBuild_eq s, rfl, rfl, rfl, rfl, rfl, rfl⟩
  | frameParse =>
    obtain ⟨e, -, h⟩ | ⟨p, -, h⟩ := execFrameParse_cases s <;> exact ⟨_, h, rfl, rfl, rfl, rfl, rfl, rfl⟩
  | addrMatchSrv => exact ⟨_, execAddrMatchSrv_eq s, rfl, rfl, rfl, rfl, rfl, rfl⟩
  | addrMatchCli => exact ⟨_, execAddrMatchCli_eq s, rfl, rfl, rfl, rfl, rfl, rfl⟩
  | domainEncode => exact ⟨_, execDomainEncode_eq s, rfl, rfl, rfl, rfl, rfl, rfl⟩
  | domainDecode => exact ⟨_, execDomainDecode_eq s, rfl, rfl, rfl, rfl, rfl, rfl⟩
  | bcd8ToBin =>
    obtain ⟨-, h⟩ | ⟨-, h⟩ := execBcd8ToBin_cases s <;> exact ⟨_, h, rfl, rfl, rfl, rfl, rfl, rfl⟩
  | binToBcd8 =>
    obtain ⟨-, h⟩ | ⟨-, h⟩ := execBinToBcd8_cases s <;> exact ⟨_, h, rfl, rfl, rfl, rfl, rfl, rfl⟩
  | intToBcd le nb =>
    obtain ⟨-, h⟩ | ⟨-, -, h⟩ | ⟨-, -, h⟩ := execIntToBcd_cases le nb s <;> exact ⟨_, h, rfl, rfl, rfl, rfl, rfl, rfl⟩
  | bcdToInt le nb =>
    obtain ⟨-, h⟩ | ⟨-, -, h⟩ | ⟨-, -, h⟩ := execBcdToInt_cases le nb s <;> exact ⟨_, h, rfl, rfl, rfl, rfl, rfl, rfl⟩
  | floatToBcd le fmt =>
    obtain ⟨-, h⟩ | ⟨f, -, -, h⟩ | ⟨f, -, -, h⟩ := execFloatToBcd_cases le fmt s <;>
      exact ⟨_, h, rfl, rfl, rfl, rfl, rfl, rfl⟩
  | bcdToFloat le nb fmt =>
    obtain ⟨-, h⟩ | ⟨f, -, -, -, h⟩ | ⟨f, -, -, -, h⟩ := execBcdToFloat_cases le nb fmt s <;>
      exact ⟨_, h, rfl, rfl, rfl, rfl, rfl, rfl⟩
  | valueValid fmt =>
    obtain ⟨-, h⟩ | ⟨f, -, h⟩ := execValueValid_cases fmt s <;> exact ⟨_, h, rfl, rfl, rfl, rfl, rfl, rfl⟩
  | timeToBcd le =>
    obtain ⟨-, h⟩ | ⟨-, h⟩ := execTimeToBcd_cases le s <;> exact ⟨_, h, rfl, rfl, rfl, rfl, rfl, rfl⟩
  | bcdToTime le =>
    obtain ⟨-, h⟩ | ⟨-, h⟩ := execBcdToTime_cases le s <;> exact ⟨_, h, rfl, rfl, rfl, rfl, rfl, rfl⟩
  | u32ToLe4 => exact ⟨_, execU32ToLe4_eq s, rfl, rfl, rfl, rfl, rfl, rfl⟩
  | le4ToU32 => exact ⟨_, execLe4ToU32_eq s, rfl, rfl, rfl, rfl, rfl, rfl⟩

/-! ### A CMD write -/

theorem issueCommand_of_decode_ok {w : Word} {i : Instr} (h : decode w = .ok i) (s : State) :
    issueCommand w s = exec i { s with cmd := w } := by
  unfold issueCommand; rw [h]

theorem issueCommand_of_decode_error {w : Word} {e : DecodeError} (h : decode w = .error e) (s : State) :
    issueCommand w s = .next ({ s with cmd := w }.withError (errorOfDecode e)) := by
  unfold issueCommand; rw [h]; rfl

/-- Legal word or not, a CMD write ends in a next state that holds the word (R22). -/
theorem issueCommand_next_commandFrame (w : Word) (s : State) :
    ∃ t, issueCommand w s = .next t ∧ { s with cmd := w }.CommandFrame t := by
  cases hd : decode w with
  | ok i => rw [issueCommand_of_decode_ok hd]; exact exec_next_commandFrame i _
  | error e => exact ⟨_, issueCommand_of_decode_error hd s, rfl, rfl, rfl, rfl, rfl, rfl⟩

theorem step_cmdWrite {s : State} {w : Word} {rest : List PortEvent} (h : s.port = .write 0x000 w :: rest) :
    step s = andRespond (.write .okay) (issueCommand w { s with port := rest }) := by
  rw [step_write h, writeAccess_cmd]

@[simp] theorem State.readResponse_cmd (s : State) : s.readResponse 0x000 = .read .okay s.cmd := by
  unfold State.readResponse; rw [locate_cmd]; rfl

/-! ### Which steps change CMD -/

@[simp] theorem State.writeLane_cmd (s : State) (a : Nat) (b : BitVec 8) : (s.writeLane a b).cmd = s.cmd := by
  rw [State.writeLane_eq]

theorem State.writeReg_cmd {r : Reg} (hr : r ≠ .cmd) (s : State) (v : Word) : (s.writeReg r v).cmd = s.cmd := by
  cases r with
  | cmd => exact absurd rfl hr
  | _ => rfl

theorem State.writeLocation_cmd {l : Location} (hl : l ≠ .reg .cmd) (s : State) (v : Word) :
    (s.writeLocation l v).cmd = s.cmd := by
  cases l with
  | reg r => exact State.writeReg_cmd (fun hr => hl (congrArg Location.reg hr)) s v
  | ram a => simp [State.writeLocation]

/-- A write access stores its word in CMD at offset 0x000 and leaves CMD alone at every other address. -/
theorem writeAccess_cmd_cases {a : Addr} {v : Word} {s t : State} (h : writeAccess a v s = .next t) :
    t.cmd = s.cmd ∨ (a = 0x000 ∧ t.cmd = v) := by
  cases hl : locate a with
  | none =>
    rw [writeAccess_none hl] at h
    cases h
    exact .inl rfl
  | some l =>
    by_cases hc : l = .reg .cmd
    · obtain rfl : a = 0x000 := offset_of_locate (hc ▸ hl)
      obtain ⟨u, hu, frame⟩ := issueCommand_next_commandFrame v s
      rw [writeAccess_cmd, hu, andRespond_next] at h
      cases h
      exact .inr ⟨rfl, frame.cmd⟩
    · rw [writeAccess_store hl hc] at h
      cases h
      exact .inl (State.writeLocation_cmd hc s v)

/-- R22: no step but a CMD write and a reset changes CMD. -/
theorem step_cmd_cases {s t : State} (h : step s = .next t) :
    t.cmd = s.cmd ∨ (∃ w rest, s.port = .write 0x000 w :: rest ∧ t.cmd = w) ∨
      ∃ rest, s.port = .reset :: rest ∧ t.cmd = 0x00000000 := by
  cases hp : s.port with
  | nil =>
    rw [step_idle hp] at h
    cases h
    exact .inl rfl
  | cons e rest =>
    cases e with
    | read a =>
      rw [step_read hp] at h
      cases h
      exact .inl rfl
    | write a v =>
      rw [step_write hp] at h
      obtain hkeep | ⟨rfl, hv⟩ := writeAccess_cmd_cases h
      · exact .inl hkeep
      · exact .inr (.inl ⟨v, rest, rfl, hv⟩)
    | reset =>
      rw [step_reset hp] at h
      cases h
      exact .inr (.inr ⟨rest, rfl, rfl⟩)

/-- Settles O8: the CMD write from the command's frame, the rest from the case split on the next port event. -/
theorem cmdHoldsTheLastWordWritten : Obligations.CmdHoldsTheLastWordWritten := by
  refine ⟨fun s w rest hp => ?_, fun i s => ?_, fun s t => step_cmd_cases, State.readResponse_cmd _⟩
  · obtain ⟨u, hu, frame⟩ := issueCommand_next_commandFrame w { s with port := rest }
    refine ⟨u.respond (.write .okay), ?_, frame.cmd, ?_, frame.port, ?_, fun i hi => ?_⟩
    · rw [step_cmdWrite hp, hu, andRespond_next]
    · rw [State.readResponse_cmd, State.respond_cmd, frame.cmd]
    · rw [State.respond_responses, frame.responses]
    · have hresp : u.responses = s.responses := frame.responses
      rw [← issueCommand_of_decode_ok hi { s with port := rest }, hu, ← hresp]
      rfl
  · obtain ⟨t, ht, frame⟩ := exec_next_commandFrame i s
    exact ⟨t, ht, frame.cmd⟩

end Sys2Proof.Machine

/-! PROOF. O10 and O14, the accesses that change no state (spec/20_memory.md R61, R62, R64). Which addresses name no word, what
such an access does, and which registers ignore a write. -/

namespace Sys2Proof.Machine

/-! ### Misaligned and unmapped addresses -/

theorem Reg.offset_lt (r : Reg) : r.offset.toNat < 0x058 := by cases r <;> decide

/-- The 21 register words fill the aligned offsets below 0x058 but for the gap at 0x04C (R67). -/
theorem regAt_eq_none_iff (n : Nat) : regAt n = none ↔ n % 4 ≠ 0 ∨ n = 0x04C ∨ 0x058 ≤ n := by
  by_cases hn : n < 0x058
  · revert n; decide
  · cases hr : regAt n with
    | none => simp only [true_iff]; omega
    | some r =>
      have hoff : n = r.offset.toNat := offset_of_regAt hr
      have hlt := r.offset_lt
      omega

/-- An address names no word exactly when it is misaligned (R61) or in R67's unmapped list (R62). -/
theorem locate_eq_none_iff (a : Addr) : locate a = none ↔ a.toNat % 4 ≠ 0 ∨ Unmapped a.toNat := by
  have hreg := regAt_eq_none_iff a.toNat
  have hram := inRamWindow_iff a.toNat
  unfold locate Unmapped
  by_cases halign : a.toNat % 4 ≠ 0
  · simp [halign]
  · rw [if_neg halign]
    cases hr : regAt a.toNat with
    | some r => simp only [hr, reduceCtorEq, false_iff] at hreg ⊢; omega
    | none =>
      simp only [hr, true_iff, ite_eq_right_iff, reduceCtorEq, imp_false, hram] at hreg ⊢
      omega

theorem State.readResponse_of_locate_none {a : Addr} (h : locate a = none) (s : State) :
    s.readResponse a = .read .error 0x00000000 := by
  unfold State.readResponse; rw [h]

/-- Settles O10: no word is named, so a read and a write both only answer ERROR. -/
theorem misalignedAndUnmappedAnswerError : Obligations.MisalignedAndUnmappedAnswerError := by
  intro s a v rest hbad
  have hnone : locate a = none := (locate_eq_none_iff a).2 hbad
  refine ⟨fun hread => ?_, fun hwrite => ?_⟩
  · rw [step_read hread, State.readResponse_of_locate_none hnone]; rfl
  · rw [step_write hwrite, writeAccess_none hnone]; rfl

/-! ### Read-only registers -/

/-- The register words that R64 names. -/
def readOnlyRegs : List Reg := [.status, .frameOff, .frameLen, .nlen, .resultLo, .resultHi]

theorem State.writeReg_of_readOnly {r : Reg} (hr : r ∈ readOnlyRegs) (s : State) (v : Word) : s.writeReg r v = s := by
  cases r with
  | status | frameOff | frameLen | nlen | resultLo | resultHi => rfl
  | _ => simp [readOnlyRegs] at hr

/-- R64 at the access: the response is all that a write to a read-only register gives. -/
theorem writeAccess_of_readOnly {r : Reg} (hr : r ∈ readOnlyRegs) (s : State) (v : Word) :
    writeAccess r.offset v s = .next (s.respond (.write .okay)) := by
  have hcmd : Location.reg r ≠ .reg .cmd := by rintro ⟨⟩; simp [readOnlyRegs] at hr
  rw [writeAccess_store (locate_offset r) hcmd, State.writeLocation, State.writeReg_of_readOnly hr]

/-- Settles O14: each of the six offsets is a read-only register's. -/
theorem readOnlyWritesAreIgnored : Obligations.ReadOnlyWritesAreIgnored := by
  intro s a v rest ha hport
  have hoffsets : ([0x004, 0x00C, 0x010, 0x01C, 0x038, 0x03C] : List Addr) = readOnlyRegs.map Reg.offset := by decide
  rw [hoffsets] at ha
  obtain ⟨r, hr, rfl⟩ := List.mem_map.1 ha
  rw [step_write hport, writeAccess_of_readOnly hr]; rfl

end Sys2Proof.Machine

/-! PROOF. O1, the words that decode to no command (spec/30_encoding.md R85 to R87). Which OP values name a row, which check of
`decode` gives which error, and the opcode map as the list of the model's rows. -/

namespace Sys2Proof.Machine

/-! ### OP values and rows -/

/-- The OP values that name no row are R87's two reserved ranges. -/
theorem opOfCode_eq_none_iff (c : BitVec 8) :
    opOfCode c = none ↔ (0x07 ≤ c.toNat ∧ c.toNat ≤ 0x0F) ∨ 0x1B ≤ c.toNat := by
  revert c; decide

@[simp] theorem opOfCode_code (op : Op) : opOfCode op.code = some op := by cases op <;> rfl

/-- The rows in the order of R86. -/
def opRows : List Op :=
  [.nop, .frameBuild, .frameParse, .addrMatchSrv, .addrMatchCli, .domainEncode, .domainDecode, .bcd8ToBin, .binToBcd8,
   .intToBcd, .bcdToInt, .floatToBcd, .bcdToFloat, .valueValid, .timeToBcd, .bcdToTime, .u32ToLe4, .le4ToU32]

theorem opcodeMap_eq_map : opcodeMap = opRows.map fun op => (op.code.toNat, op.usesLE, op.usesNB, op.usesFMT) := rfl

/-- An OP value of the opcode map names a row whose used columns are the map's. -/
theorem opOfCode_of_mem_opcodeMap {c : BitVec 8} {le nb fmt : Bool} (h : (c.toNat, le, nb, fmt) ∈ opcodeMap) :
    ∃ op, opOfCode c = some op ∧ op.usesLE = le ∧ op.usesNB = nb ∧ op.usesFMT = fmt := by
  rw [opcodeMap_eq_map] at h
  obtain ⟨op, -, hrow⟩ := List.mem_map.1 h
  simp only [Prod.mk.injEq] at hrow
  obtain ⟨hcode, hle, hnb, hfmt⟩ := hrow
  obtain rfl : op.code = c := BitVec.eq_of_toNat_eq hcode
  exact ⟨op, opOfCode_code op, hle, hnb, hfmt⟩

/-! ### The two errors of `decode` -/

theorem decode_of_opOfCode_none {w : Word} (h : opOfCode (opField w) = none) : decode w = .error .badOpcode := by
  unfold decode; rw [h]

/-- A word of a known OP fails exactly when one of R85's checks does, and always with E_BAD_FIELD. -/
theorem decode_eq_badField_iff {w : Word} {op : Op} (h : opOfCode (opField w) = some op) :
    decode w = .error .badField ↔
      (reservedHigh w ≠ 0 ∨ reservedLow w ≠ 0 ∨ (op.usesLE = false ∧ leField w = true) ∨
       (op.usesNB = false ∧ nbField w ≠ 0) ∨ (op.usesNB = true ∧ legalNB (nbField w) = false) ∨
       (op.usesFMT = false ∧ fmtField w ≠ 0) ∨ (op.usesFMT = true ∧ legalFMT (fmtField w) = false)) := by
  unfold decode
  simp only [h, ite_eq_left_iff, ← or_iff_not_imp_left, or_assoc, reduceCtorEq, or_false]

theorem decode_ne_badOpcode_of_opOfCode_some {w : Word} {op : Op} (h : opOfCode (opField w) = some op) :
    decode w ≠ .error .badOpcode := by
  unfold decode
  simp only [h]
  split_ifs <;> simp

theorem decode_eq_badOpcode_iff (w : Word) : decode w = .error .badOpcode ↔ opOfCode (opField w) = none := by
  refine ⟨fun hbad => ?_, decode_of_opOfCode_none⟩
  cases h : opOfCode (opField w) with
  | none => rfl
  | some op => exact absurd hbad (decode_ne_badOpcode_of_opOfCode_some h)

/-! ### The fields' checks as numbers -/

theorem legalNB_eq_false_iff (nb : BitVec 4) : legalNB nb = false ↔ ¬ (1 ≤ nb.toNat ∧ nb.toNat ≤ 8) := by
  rw [← legalNB_iff, Bool.not_eq_true]

theorem legalFMT_eq_false_iff (fmt : BitVec 4) : legalFMT fmt = false ↔ ¬ fmt.toNat ≤ 7 := by simp [legalFMT]

/-- Settles O1: the reserved OPs by `opOfCode`, the illegal fields by the row that the opcode map names. -/
theorem reservedAndIllegalWordsAreRefused : Obligations.ReservedAndIllegalWordsAreRefused := by
  refine ⟨fun w => ?_, fun w le nb fmt hmem => ?_⟩
  · rw [decode_eq_badOpcode_iff, opOfCode_eq_none_iff, opField_toNat]
  · rw [← opField_toNat] at hmem
    obtain ⟨op, hop, rfl, rfl, rfl⟩ := opOfCode_of_mem_opcodeMap hmem
    simp only [decode_eq_badField_iff hop, BitVec.toNat_ne, BitVec.ofNat_eq_ofNat, BitVec.toNat_zero, reservedHigh_toNat,
      reservedLow_toNat, leField_eq_true, legalNB_eq_false_iff, nbField_toNat, legalFMT_eq_false_iff, fmtField_toNat]

end Sys2Proof.Machine

/-! PROOF. O22 to O26, O28 and O29, the BCD encoder/decoder and the little-endian helpers (spec/40_bcd.md). The command words as
numbers, then R111's sum and the uniqueness of a value's string, then each command from its cases in Laws/Exec. -/

namespace Sys2Proof.Machine

/-! ### Command words as numbers -/

theorem encode_eq_ofNat (i : Instr) : encode i =
    BitVec.ofNat 32 (i.op.code.toNat + 2 ^ 8 * i.le.toNat + 2 ^ 12 * i.nb.toNat + 2 ^ 16 * i.fmt.toNat) := by
  rw [encode, ← packFields_toNat, BitVec.ofNat_toNat, BitVec.setWidth_eq]

/-! ### The value of a byte string (R111) -/

/-- The first byte of R111's sum is the most significant one. -/
theorem bcdSum_cons (b : BitVec 8) (bs : List (BitVec 8)) : bcdSum (b :: bs) = bcd8 b * 100 ^ bs.length + bcdSum bs := by
  unfold bcdSum
  rw [List.length_cons, Finset.sum_range_succ', add_comm]
  congr 1
  refine Finset.sum_congr rfl fun k _ => ?_
  rw [List.getD_cons_succ, Nat.add_sub_cancel, Nat.sub_sub, add_comm 1 k]

/-- The model's Horner form is R111's sum. -/
theorem bcdval_eq_bcdSum (bs : List (BitVec 8)) : bcdval bs = bcdSum bs := by
  induction bs with
  | nil => rfl
  | cons b bs ih => rw [bcdval_cons, bcdSum_cons, ih]

/-- A valid string is the encoding of its value: `bcdval` is injective on valid strings of one length. -/
theorem bcdstr_bcdval {bs : List (BitVec 8)} (h : bs.all validBcd = true) : bcdstr (bcdval bs) bs.length = bs := by
  induction bs using List.reverseRecOn with
  | nil => rfl
  | append_singleton bs b ih =>
    simp only [List.all_append, List.all_cons, List.all_nil, Bool.and_true, Bool.and_eq_true] at h
    obtain ⟨hbs, hb⟩ := h
    have hlast : bcd8 b < 100 := bcd8_lt hb
    have hdiv : (100 * bcdval bs + bcd8 b) / 100 = bcdval bs := by omega
    have hmod : (100 * bcdval bs + bcd8 b) % 100 = bcd8 b := by omega
    rw [bcdval_append_singleton, List.length_append, List.length_singleton, bcdstr, hdiv, hmod, ih hbs, tobcd8_bcd8 hb]

/-- Settles O22: the sum by induction on the string, uniqueness because a valid string is the encoding of its value. -/
theorem bcdStringIsUnique : Obligations.BcdStringIsUnique := by
  refine ⟨bcdval_eq_bcdSum, fun v n hv => ⟨⟨bcdstr_length v n, (all_validBcd_iff _).1 (bcdstr_valid hv), ?_⟩, ?_⟩⟩
  · rw [← bcdval_eq_bcdSum, bcdval_bcdstr hv]
  · intro bs hlen hvalid hsum
    rw [← hsum, ← hlen, ← bcdval_eq_bcdSum, bcdstr_bcdval ((all_validBcd_iff _).2 hvalid)]

/-! ### Integers and strings (R114, R116) -/

/-- What a producing command writes, in the statements' form of NBUF (R36, R37). -/
theorem State.setNbuf_eq_nbufOf (s : State) (bs : List (BitVec 8)) (declared : Nat) : s.setNbuf bs declared =
    { s with nbuf := nbufOf bs, nlenProduced := BitVec.ofNat 4 bs.length, nlenDeclared := BitVec.ofNat 4 declared } := by
  rw [State.setNbuf, fillNbuf_eq_nbufOf]

/-- Settles O25: the illegal-NB case of the command is excluded, and the other two are the statement's. -/
theorem intToBcdResult : Obligations.IntToBcdResult := by
  intro le nb s hlo hhi
  refine ⟨encode_eq_ofNat (.intToBcd le nb), ?_⟩
  obtain ⟨hbad, -⟩ | ⟨-, hge, hexec⟩ | ⟨-, hlt, hexec⟩ := execIntToBcd_cases le nb s
  · exact absurd ⟨hlo, hhi⟩ ((legalNB_eq_false_iff nb).1 hbad)
  · refine ⟨fun _ => hexec.trans ?_, fun hlt => absurd hge hlt.not_ge⟩
    rw [State.clearNbuf, State.setNbuf_eq_nbufOf]; rfl
  · refine ⟨fun hge => absurd hge hlt.not_ge, fun _ => hexec.trans ?_⟩
    rw [State.setNbuf_eq_nbufOf, orderLE_length, bcdstr_length, BitVec.ofNat_toNat, BitVec.setWidth_eq, orderLE_eq_revIf]
    rfl

/-- The value of a valid string that NBUF holds has at most 16 digits. -/
theorem bcdval_nbufString_lt {s : State} {le : Bool} {n : Nat} (hn : n ≤ 8) (h : (s.nbufString le n).all validBcd = true) :
    bcdval (s.nbufString le n) < 10 ^ 16 := by
  calc bcdval (s.nbufString le n) < 100 ^ n := by simpa [hn] using bcdval_lt _ h
    _ ≤ 100 ^ 8 := Nat.pow_le_pow_right (by decide) hn
    _ = 10 ^ 16 := by norm_num

/-- Settles O26: the command's string is the statement's, and its value R111's sum. -/
theorem bcdToIntResult : Obligations.BcdToIntResult := by
  intro le nb s bs hlo hhi hbs
  obtain rfl : bs = s.nbufString le nb.toNat := hbs
  refine ⟨encode_eq_ofNat (.bcdToInt le nb), ?_⟩
  rw [← all_validBcd_iff, ← bcdval_eq_bcdSum]
  obtain ⟨hbad, -⟩ | ⟨-, hvalid, hexec⟩ | ⟨-, hinvalid, hexec⟩ := execBcdToInt_cases le nb s
  · exact absurd ⟨hlo, hhi⟩ ((legalNB_eq_false_iff nb).1 hbad)
  · exact ⟨fun _ => ⟨hexec, bcdval_nbufString_lt hhi hvalid⟩, absurd hvalid⟩
  · exact ⟨fun hvalid => absurd hvalid (Bool.eq_false_iff.1 hinvalid), fun _ => hexec⟩

/-! ### One byte (R112, R113) -/

/-- The low byte of OPA, whose nibbles are OPA's two lowest. -/
theorem opaByte_toNat (v : BitVec 64) : (v.extractLsb' 0 8).toNat = v.toNat % 256 := by simp

theorem bcd8_opaByte (v : BitVec 64) : bcd8 (v.extractLsb' 0 8) = 10 * (v.toNat % 256 / 16) + v.toNat % 16 := by
  rw [bcd8, hiNibble, loNibble, opaByte_toNat, Nat.mod_mod_of_dvd _ (by decide)]

theorem validBcd_opaByte_iff (v : BitVec 64) :
    validBcd (v.extractLsb' 0 8) = true ↔ v.toNat % 256 / 16 ≤ 9 ∧ v.toNat % 16 ≤ 9 := by
  rw [validBcd_iff, IsBcdByte, opaByte_toNat, Nat.mod_mod_of_dvd _ (by decide)]

/-- Settles O23: the check and the value on OPA's low byte, said of OPA's number. -/
theorem bcd8ToBinResult : Obligations.Bcd8ToBinResult := by
  refine ⟨by decide, fun s => ?_⟩
  rw [← validBcd_opaByte_iff, ← bcd8_opaByte]
  obtain ⟨hvalid, hexec⟩ | ⟨hinvalid, hexec⟩ := execBcd8ToBin_cases s
  · exact ⟨fun _ => hexec, absurd hvalid⟩
  · exact ⟨fun hvalid => absurd hvalid (Bool.eq_false_iff.1 hinvalid), fun _ => hexec⟩

theorem tobcd8_setWidth {x : Nat} (h : x < 100) : (tobcd8 x).setWidth 64 = BitVec.ofNat 64 (16 * (x / 10) + x % 10) := by
  rw [← tobcd8_toNat h, BitVec.ofNat_toNat]

/-- Settles O24: the two cases of the command, its packed byte widened to RESULT. -/
theorem binToBcd8Result : Obligations.BinToBcd8Result := by
  refine ⟨by decide, fun s => ?_⟩
  obtain ⟨hle, hexec⟩ | ⟨hgt, hexec⟩ := execBinToBcd8_cases s
  · refine ⟨fun _ => hexec.trans ?_, fun hgt => absurd hle hgt.not_ge⟩
    rw [tobcd8_setWidth (Nat.lt_succ_of_le hle)]
  · exact ⟨fun hle => absurd hle hgt.not_ge, fun _ => hexec⟩

/-! ### The little-endian helpers (R117, R118) -/

/-- Byte k of OPA, and no byte from the fourth on (R73). -/
theorem opaBytes4_getD (v : BitVec 64) (k : Nat) :
    (opaBytes4 v).getD k 0 = if k < 4 then BitVec.ofNat 8 (v.toNat / 2 ^ (8 * k)) else 0 := by
  have hbyte (n : Nat) : v.extractLsb' n 8 = BitVec.ofNat 8 (v.toNat / 2 ^ n) := by
    rw [BitVec.extractLsb', Nat.shiftRight_eq_div_pow]
  match k with
  | 0 | 1 | 2 | 3 => exact hbyte _
  | k + 4 => simp [opaBytes4]

/-- Settles O28: NBUF byte by byte. -/
theorem u32ToLe4Result : Obligations.U32ToLe4Result := by
  refine ⟨by decide, fun s => ?_⟩
  simp only [← opaBytes4_getD]
  rw [execU32ToLe4_eq, State.setNbuf_eq_nbufOf]
  rfl

/-- Settles O29: the word of four bytes, widened to RESULT. -/
theorem le4ToU32Result : Obligations.Le4ToU32Result := by
  refine ⟨by decide, fun s => ?_⟩
  rw [execLe4ToU32_eq, ← word4_toNat, BitVec.ofNat_toNat]

end Sys2Proof.Machine

/-! PROOF. O30, O31, O33 to O35 and O37, the fixed-point converter (spec/41_fixed_point.md). The integer magnitude as R142's
exact value, then each command from its cases in Laws/Exec, then the operand for which R151's printed bound fails. -/

namespace Sys2Proof.Machine

/-- Settles O30: the rows computed, one per code. -/
theorem formatTable_rows : Obligations.FormatTable := rfl

/-! ### The scaled magnitude (R142, R143) -/

/-- A whole number rounds to itself. -/
theorem floor_natCast_add_half (n : Nat) : ⌊(n : ℚ) + 1 / 2⌋₊ = n := by
  rw [Nat.floor_eq_iff (by positivity)]
  constructor <;> linarith

/-- Rounding a fraction of denominator q is one division of natural numbers. -/
theorem floor_div_add_half (n : Nat) {q : Nat} (hq : 0 < q) : ⌊(n : ℚ) / q + 1 / 2⌋₊ = (2 * n + q) / (q * 2) := by
  have hq' : (q : ℚ) ≠ 0 := by exact_mod_cast hq.ne'
  have hfrac : (n : ℚ) / q + 1 / 2 = ((2 * n + q : ℕ) : ℚ) / ((q * 2 : ℕ) : ℚ) := by
    push_cast; field_simp
  rw [hfrac, Nat.floor_div_eq_div]

/-- The integer computation is exact: by whether the significand's unit is a whole number. -/
theorem scaledMag_eq_scaledValue (x : BitVec 32) (d : Nat) : scaledMag x d = scaledValue x d := by
  unfold scaledMag scaledValue
  rw [abs_f32Real]
  by_cases hunit : 150 ≤ f32Unit x
  · obtain ⟨k, hk⟩ := Nat.exists_eq_add_of_le hunit
    have hexact : (f32Mant x : ℚ) * 2 ^ ((f32Unit x : ℤ) - 150) * 10 ^ d = (f32Mant x * 10 ^ d * 2 ^ k : ℕ) := by
      rw [hk]; push_cast; rw [add_sub_cancel_left, zpow_natCast]; ring
    simp only [if_pos hunit]
    rw [hexact, floor_natCast_add_half, hk, Nat.add_sub_cancel_left]
  · obtain ⟨k, hk⟩ := Nat.exists_eq_add_of_le (Nat.le_of_not_le hunit)
    have hsub : 150 - f32Unit x = k := by omega
    have hexp : (f32Unit x : ℤ) - 150 = -(k : ℤ) := by omega
    have hfrac : (f32Mant x : ℚ) * 2 ^ ((f32Unit x : ℤ) - 150) * 10 ^ d = (f32Mant x * 10 ^ d : ℕ) / (2 ^ k : ℕ) := by
      rw [hexp, zpow_neg, zpow_natCast]; push_cast; ring
    simp only [if_neg hunit]
    rw [hfrac, floor_div_add_half _ (by positivity), hsub, pow_succ]

/-- Settles O31: the two branches of the magnitude, and the finiteness check in front of it. -/
theorem scaledMagnitudeIsExact : Obligations.ScaledMagnitudeIsExact := by
  refine fun x => ⟨scaledMag_eq_scaledValue x, fun f hexp => ?_⟩
  simp [inRange, f32Finite, hexp]

/-- The model's range check is validity. -/
theorem inRange_iff_validFor (x : BitVec 32) (f : Format) : inRange x f = true ↔ ValidFor x f := by
  simp only [inRange, f32Finite, Bool.and_eq_true, decide_eq_true_eq, scaledMag_eq_scaledValue, ValidFor]

theorem inRange_eq_false_iff (x : BitVec 32) (f : Format) : inRange x f = false ↔ ¬ ValidFor x f := by
  rw [← inRange_iff_validFor, Bool.not_eq_true]

/-! ### FLOAT_TO_BCD and VALUE_VALID (R146, R150) -/

section
variable {fmt : BitVec 4} {f : Format} {s : State}

theorem execFloatToBcd_of_validFor (hf : formatOf fmt = some f) (hx : ValidFor s.fval f) (le : Bool) :
    exec (.floatToBcd le fmt) s = .next (s.setNbuf (orderLE le (floatString s.fval f)) f.width).withOk := by
  obtain ⟨hnone, -⟩ | ⟨g, hg, -, hexec⟩ | ⟨g, hg, hout, -⟩ := execFloatToBcd_cases le fmt s
  · cases hf.symm.trans hnone
  · cases hf.symm.trans hg
    exact hexec
  · cases hf.symm.trans hg
    exact absurd hx ((inRange_eq_false_iff _ _).1 hout)

theorem execFloatToBcd_of_not_validFor (hf : formatOf fmt = some f) (hx : ¬ ValidFor s.fval f) (le : Bool) :
    exec (.floatToBcd le fmt) s = .next (s.clearNbuf.withError .range) := by
  obtain ⟨hnone, -⟩ | ⟨g, hg, hin, -⟩ | ⟨g, hg, -, hexec⟩ := execFloatToBcd_cases le fmt s
  · cases hf.symm.trans hnone
  · cases hf.symm.trans hg
    exact absurd ((inRange_iff_validFor _ _).1 hin) hx
  · exact hexec

theorem execValueValid_of_formatOf (hf : formatOf fmt = some f) :
    exec (.valueValid fmt) s = .next (s.setMatch (inRange s.fval f)).withOk := by
  obtain ⟨hnone, -⟩ | ⟨g, hg, hexec⟩ := execValueValid_cases fmt s
  · cases hf.symm.trans hnone
  · cases hf.symm.trans hg
    exact hexec

end

theorem setSignBit_eq_modifyHead (bs : List (BitVec 8)) : setSignBit bs = bs.modifyHead (fun b => b ||| 0x80) := by
  cases bs <;> rfl

/-- FLOAT_TO_BCD's string in the rule's terms: the exact magnitude and the sign of the exact real value. -/
theorem floatString_eq (x : BitVec 32) (f : Format) : floatString x f =
    if f32Real x < 0 then
      (List.replicate (max 4 f.width - f.width) 0x00 ++ bcdstr (scaledValue x f.d) f.width).modifyHead (fun b => b ||| 0x80)
    else List.replicate (max 4 f.width - f.width) 0x00 ++ bcdstr (scaledValue x f.d) f.width := by
  simp only [floatString, f32IsNeg_iff, setSignBit_eq_modifyHead, scaledMag_eq_scaledValue]

@[simp] theorem floatString_length (x : BitVec 32) (f : Format) : (floatString x f).length = max 4 f.width := by
  rw [floatString_eq]
  split_ifs <;> simp

/-- Settles O33: the range check is validity, the string is the rule's, and NBUF holds it in the asked order. -/
theorem floatToBcdResult : Obligations.FloatToBcdResult := by
  rintro le fmt f s _ _ _ _ hf rfl rfl rfl rfl
  refine ⟨encode_eq_ofNat (.floatToBcd le fmt), fun hx => ?_, fun hx => ?_⟩
  · rw [execFloatToBcd_of_not_validFor hf hx, State.clearNbuf, State.setNbuf_eq_nbufOf]
    rfl
  · rw [execFloatToBcd_of_validFor hf hx, State.setNbuf_eq_nbufOf, orderLE_length, floatString_length, orderLE_eq_revIf,
      floatString_eq]
    rfl

/-- Settles O35: both commands decide on the same check. -/
theorem valueValidResult : Obligations.ValueValidResult := by
  intro fmt f s hf
  refine ⟨encode_eq_ofNat (.valueValid fmt), _, execValueValid_of_formatOf hf, rfl, inRange_iff_validFor _ _, fun le => ?_⟩
  by_cases hx : ValidFor s.fval f
  · refine ⟨_, execFloatToBcd_of_validFor hf hx le, ?_⟩
    simp [(inRange_iff_validFor _ _).2 hx]
  · refine ⟨_, execFloatToBcd_of_not_validFor hf hx le, ?_⟩
    simp [(inRange_eq_false_iff _ _).2 hx, ErrCode.code]

/-! ### BCD_TO_FLOAT (R148) -/

theorem signBitOf_cons (b : BitVec 8) (bs : List (BitVec 8)) : signBitOf (b :: bs) = decide (128 ≤ b.toNat) := by
  show b.getLsbD 7 = _
  revert b; decide

theorem clearSignBit_cons (b : BitVec 8) (bs : List (BitVec 8)) :
    clearSignBit (b :: bs) = BitVec.ofNat 8 (b.toNat % 128) :: bs := by
  have hbyte : b &&& 0x7F = BitVec.ofNat 8 (b.toNat % 128) := by revert b; decide
  rw [clearSignBit, hbyte]

/-- The sign bit's place leaves the top digit 0..7. -/
theorem bcd8_clearedSign_lt {n : Nat} (h : IsBcdByte (BitVec.ofNat 8 (n % 128))) : bcd8 (BitVec.ofNat 8 (n % 128)) < 80 := by
  unfold IsBcdByte at h
  simp only [bcd8, hiNibble, loNibble, BitVec.toNat_ofNat] at h ⊢
  omega

/-- R148's bound on the magnitude: the top digit is at most 7. -/
theorem bcdval_clearSignBit_lt {bs : List (BitVec 8)} (hne : bs ≠ []) (h : (clearSignBit bs).all validBcd = true) :
    bcdval (clearSignBit bs) < 8 * 10 ^ (2 * bs.length - 1) := by
  cases bs with
  | nil => exact absurd rfl hne
  | cons b bs =>
    rw [clearSignBit_cons, List.all_cons, Bool.and_eq_true, validBcd_iff] at h
    obtain ⟨hb, hbs⟩ := h
    have htop := bcd8_clearedSign_lt hb
    have hrest := bcdval_lt bs hbs
    have hpow : 10 ^ (2 * (bs.length + 1) - 1) = 10 * 100 ^ bs.length := by
      rw [show 2 * (bs.length + 1) - 1 = 2 * bs.length + 1 by omega, pow_succ, pow_mul]; ring
    rw [clearSignBit_cons, bcdval_cons, List.length_cons, hpow]
    have hscaled := Nat.mul_le_mul_right (100 ^ bs.length) (Nat.succ_le_of_lt htop)
    linarith

/-- Settles O34: the command's string and sign are the statement's, and its value R111's sum. -/
theorem bcdToFloatResult : Obligations.BcdToFloatResult := by
  rintro le nb fmt f s b0 bs _ _ hlo hhi hf hstr rfl rfl
  replace hstr : s.nbufString le nb.toNat = b0 :: bs := hstr.symm
  have hlen : (b0 :: bs).length = nb.toNat := by rw [← hstr, State.nbufString_length s le hhi]
  refine ⟨encode_eq_ofNat (.bcdToFloat le nb fmt), ?_⟩
  rw [← all_validBcd_iff, ← bcdval_eq_bcdSum, ← clearSignBit_cons b0 bs, ← signBitOf_cons b0 bs, ← hlen, ← hstr]
  obtain ⟨hbad, -⟩ | ⟨g, hg, -, hvalid, hexec⟩ | ⟨g, hg, -, hinvalid, hexec⟩ := execBcdToFloat_cases le nb fmt s
  · rw [hf, legalNB_eq_false_iff] at hbad
    simp [hlo, hhi] at hbad
  · cases hf.symm.trans hg
    exact ⟨absurd hvalid, fun _ => ⟨bcdval_clearSignBit_lt (by simp [hstr]) hvalid, hexec⟩⟩
  · exact ⟨fun _ => hexec, fun hvalid => absurd hvalid (Bool.eq_false_iff.1 hinvalid)⟩

/-! ### R151's printed bound

The last rounding is to half a unit of the result, not of the operand (assumption log 7). FVAL = 0x3AC49BA6 = 12884902 * 2^-33 is
just above 0.0015, so under XXX.XXX it is worth 2 thousandths. 0.002 lies in the next binade, and the binary32 nearest to it is
0x3B03126F = 8589935 * 2^-32. -/

/-- The state whose FVAL the printed bound fails for. -/
def nextBinadeStart : State := { State.reset with fval := 0x3AC49BA6 }

/-- It after FLOAT_TO_BCD under XXX.XXX: two thousandths. -/
def nextBinadeCoded : State := (nextBinadeStart.setNbuf [0x00, 0x00, 0x00, 0x02] 3).withOk

/-- It after BCD_TO_FLOAT of the four bytes: the binary32 nearest 0.002. -/
def nextBinadeDecoded : State := { nextBinadeCoded with result := 2, fval := 0x3B03126F }

theorem validFor_nextBinadeStart : ValidFor nextBinadeStart.fval ⟨6, 3, "XXX.XXX"⟩ :=
  (inRange_iff_validFor _ _).1 (by decide)

theorem exec_nextBinadeStart : exec (.floatToBcd false 2) nextBinadeStart = .next nextBinadeCoded := by rfl

theorem exec_nextBinadeCoded : exec (.bcdToFloat false 4 2) nextBinadeCoded = .next nextBinadeDecoded := by rfl

theorem f32Real_nextBinadeStart : f32Real nextBinadeStart.fval = 12884902 / 2 ^ 33 := by
  rw [f32Real, show f32Sign nextBinadeStart.fval = false by decide, show f32Mant nextBinadeStart.fval = 12884902 by decide,
    show f32Unit nextBinadeStart.fval = 117 by decide]
  norm_num

theorem f32Real_nextBinadeDecoded : f32Real nextBinadeDecoded.fval = 8589935 / 2 ^ 32 := by
  rw [f32Real, show f32Sign nextBinadeDecoded.fval = false by decide, show f32Mant nextBinadeDecoded.fval = 8589935 by decide,
    show f32Unit nextBinadeDecoded.fval = 118 by decide]
  norm_num

theorem f32Ulp_nextBinadeStart : f32Ulp nextBinadeStart.fval = 1 / 2 ^ 33 := by
  rw [f32Ulp, show f32Unit nextBinadeStart.fval = 117 by decide]
  norm_num

/-- Refutes O37: the distance is 4294968 * 2^-33, and the printed bound is 4294967.796 * 2^-33. -/
theorem not_floatRoundTripWithinHalfUlpOfOperand : ¬ Obligations.FloatRoundTripWithinHalfUlpOfOperand := by
  intro h
  obtain ⟨hbound, -⟩ := h false 2 ⟨6, 3, "XXX.XXX"⟩ nextBinadeStart nextBinadeCoded nextBinadeDecoded rfl
    validFor_nextBinadeStart exec_nextBinadeStart exec_nextBinadeCoded
  rw [f32Real_nextBinadeDecoded, f32Real_nextBinadeStart, f32Ulp_nextBinadeStart] at hbound
  norm_num [abs_of_pos] at hbound

end Sys2Proof.Machine

/-! PROOF. O39 to O41, the time converter (spec/42_time.md). The time string in the statements' numbers and its validity, then
each command from its cases in Laws/Exec, then R174: the decoder reads back the string that the encoder wrote. -/

namespace Sys2Proof.Machine

/-! ### The time string (R172) -/

theorem tobcd8_eq_ofNat (x : Nat) : tobcd8 x = BitVec.ofNat 8 (16 * (x / 10) + x % 10) := by
  rw [tobcd8, Nat.mul_comm]

theorem timeString_eq_map (s : State) : timeString s =
    [s.tYear.toNat % 100, s.tMonth.toNat, s.tDay.toNat, s.tHour.toNat, s.tMin.toNat].map
      fun x => BitVec.ofNat 8 (16 * (x / 10) + x % 10) := by
  simp only [timeString, tobcd8_eq_ofNat, List.map_cons, List.map_nil]

@[simp] theorem timeString_length (s : State) : (timeString s).length = 5 := rfl

/-- Every field that passes R171's capacity check becomes a valid byte. The year needs no check: it is taken modulo 100. -/
theorem timeString_valid {s : State} (hmonth : s.tMonth.toNat ≤ 99) (hday : s.tDay.toNat ≤ 99) (hhour : s.tHour.toNat ≤ 99)
    (hmin : s.tMin.toNat ≤ 99) : (timeString s).all validBcd = true := by
  have hyear : s.tYear.toNat % 100 < 100 := Nat.mod_lt _ (by decide)
  simp only [timeString, List.all_cons, List.all_nil, validBcd_tobcd8 hyear, validBcd_tobcd8 (Nat.lt_succ_of_le hmonth),
    validBcd_tobcd8 (Nat.lt_succ_of_le hday), validBcd_tobcd8 (Nat.lt_succ_of_le hhour),
    validBcd_tobcd8 (Nat.lt_succ_of_le hmin), Bool.and_self]

/-- Settles O39: the two cases of the command, its string in the statement's numbers. -/
theorem timeToBcdResult : Obligations.TimeToBcdResult := by
  intro le s
  refine ⟨encode_eq_ofNat (.timeToBcd le), ?_⟩
  obtain ⟨hover, hexec⟩ | ⟨⟨hmonth, hday, hhour, hmin⟩, hexec⟩ := execTimeToBcd_cases le s
  · refine ⟨fun _ => hexec.trans ?_, fun _ _ _ _ => by omega⟩
    rw [State.clearNbuf, State.setNbuf_eq_nbufOf]; rfl
  · refine ⟨fun hover => by omega, fun _ _ _ _ => hexec.trans ?_⟩
    rw [State.setNbuf_eq_nbufOf, orderLE_length, timeString_length, orderLE_eq_revIf, timeString_eq_map]
    rfl

/-! ### The time fields of a string (R173) -/

theorem bcdSum_singleton (b : BitVec 8) : bcdSum [b] = bcd8 b := by
  rw [bcdSum_cons, ← bcdval_eq_bcdSum, bcdval_nil, List.length_nil, pow_zero, Nat.mul_one, Nat.add_zero]

/-- Settles O40: the command's string is the statement's, and the value of each of its bytes R111's sum of one byte. -/
theorem bcdToTimeResult : Obligations.BcdToTimeResult := by
  intro le s yy mm dd hh mi hstr
  replace hstr : s.nbufString le 5 = [yy, mm, dd, hh, mi] := hstr.symm
  refine ⟨encode_eq_ofNat (.bcdToTime le), ?_⟩
  simp only [← all_validBcd_iff, bcdSum_singleton]
  rw [← hstr]
  obtain ⟨hvalid, hexec⟩ | ⟨hinvalid, hexec⟩ := execBcdToTime_cases le s
  · refine ⟨absurd hvalid, fun _ => hexec.trans ?_⟩
    rw [hstr]; rfl
  · exact ⟨fun _ => hexec, fun hvalid => absurd hvalid (Bool.eq_false_iff.1 hinvalid)⟩

/-! ### The round trip (R174) -/

/-- A field that passes R171's capacity check is the value of its own byte. -/
theorem ofNat_bcd8_tobcd8 {x : BitVec 8} (h : x.toNat ≤ 99) : BitVec.ofNat 8 (bcd8 (tobcd8 x.toNat)) = x := by
  rw [bcd8_tobcd8 (Nat.lt_succ_of_le h), BitVec.ofNat_toNat, BitVec.setWidth_eq]

/-- A year in the decoder's range, 2000 to 2099, fits T_YEAR. -/
theorem ofNat_year_toNat (y : Nat) : (BitVec.ofNat 16 (2000 + bcd8 (tobcd8 (y % 100)))).toNat = 2000 + y % 100 := by
  rw [bcd8_tobcd8 (Nat.mod_lt y (by decide)), BitVec.toNat_ofNat]; omega

/-- Settles O41: the decoder reads the encoder's string back, so its fields are the values of that string's five bytes. -/
theorem timeRoundTrip : Obligations.TimeRoundTrip := by
  intro le s hmonth hday hhour hmin
  obtain ⟨hover, -⟩ | ⟨-, hencode⟩ := execTimeToBcd_cases le s
  · omega
  · set t := (s.setNbuf (orderLE le (timeString s)) 5).withOk
    have hread : t.nbufString le 5 = timeString s := State.nbufString_of_fill (bs := timeString s) (by simp) rfl
    obtain ⟨-, hdecode⟩ | ⟨hinvalid, -⟩ := execBcdToTime_cases le t
    · rw [hread] at hdecode
      exact ⟨t, _, hencode, hdecode, rfl, ofNat_year_toNat _, ofNat_bcd8_tobcd8 hmonth, ofNat_bcd8_tobcd8 hday,
        ofNat_bcd8_tobcd8 hhour, ofNat_bcd8_tobcd8 hmin⟩
    · rw [hread, timeString_valid hmonth hday hhour hmin] at hinvalid
      cases hinvalid

end Sys2Proof.Machine

/-! PROOF. O42, O43, O45, O46, O49 and O50, the frame codec (spec/43_frame.md). The byte transform in the statements' numbers and
the two commands that apply it in place, then the bytes a build stores, then the checks of a parse and what a good frame leaves.
The round trip is a parse of the bytes of O42; O46 is a parse that depends on WIRE through the frame's own bytes. -/

namespace Sys2Proof.Machine

/-! ### The byte transform (R190) -/

theorem enc33_eq_ofNat (b : BitVec 8) : enc33 b = BitVec.ofNat 8 (b.toNat + 0x33) := by
  apply BitVec.eq_of_toNat_eq
  rw [enc33, BitVec.toNat_add, BitVec.toNat_ofNat]
  rfl

theorem dec33_eq_ofNat (b : BitVec 8) : dec33 b = BitVec.ofNat 8 (b.toNat + 256 - 0x33) := by
  apply BitVec.eq_of_toNat_eq
  rw [dec33, BitVec.toNat_sub, BitVec.toNat_ofNat]
  change (256 - 0x33 + b.toNat) % 256 = (b.toNat + 256 - 0x33) % 256
  omega

/-! ### DOMAIN_ENCODE and DOMAIN_DECODE (R201, R202) -/

@[simp] theorem State.withOk_ramByte (s : State) (a : Nat) : s.withOk.ramByte a = s.ramByte a := rfl

@[simp] theorem State.withOk_dataByte (s : State) (i : Nat) : s.withOk.dataByte i = s.dataByte i := rfl

@[simp] theorem State.mapData_dlen (s : State) (f : BitVec 8 → BitVec 8) : (s.mapData f).dlen = s.dlen := rfl

theorem State.mapData_dataByte {s : State} {i : Nat} (h : i < s.dlen.toNat) (f : BitVec 8 → BitVec 8) :
    (s.mapData f).dataByte i = f (s.dataByte i) := by
  rw [State.dataByte, State.ramByte_mapData, if_pos (by rw [dataBase]; omega), State.dataByte]

theorem State.mapData_ramByte_of_outside {s : State} {a : Nat} (h : a < 0x100 ∨ 0x100 + s.dlen.toNat ≤ a)
    (f : BitVec 8 → BitVec 8) : (s.mapData f).ramByte a = s.ramByte a := by
  rw [State.ramByte_mapData, if_neg (by omega)]

/-- A second transform in place undoes the first, since the first leaves DLEN and so the bytes it is applied to. -/
theorem State.mapData_mapData_ramByte {f g : BitVec 8 → BitVec 8} (hgf : ∀ b, g (f b) = b) (s : State) (a : Nat) :
    ((s.mapData f).withOk.mapData g).ramByte a = s.ramByte a := by
  rw [State.ramByte_mapData, State.withOk_ramByte, State.withOk_dlen, State.mapData_dlen, State.ramByte_mapData]
  split_ifs
  · exact hgf _
  · rfl

/-- Settles O49: the bytes below DLEN and the bytes outside them, for each of the two transforms. -/
theorem domainCommandsTransformInPlace : Obligations.DomainCommandsTransformInPlace := by
  refine ⟨by decide, by decide, ?_⟩
  rintro s l rfl
  refine ⟨⟨_, execDomainEncode_eq s, rfl, fun i hi => ?_, fun a ha => State.mapData_ramByte_of_outside ha enc33⟩,
    ⟨_, execDomainDecode_eq s, rfl, fun i hi => ?_, fun a ha => State.mapData_ramByte_of_outside ha dec33⟩⟩
  · rw [State.withOk_dataByte, State.mapData_dataByte hi, enc33_eq_ofNat]
  · rw [State.withOk_dataByte, State.mapData_dataByte hi, dec33_eq_ofNat]

/-- Settles O50: the two directions as numbers, and on the RAM because each undoes the other on every byte. -/
theorem domainTransformIsInverse : Obligations.DomainTransformIsInverse := by
  refine ⟨fun b => ⟨?_, ?_, dec33_enc33 b, enc33_dec33 b⟩, fun s =>
    ⟨⟨_, _, execDomainEncode_eq s, execDomainDecode_eq _, State.mapData_mapData_ramByte dec33_enc33 s⟩,
      ⟨_, _, execDomainDecode_eq s, execDomainEncode_eq _, State.mapData_mapData_ramByte enc33_dec33 s⟩⟩⟩
  · rw [enc33_eq_ofNat, BitVec.toNat_ofNat]
  · rw [dec33_eq_ofNat, BitVec.toNat_ofNat]

/-! ### FRAME_BUILD (R191, R193) -/

theorem builtBody_length (s : State) :
    (frameBody s.addr.toList s.ctrl s.dlen (s.dataBytes s.dlen.toNat)).length = 10 + s.dlen.toNat := by
  rw [frameBody_length, State.dataBytes_length, Vector.length_toList]; omega

/-- From WIRE[4] on, the bytes under the checksum are the frame's body. -/
theorem builtWire_body (s : State) {k : Nat} (h : k < 10 + s.dlen.toNat) : (builtWire s).getD (4 + k) 0 =
    (frameBody s.addr.toList s.ctrl s.dlen (s.dataBytes s.dlen.toNat)).getD k 0 := by
  rw [← builtBody_length] at h
  rw [builtWire, List.append_assoc, List.getD_append_right _ _ _ _ (Nat.le_add_right 4 k), List.getD_append]
  · congr 1; exact Nat.add_sub_cancel_left 4 k
  · rwa [show 4 + k - preamble.length = k from Nat.add_sub_cancel_left 4 k]

/-- A list's sum as `sum256` of an array that holds the list from index i on. -/
theorem sumBytes_eq_sum256 {arr : Nat → BitVec 8} {bs : List (BitVec 8)} {i : Nat}
    (h : ∀ k < bs.length, arr (i + k) = bs.getD k 0) : sumBytes bs = sum256 arr i (i + bs.length) := by
  rw [← sumBytes_range]
  congr 1
  refine List.ext_getElem (by simp) fun k hk _ => ?_
  rw [List.getElem_map, List.getElem_range, h k hk, List.getD_eq_getElem _ _ hk]

/-- The state FRAME_BUILD leaves. -/
def State.built (s : State) : State :=
  { s.setRamBytes wireBase (builtWire s) with
    wireLen := BitVec.ofNat 11 (16 + s.dlen.toNat)
    frameOff := 4
    frameLen := BitVec.ofNat 9 (12 + s.dlen.toNat)
    statErr := 0x00 }

theorem exec_frameBuild_eq_built (s : State) : exec .frameBuild s = .next s.built := execFrameBuild_eq s

theorem State.built_wireByte {s : State} {k : Nat} (h : k < 16 + s.dlen.toNat) :
    s.built.wireByte k = (builtWire s).getD k 0 :=
  (s.wireByte_setRamBytes_built k).trans (if_pos h)

theorem State.built_ramByte_of_outside {s : State} {a : Nat} (h : a < 0x400 ∨ 0x400 + 16 + s.dlen.toNat ≤ a) :
    s.built.ramByte a = s.ramByte a := by
  change (s.setRamBytes wireBase (builtWire s)).ramByte a = s.ramByte a
  rw [State.ramByte_setRamBytes, if_neg (by rw [builtWire_length, wireBase]; omega)]

/-- The preamble and the body up to the length byte. -/
theorem State.built_wireByte_header (s : State) {k : Nat} (h : k < 14) : s.built.wireByte k =
    ([0xFE, 0xFE, 0xFE, 0xFE, 0x68, s.addr[0], s.addr[1], s.addr[2], s.addr[3], s.addr[4], s.addr[5], 0x68, s.ctrl,
      s.dlen] : List (BitVec 8)).getD k 0 := by
  rw [State.built_wireByte (by omega), builtWire_eq, List.getD_append _ _ _ _ h]

/-- The checksum in WIRE is R192's sum of the new bytes. -/
theorem State.built_wireByte_checksum (s : State) :
    s.built.wireByte (14 + s.dlen.toNat) = sum256 s.built.wireByte 4 (14 + s.dlen.toNat) := by
  rw [State.built_wireByte (by omega), builtWire_checksum, sumBytes_eq_sum256 (arr := s.built.wireByte) (i := 4),
    builtBody_length, ← Nat.add_assoc]
  intro k hk
  rw [builtBody_length] at hk
  rw [State.built_wireByte (by omega), builtWire_body s hk]

/-- Settles O42: the header byte by byte, then the data, the checksum and the end marker, then the bytes outside. -/
theorem frameBuildResult : Obligations.FrameBuildResult := by
  refine ⟨by decide, ?_⟩
  rintro s l rfl
  refine ⟨s.built, exec_frameBuild_eq_built s, rfl, fun k hk => ?_, s.built_wireByte_header (by decide), fun k => ?_,
    s.built_wireByte_header (by decide), s.built_wireByte_header (by decide), ?_, fun i hi => ?_,
    s.built_wireByte_checksum, ?_, fun a => State.built_ramByte_of_outside⟩
  · rw [s.built_wireByte_header (by omega)]
    interval_cases k <;> rfl
  · rw [s.built_wireByte_header (by omega)]
    fin_cases k <;> rfl
  · rw [BitVec.ofNat_toNat, BitVec.setWidth_eq]
    exact s.built_wireByte_header (by decide)
  · rw [State.built_wireByte (by omega), builtWire_data s hi, enc33_eq_ofNat]
  · rw [State.built_wireByte (by omega), builtWire_end]

/-! ### FRAME_PARSE (R194 to R196) -/

theorem ErrCode.code_ne_zero (e : ErrCode) : e.code ≠ 0x00 := by cases e <;> decide

theorem execFrameParse_of_parseOk {s : State} {p : Nat} (h : ParseOk s p) :
    exec .frameParse s = .next ((s.loadFrame p).setFv true).withOk :=
  execFrameParse_ok ((s.frameCheck_eq_ok_iff p).2 h)

/-- A parse that reports OK passed every check. -/
theorem parseOk_of_execFrameParse {s t : State} (h : exec .frameParse s = .next t) (hok : t.statErr = 0x00) :
    ∃ p, ParseOk s p ∧ t = ((s.loadFrame p).setFv true).withOk := by
  obtain ⟨e, -, hexec⟩ | ⟨p, hp, hexec⟩ := execFrameParse_cases s
  · obtain rfl := Host.Outcome.next.inj (h.symm.trans hexec)
    exact absurd hok e.code_ne_zero
  · exact ⟨p, hp, Host.Outcome.next.inj (h.symm.trans hexec)⟩

theorem State.loadFrame_dataByte {s : State} {p i : Nat} (h : i < (s.wireByte (p + 9)).toNat) :
    (s.loadFrame p).dataByte i = dec33 (s.wireByte (p + 10 + i)) := by
  change (s.setRamBytes dataBase (s.parsedData p)).ramByte (dataBase + i) = _
  rw [State.ramByte_setRamBytes, if_pos (by rw [State.parsedData_length]; omega), Nat.add_sub_cancel_left,
    State.parsedData_getD s h]

theorem State.loadFrame_ramByte_of_outside {s : State} {p a : Nat}
    (h : a < 0x100 ∨ 0x100 + (s.wireByte (p + 9)).toNat ≤ a) : (s.loadFrame p).ramByte a = s.ramByte a := by
  change (s.setRamBytes dataBase (s.parsedData p)).ramByte a = _
  rw [State.ramByte_setRamBytes, if_neg (by rw [State.parsedData_length, dataBase]; omega)]

theorem State.loadFrame_addr (s : State) (p : Nat) :
    (s.loadFrame p).addr = Vector.ofFn fun k : Fin 6 => s.wireByte (p + 1 + k) := by
  apply Vector.ext
  intro k hk
  rw [Vector.getElem_ofFn]
  interval_cases k <;> rfl

theorem State.loadFrame_frameLen_toNat (s : State) (p : Nat) :
    (s.loadFrame p).frameLen.toNat = 12 + (s.wireByte (p + 9)).toNat := by
  change (BitVec.ofNat 9 (12 + (s.wireByte (p + 9)).toNat)).toNat = _
  rw [BitVec.toNat_ofNat]; omega

/-- The scan position of a frame that fits WIRE fits FRAME_OFF. -/
theorem ParseOk.loadFrame_frameOff_toNat {s : State} {p : Nat} (h : ParseOk s p) : (s.loadFrame p).frameOff.toNat = p := by
  have hinside := h.inside
  have hlen := h.len_le
  exact Nat.mod_eq_of_lt (by omega)

/-- Settles O43: each failure is the check of its line after the ones before it passed; the last clause is `ParseOk`. -/
theorem frameParseResult : Obligations.FrameParseResult := by
  refine ⟨by decide, ?_⟩
  rintro s n rfl
  refine ⟨fun hlong => ?_, fun hn hnone => ?_, ?_⟩
  · exact execFrameParse_error (e := .badField) (by rw [State.frameCheck_eq, if_pos hlong])
  · refine execFrameParse_error (e := .noStart) ?_
    rw [State.frameCheck_eq, if_neg hn.not_gt, (s.firstStart_eq_none_iff _).2 hnone]
  rintro p l hn hp rfl
  have hcheck := State.frameCheck_of_start hn hp
  refine ⟨fun hshort => ?_, fun henough hsecond => ?_, fun henough hsecond hbeyond => ?_,
    fun henough hsecond hinside hsum => ?_, fun henough hsecond hinside hsum hend => ?_,
    fun henough hsecond hinside hsum hend => ?_⟩
  · exact execFrameParse_error (e := .short) (by rw [hcheck, if_pos hshort])
  · refine execFrameParse_error (e := .noSecondStart) ?_
    rw [hcheck, if_neg henough.not_gt, if_pos hsecond]
  · refine execFrameParse_error (e := .length) ?_
    rw [hcheck, if_neg henough.not_gt, if_neg (not_not.2 hsecond), if_pos hbeyond]
  · refine execFrameParse_error (e := .checksum) ?_
    rw [hcheck, if_neg henough.not_gt, if_neg (not_not.2 hsecond), if_neg hinside.not_gt, if_pos hsum]
  · refine execFrameParse_error (e := .noEnd) ?_
    rw [hcheck, if_neg henough.not_gt, if_neg (not_not.2 hsecond), if_neg hinside.not_gt, if_neg (not_not.2 hsum),
      if_pos hend]
  · refine ⟨_, execFrameParse_of_parseOk ⟨hn, hp, henough, hsecond, hinside, hsum, hend⟩, ?_, fun i hi => ?_, fun a ha =>
      State.loadFrame_ramByte_of_outside ha⟩
    · rw [← State.loadFrame_addr]; rfl
    · rw [← dec33_eq_ofNat]; exact State.loadFrame_dataByte hi

/-! ### The round trip (R200) -/

/-- Settles O45: the bytes of O42 pass every check with the frame at 4, and the decoded data bytes are DATA again. -/
theorem frameRoundTrip : Obligations.FrameRoundTrip := by
  intro s
  obtain ⟨t, hbuild, hregs, hpre, hfirst, haddr, hsecond, hctrl, hlen, hdata, hsum, hend, -⟩ :=
    frameBuildResult.2 s _ rfl
  refine ⟨t, hbuild, fun t' hwireLen hsame => ?_⟩
  have hl : s.dlen.toNat < 256 := s.dlen.isLt
  have hn : t'.wireLen.toNat = 16 + s.dlen.toNat := by
    rw [hwireLen, hregs, BitVec.toNat_ofNat]; omega
  have hdlen : t'.wireByte (4 + 9) = s.dlen := by
    rw [hsame _ (by decide), hlen, BitVec.ofNat_toNat, BitVec.setWidth_eq]
  have hstart : LeastStart t' t'.wireLen.toNat 4 := by
    refine ⟨by omega, (hsame 4 (by decide)).trans hfirst, fun i hi => ?_⟩
    rw [hsame i (by omega), hpre i hi]; decide
  have hparse : ParseOk t' 4 := by
    refine ⟨by omega, hstart, by omega, (hsame 11 (by decide)).trans hsecond, ?_, ?_, ?_⟩ <;> rw [hdlen]
    · omega
    · rw [sum256_congr fun k _ hk => hsame k (by omega), hsame _ (by omega)]
      exact hsum.symm
    · exact (hsame _ (by omega)).trans hend
  refine ⟨_, execFrameParse_of_parseOk hparse, rfl, rfl, rfl, ?_, (hsame 12 (by decide)).trans hctrl, hdlen, fun i hi => ?_⟩
  · refine (State.loadFrame_addr t' 4).trans (Vector.ext fun k hk => ?_)
    rw [Vector.getElem_ofFn, hsame _ (by dsimp only; omega)]
    exact haddr ⟨k, hk⟩
  · have hdecode : (t'.loadFrame 4).dataByte i = dec33 (t'.wireByte (14 + i)) := State.loadFrame_dataByte (by rwa [hdlen])
    refine hdecode.trans ?_
    rw [hsame _ (by omega), hdata i hi, ← enc33_eq_ofNat, dec33_enc33]

/-! ### Noise before the frame and bytes after it (R197, R198) -/

/-- Equal runs of bytes have equal sums, wherever they stand. -/
theorem sum256_eq_of_shift {arr arr' : Nat → BitVec 8} {i j n : Nat} (h : ∀ k < n, arr (i + k) = arr' (j + k)) :
    sum256 arr i (i + n) = sum256 arr' j (j + n) := by
  rw [← sumBytes_range, ← sumBytes_range, List.map_congr_left fun k hk => h k (List.mem_range.1 hk)]

/-- The checks after the scan depend on the frame's own bytes alone. -/
theorem ParseOk.of_sameFrame {s s' : State} {p p' : Nat} (h : ParseOk s p) (hlen : s'.wireLen.toNat ≤ 1024)
    (hstart : LeastStart s' s'.wireLen.toNat p') (hfit : p' + (12 + (s.wireByte (p + 9)).toNat) ≤ s'.wireLen.toNat)
    (hsame : ∀ i < 12 + (s.wireByte (p + 9)).toNat, s'.wireByte (p' + i) = s.wireByte (p + i)) : ParseOk s' p' := by
  have hl : s'.wireByte (p' + 9) = s.wireByte (p + 9) := hsame 9 (by omega)
  refine ⟨hlen, hstart, by omega, (hsame 7 (by omega)).trans h.second, ?_, ?_, ?_⟩ <;> rw [hl]
  · omega
  · have hsum := h.sum
    rw [Nat.add_assoc] at hsum ⊢
    rw [sum256_eq_of_shift fun k hk => hsame k (by omega), hsame _ (by omega)]
    exact hsum
  · rw [Nat.add_assoc, hsame _ (by omega), ← Nat.add_assoc]
    exact h.ending

/-- Settles O46: the second state passes the checks at its own first 0x68, and every output is read from the frame's bytes. -/
theorem parseIgnoresNoiseAndTrailingBytes : Obligations.ParseIgnoresNoiseAndTrailingBytes := by
  intro s s' t p' hexec hok hlen hstart hfit hsame
  obtain ⟨p, hp, rfl⟩ := parseOk_of_execFrameParse hexec hok
  rw [State.withOk_frameLen, State.setFv_frameLen, State.loadFrame_frameLen_toNat] at hfit hsame
  rw [State.withOk_frameOff, State.setFv_frameOff, hp.loadFrame_frameOff_toNat] at hsame
  have hl : s'.wireByte (p' + 9) = s.wireByte (p + 9) := hsame 9 (by omega)
  have hp' : ParseOk s' p' := hp.of_sameFrame hlen hstart hfit hsame
  refine ⟨_, execFrameParse_of_parseOk hp', rfl, hp'.loadFrame_frameOff_toNat,
    congrArg (fun b : BitVec 8 => BitVec.ofNat 9 (12 + b.toNat)) hl, ?_, hsame 8 (by omega), hl, fun i hi => ?_⟩
  · simp only [State.withOk_addr, State.setFv_addr, State.loadFrame_addr, Nat.add_assoc]
    congr 1
    funext k
    exact hsame (1 + k) (by omega)
  · replace hi : i < (s.wireByte (p + 9)).toNat := hi
    have hbyte : s'.wireByte (p' + (10 + i)) = s.wireByte (p + (10 + i)) := hsame (10 + i) (by omega)
    calc (s'.loadFrame p').dataByte i = dec33 (s'.wireByte (p' + 10 + i)) := State.loadFrame_dataByte (by rwa [hl])
      _ = dec33 (s.wireByte (p + 10 + i)) := by rw [Nat.add_assoc, hbyte, Nat.add_assoc]
      _ = (s.loadFrame p).dataByte i := (State.loadFrame_dataByte hi).symm

end Sys2Proof.Machine

/-! PROOF. O51, the address filter (spec/44_address.md). Equality of addresses byte by byte, then the two acceptance sets. -/

namespace Sys2Proof.Machine

/-! ### Equality over all six bytes -/

theorem addr_eq_iff (v w : Vector (BitVec 8) 6) : v = w ↔ ∀ k : Fin 6, v[k] = w[k] := by
  rw [Vector.ext_iff, Fin.forall_iff]; rfl

@[simp] theorem bcastAA_getElem (k : Fin 6) : bcastAA[k] = 0xAA := by revert k; decide

@[simp] theorem bcast99_getElem (k : Fin 6) : bcast99[k] = 0x99 := by revert k; decide

theorem addr_eq_bcastAA_iff (v : Vector (BitVec 8) 6) : v = bcastAA ↔ ∀ k : Fin 6, v[k] = 0xAA := by
  simp only [addr_eq_iff, bcastAA_getElem]

theorem addr_eq_bcast99_iff (v : Vector (BitVec 8) 6) : v = bcast99 ↔ ∀ k : Fin 6, v[k] = 0x99 := by
  simp only [addr_eq_iff, bcast99_getElem]

/-! ### ADDR_MATCH_SRV and ADDR_MATCH_CLI (R230, R231) -/

/-- Settles O51: each command writes MATCH and ERR only, and MATCH is its acceptance set read byte by byte. -/
theorem addressFilters : Obligations.AddressFilters := by
  refine ⟨by decide, by decide, fun s => ⟨⟨_, execAddrMatchSrv_eq s, rfl, ?_⟩, ⟨_, execAddrMatchCli_eq s, rfl, ?_⟩⟩⟩
  · rw [State.withOk_statMatch, State.setMatch_statMatch, Bool.or_eq_true, Bool.or_eq_true, decide_eq_true_iff,
      decide_eq_true_iff, decide_eq_true_iff, or_assoc, addr_eq_iff, addr_eq_bcastAA_iff, addr_eq_bcast99_iff]
  · rw [State.withOk_statMatch, State.setMatch_statMatch, Bool.or_eq_true, decide_eq_true_iff, decide_eq_true_iff,
      addr_eq_iff, addr_eq_bcast99_iff]

end Sys2Proof.Machine

/-! PROOF. O21, NOP (spec/30_encoding.md R85, R86; R240). A word whose OP is 0x00 is NOP's word or has a nonzero field. -/

namespace Sys2Proof.Machine

/-- A nonzero word with OP = 0x00 has a bit set in a reserved range, LE, NB or FMT (R80). -/
theorem exists_nonzero_field {w : Word} (hop : w.toNat % 256 = 0) (hw : w ≠ 0) :
    w.toNat / 2 ^ 20 ≠ 0 ∨ w.toNat / 2 ^ 9 % 8 ≠ 0 ∨ w.toNat / 2 ^ 8 % 2 ≠ 0 ∨ w.toNat / 2 ^ 12 % 16 ≠ 0 ∨
      w.toNat / 2 ^ 16 % 16 ≠ 0 := by
  have hne : w.toNat ≠ 0 := fun h => hw (BitVec.eq_of_toNat_eq h)
  omega

/-- NOP's row uses none of LE, NB and FMT, so R85 refuses every nonzero word with OP = 0x00. -/
theorem decode_of_op_zero {w : Word} (hop : w.toNat % 256 = 0) (hw : w ≠ 0) : decode w = .error .badField := by
  have hrow : (w.toNat % 256, false, false, false) ∈ opcodeMap := by rw [hop]; decide
  rw [reservedAndIllegalWordsAreRefused.2 w false false false hrow]
  simpa using exists_nonzero_field hop hw

/-- Settles O21: NOP runs only the common completion (`execNop_eq`), and its other words fail R85's checks. -/
theorem nopWritesOnlyErr : Obligations.NopWritesOnlyErr :=
  ⟨by decide, execNop_eq, fun _ => decode_of_op_zero⟩

end Sys2Proof.Machine

/-! PROOF. O44, O55 and O7, errors (spec/60_exceptions.md). What a failing parse and a refused word leave, then the two ways in
which a command ends and, from them and the frames of the accesses, that only a reset clears STICKY. -/

namespace Sys2Proof.Machine

/-! ### A failing FRAME_PARSE (R257) -/

/-- Settles O44: a failing check writes FV, ERR and STICKY and no RAM byte; a parse that loads a frame ends with ERR = 0. -/
theorem failedParseExposesNothing : Obligations.FailedParseExposesNothing := by
  intro s
  obtain ⟨e, -, h⟩ | ⟨p, -, h⟩ := execFrameParse_cases s
  · exact ⟨_, h, fun _ => ⟨rfl, State.ramByte_congr rfl rfl⟩⟩
  · exact ⟨_, h, fun herr => absurd (State.withOk_statErr _) herr⟩

/-! ### A word that decodes to no command (R251, R252, R258) -/

theorem step_of_decode_error {s : State} {w : Word} {rest : List PortEvent} {e : DecodeError}
    (hp : s.port = .write 0x000 w :: rest) (hd : decode w = .error e) :
    step s = .next (({ s with port := rest, cmd := w }.withError (errorOfDecode e)).respond (.write .okay)) := by
  rw [step_cmdWrite hp, issueCommand_of_decode_error hd, andRespond_next]

/-- Settles O7: a reserved OP decodes to E_BAD_OPCODE (O1), and either error of `decode` is the same step with its code. -/
theorem failedDecodeWritesOnlyCmdErrSticky : Obligations.FailedDecodeWritesOnlyCmdErrSticky :=
  fun _ w _ hp =>
    ⟨fun hop => step_of_decode_error hp ((reservedAndIllegalWordsAreRefused.1 w).2 hop), step_of_decode_error hp⟩

/-! ### How a command ends (R254, R255) -/

/-- `t` ends a command begun in `s`: with success and STICKY as it was (R254), or with an error's code and STICKY set (R255). -/
inductive State.EndsIn (s t : State) : Prop where
  | ok (err : t.statErr = 0x00) (keep : t.statSticky = s.statSticky)
  | error {e : ErrCode} (err : t.statErr = e.code) (sticky : t.statSticky = true)

theorem State.EndsIn.withError {s u : State} {e : ErrCode} : s.EndsIn (u.withError e) :=
  .error (State.withError_statErr u e) (State.withError_statSticky u e)

theorem State.EndsIn.sticky_of_err {s t : State} (h : s.EndsIn t) (herr : t.statErr ≠ 0x00) : t.statSticky = true := by
  cases h with
  | ok err _ => exact absurd err herr
  | error _ sticky => exact sticky

theorem State.EndsIn.sticky_of_sticky {s t : State} (h : s.EndsIn t) (hs : s.statSticky = true) : t.statSticky = true := by
  cases h with
  | ok _ keep => rw [keep, hs]
  | error _ sticky => exact sticky

/-- Every command ends in one of the two ways: only the error way touches STICKY. -/
theorem exec_next_endsIn (i : Instr) (s : State) : ∃ t, exec i s = .next t ∧ s.EndsIn t := by
  cases i with
  | nop => exact ⟨_, execNop_eq s, .ok rfl rfl⟩
  | frameBuild => exact ⟨_, execFrameBuild_eq s, .ok rfl rfl⟩
  | frameParse =>
    obtain ⟨e, -, h⟩ | ⟨p, -, h⟩ := execFrameParse_cases s
    · exact ⟨_, h, .withError⟩
    · exact ⟨_, h, .ok rfl rfl⟩
  | addrMatchSrv => exact ⟨_, execAddrMatchSrv_eq s, .ok rfl rfl⟩
  | addrMatchCli => exact ⟨_, execAddrMatchCli_eq s, .ok rfl rfl⟩
  | domainEncode => exact ⟨_, execDomainEncode_eq s, .ok rfl rfl⟩
  | domainDecode => exact ⟨_, execDomainDecode_eq s, .ok rfl rfl⟩
  | bcd8ToBin =>
    obtain ⟨-, h⟩ | ⟨-, h⟩ := execBcd8ToBin_cases s
    · exact ⟨_, h, .ok rfl rfl⟩
    · exact ⟨_, h, .withError⟩
  | binToBcd8 =>
    obtain ⟨-, h⟩ | ⟨-, h⟩ := execBinToBcd8_cases s
    · exact ⟨_, h, .ok rfl rfl⟩
    · exact ⟨_, h, .withError⟩
  | intToBcd le nb =>
    obtain ⟨-, h⟩ | ⟨-, -, h⟩ | ⟨-, -, h⟩ := execIntToBcd_cases le nb s
    · exact ⟨_, h, .withError⟩
    · exact ⟨_, h, .withError⟩
    · exact ⟨_, h, .ok rfl rfl⟩
  | bcdToInt le nb =>
    obtain ⟨-, h⟩ | ⟨-, -, h⟩ | ⟨-, -, h⟩ := execBcdToInt_cases le nb s
    · exact ⟨_, h, .withError⟩
    · exact ⟨_, h, .ok rfl rfl⟩
    · exact ⟨_, h, .withError⟩
  | floatToBcd le fmt =>
    obtain ⟨-, h⟩ | ⟨f, -, -, h⟩ | ⟨f, -, -, h⟩ := execFloatToBcd_cases le fmt s
    · exact ⟨_, h, .withError⟩
    · exact ⟨_, h, .ok rfl rfl⟩
    · exact ⟨_, h, .withError⟩
  | bcdToFloat le nb fmt =>
    obtain ⟨-, h⟩ | ⟨f, -, -, -, h⟩ | ⟨f, -, -, -, h⟩ := execBcdToFloat_cases le nb fmt s
    · exact ⟨_, h, .withError⟩
    · exact ⟨_, h, .ok rfl rfl⟩
    · exact ⟨_, h, .withError⟩
  | valueValid fmt =>
    obtain ⟨-, h⟩ | ⟨f, -, h⟩ := execValueValid_cases fmt s
    · exact ⟨_, h, .withError⟩
    · exact ⟨_, h, .ok rfl rfl⟩
  | timeToBcd le =>
    obtain ⟨-, h⟩ | ⟨-, h⟩ := execTimeToBcd_cases le s
    · exact ⟨_, h, .withError⟩
    · exact ⟨_, h, .ok rfl rfl⟩
  | bcdToTime le =>
    obtain ⟨-, h⟩ | ⟨-, h⟩ := execBcdToTime_cases le s
    · exact ⟨_, h, .ok rfl rfl⟩
    · exact ⟨_, h, .withError⟩
  | u32ToLe4 => exact ⟨_, execU32ToLe4_eq s, .ok rfl rfl⟩
  | le4ToU32 => exact ⟨_, execLe4ToU32_eq s, .ok rfl rfl⟩

/-- A CMD write ends as a command does, also when its word decodes to none (R251, R252). -/
theorem writeAccess_cmd_endsIn {w : Word} {s t : State} (h : writeAccess 0x000 w s = .next t) : s.EndsIn t := by
  rw [writeAccess_cmd] at h
  cases hd : decode w with
  | ok i =>
    obtain ⟨u, hu, hend⟩ := exec_next_endsIn i { s with cmd := w }
    rw [issueCommand_of_decode_ok hd, hu, andRespond_next] at h
    cases h
    cases hend with
    | ok err keep => exact .ok err keep
    | error err sticky => exact .error err sticky
  | error e =>
    rw [issueCommand_of_decode_error hd, andRespond_next] at h
    cases h
    exact .error (e := errorOfDecode e) rfl rfl

/-! ### What keeps STICKY -/

@[simp] theorem State.writeLane_statSticky (s : State) (a : Nat) (b : BitVec 8) :
    (s.writeLane a b).statSticky = s.statSticky := by
  rw [State.writeLane_eq]

theorem State.writeReg_statSticky (s : State) (r : Reg) (v : Word) : (s.writeReg r v).statSticky = s.statSticky := by
  cases r <;> rfl

theorem State.writeLocation_statSticky (s : State) (l : Location) (v : Word) :
    (s.writeLocation l v).statSticky = s.statSticky := by
  cases l with
  | reg r => exact s.writeReg_statSticky r v
  | ram a => simp [State.writeLocation]

theorem writeAccess_keeps_sticky {a : Addr} {v : Word} {s t : State} (h : writeAccess a v s = .next t)
    (hs : s.statSticky = true) : t.statSticky = true := by
  cases hl : locate a with
  | none =>
    rw [writeAccess_none hl] at h
    cases h
    exact hs
  | some l =>
    by_cases hc : l = .reg .cmd
    · obtain rfl : a = 0x000 := offset_of_locate (hc ▸ hl)
      exact (writeAccess_cmd_endsIn h).sticky_of_sticky hs
    · rw [writeAccess_store hl hc] at h
      cases h
      rw [State.respond_statSticky, State.writeLocation_statSticky, hs]

/-- R255: a set STICKY stays set over every step but a reset. -/
theorem step_keeps_sticky {s t : State} (h : step s = .next t) (hs : s.statSticky = true) :
    t.statSticky = true ∨ ∃ rest, s.port = .reset :: rest := by
  cases hp : s.port with
  | nil =>
    rw [step_idle hp] at h
    cases h
    exact .inl hs
  | cons e rest =>
    cases e with
    | read a =>
      rw [step_read hp] at h
      cases h
      exact .inl hs
    | write a v =>
      rw [step_write hp] at h
      exact .inl (writeAccess_keeps_sticky h hs)
    | reset => exact .inr ⟨rest, rfl⟩

/-- Settles O55: a CMD write by the way its command ends, the other steps by `step_keeps_sticky`, a reset by R282. -/
theorem onlyResetClearsSticky : Obligations.OnlyResetClearsSticky := by
  intro s t h
  refine ⟨fun w rest hp herr => ?_, step_keeps_sticky h, fun rest hp => ?_⟩
  · rw [step_write hp] at h
    exact (writeAccess_cmd_endsIn h).sticky_of_err herr
  · rw [step_reset hp] at h
    cases h
    rfl

end Sys2Proof.Machine

/-! PROOF. O18, the reset values (spec/70_reset_and_hazards.md R282). The STATUS word by R23's layout and the byte arrays as
constant vectors; every other register is a field of `State.reset`. -/

namespace Sys2Proof.Machine

/-! ### The words and arrays of R282 -/

/-- With every field 0 the STATUS word is 0: its other bits are reserved (R23). -/
theorem State.statusWord_of_clear {s : State} (herr : s.statErr = 0) (hmatch : s.statMatch = false) (hfv : s.statFv = false)
    (hneg : s.statNeg = false) (hsticky : s.statSticky = false) : s.statusWord = 0 := by
  rw [State.statusWord, herr, hmatch, hfv, hneg, hsticky]
  decide

theorem State.reset_addr : State.reset.addr = Vector.replicate 6 0 := rfl

theorem State.reset_myAddr : State.reset.myAddr = Vector.replicate 6 0 := rfl

theorem State.reset_nbuf : State.reset.nbuf = Vector.replicate 8 0 := rfl

theorem getElem_of_eq_replicate {n : Nat} {v : Vector (BitVec 8) n} {b : BitVec 8} (h : v = Vector.replicate n b)
    (k : Fin n) : v[k] = b := by
  subst h
  exact Vector.getElem_replicate k.isLt

/-- Settles O18: the STATUS word from its fields, the arrays byte by byte, and each other register as R282 writes it. -/
theorem resetValues : Obligations.ResetValues := by
  have hstatus : State.reset.statusWord = 0 := State.statusWord_of_clear rfl rfl rfl rfl rfl
  have haddr := getElem_of_eq_replicate State.reset_addr
  have hmyAddr := getElem_of_eq_replicate State.reset_myAddr
  have hnbuf := getElem_of_eq_replicate State.reset_nbuf
  exact ⟨rfl, rfl, rfl, rfl, rfl, rfl, hstatus, rfl, rfl, rfl, rfl, rfl, rfl, rfl, haddr, hmyAddr,
    rfl, rfl, rfl, rfl, rfl, rfl, rfl, rfl, hnbuf⟩

end Sys2Proof.Machine

/-! PROOF. O3, O4, O2 and O5, the decoder against the encoder and the opcode table (spec/30_encoding.md R80, R85, R86). A word
is its six fields; `decode` accepts exactly the words whose fields are legal for the row their OP names; and a command is
the row and the fields it was made from. -/

namespace Sys2Proof.Machine

/-! ### A word is its fields (R80) -/

/-- A word's number from the numbers of its fields. -/
theorem toNat_eq_fields (w : Word) : w.toNat = (opField w).toNat + 2 ^ 8 * (leField w).toNat +
    2 ^ 9 * (reservedLow w).toNat + 2 ^ 12 * (nbField w).toNat + 2 ^ 16 * (fmtField w).toNat +
    2 ^ 20 * (reservedHigh w).toNat := by
  have hle : (leField w).toNat = w.toNat / 2 ^ 8 % 2 := by
    rw [leField, BitVec.getLsbD, Nat.toNat_testBit]
  rw [opField_toNat, hle, reservedLow_toNat, nbField_toNat, fmtField_toNat, reservedHigh_toNat]
  omega

/-- Two words with the same six fields are the same word. -/
theorem word_eq_of_fields {v w : Word} (hop : opField v = opField w) (hle : leField v = leField w)
    (hlow : reservedLow v = reservedLow w) (hnb : nbField v = nbField w) (hfmt : fmtField v = fmtField w)
    (hhigh : reservedHigh v = reservedHigh w) : v = w := by
  apply BitVec.eq_of_toNat_eq
  rw [toNat_eq_fields v, hop, hle, hlow, hnb, hfmt, hhigh, ← toNat_eq_fields w]

section
variable (op : BitVec 8) (le : Bool) (nb fmt : BitVec 4)

@[simp] theorem opField_packFields : opField (packFields op le nb fmt) = op := by
  apply BitVec.eq_of_toNat_eq
  rw [opField_toNat, packFields_toNat]; omega

@[simp] theorem leField_packFields : leField (packFields op le nb fmt) = le := by
  rw [Bool.eq_iff_iff, leField_eq_true, packFields_toNat]
  cases le <;> simp only [Bool.toNat_false, Bool.toNat_true, Bool.false_eq_true, iff_false, iff_true] <;> omega

@[simp] theorem reservedLow_packFields : reservedLow (packFields op le nb fmt) = 0 := by
  apply BitVec.eq_of_toNat_eq
  have hle := le.toNat_le
  rw [reservedLow_toNat, packFields_toNat]
  change _ = 0
  omega

@[simp] theorem nbField_packFields : nbField (packFields op le nb fmt) = nb := by
  apply BitVec.eq_of_toNat_eq
  have hle := le.toNat_le
  rw [nbField_toNat, packFields_toNat]; omega

@[simp] theorem fmtField_packFields : fmtField (packFields op le nb fmt) = fmt := by
  apply BitVec.eq_of_toNat_eq
  have hle := le.toNat_le
  rw [fmtField_toNat, packFields_toNat]; omega

@[simp] theorem reservedHigh_packFields : reservedHigh (packFields op le nb fmt) = 0 := by
  apply BitVec.eq_of_toNat_eq
  have hle := le.toNat_le
  rw [reservedHigh_toNat, packFields_toNat]
  change _ = 0
  omega

end

/-- A word whose reserved bits are 0 is packed from its other fields. -/
theorem packFields_of_reserved {w : Word} (hhigh : reservedHigh w = 0) (hlow : reservedLow w = 0) :
    packFields (opField w) (leField w) (nbField w) (fmtField w) = w :=
  word_eq_of_fields (opField_packFields ..) (leField_packFields ..) ((reservedLow_packFields ..).trans hlow.symm)
    (nbField_packFields ..) (fmtField_packFields ..) ((reservedHigh_packFields ..).trans hhigh.symm)

/-! ### The words `decode` accepts (R85) -/

/-- R85's checks on the three operand fields, for the row `op`: an unused field is 0 and a used one legal. -/
structure LegalFields (op : Op) (le : Bool) (nb fmt : BitVec 4) : Prop where
  le_unused : op.usesLE = false → le = false
  nb_unused : op.usesNB = false → nb = 0
  nb_used : op.usesNB = true → legalNB nb = true
  fmt_unused : op.usesFMT = false → fmt = 0
  fmt_used : op.usesFMT = true → legalFMT fmt = true

/-- An OP value names a row exactly when it is that row's. -/
theorem opOfCode_eq_some_iff {c : BitVec 8} {op : Op} : opOfCode c = some op ↔ c = op.code := by
  refine ⟨fun h => ?_, fun h => h ▸ opOfCode_code op⟩
  revert op c
  decide

theorem decode_of_legalFields {w : Word} {op : Op} (hop : opField w = op.code) (hhigh : reservedHigh w = 0)
    (hlow : reservedLow w = 0) (hl : LegalFields op (leField w) (nbField w) (fmtField w)) :
    decode w = .ok (op.instr (leField w) (nbField w) (fmtField w)) := by
  obtain ⟨hle, hnb0, hnb, hfmt0, hfmt⟩ := hl
  unfold decode
  rw [opOfCode_eq_some_iff.2 hop]
  dsimp only
  rw [if_neg (by simp [hhigh, hlow]), if_neg (by simpa using hle), if_neg (by simpa using hnb0), if_neg (by simpa using hnb),
    if_neg (by simpa using hfmt0), if_neg (by simpa using hfmt)]

theorem decode_eq_ok_iff {w : Word} {i : Instr} : decode w = .ok i ↔
    ∃ op : Op, opField w = op.code ∧ reservedHigh w = 0 ∧ reservedLow w = 0 ∧
      LegalFields op (leField w) (nbField w) (fmtField w) ∧ i = op.instr (leField w) (nbField w) (fmtField w) := by
  constructor
  · intro h
    obtain ⟨op, hop, hhigh, hlow, hle, hnb0, hnb, hfmt0, hfmt, hi⟩ := decode_eq_ok h
    exact ⟨op, opOfCode_eq_some_iff.1 hop, hhigh, hlow, ⟨hle, hnb0, hnb, hfmt0, hfmt⟩, hi⟩
  · rintro ⟨op, hop, hhigh, hlow, hl, rfl⟩
    exact decode_of_legalFields hop hhigh hlow hl

/-! ### Commands and their fields (R86) -/

theorem instr_op_fields (i : Instr) : i.op.instr i.le i.nb i.fmt = i := by cases i <;> rfl

theorem legalFields_of_wellFormed {i : Instr} (h : WellFormed i = true) : LegalFields i.op i.le i.nb i.fmt := by
  cases i with
  | intToBcd le nb | bcdToInt le nb => exact ⟨nofun, nofun, fun _ => h, fun _ => rfl, nofun⟩
  | floatToBcd le fmt => exact ⟨nofun, fun _ => rfl, nofun, nofun, fun _ => h⟩
  | bcdToFloat le nb fmt =>
    obtain ⟨hnb, hfmt⟩ := Bool.and_eq_true_iff.1 h
    exact ⟨nofun, nofun, fun _ => hnb, nofun, fun _ => hfmt⟩
  | valueValid fmt => exact ⟨fun _ => rfl, fun _ => rfl, nofun, nofun, fun _ => h⟩
  | timeToBcd le | bcdToTime le => exact ⟨nofun, fun _ => rfl, nofun, fun _ => rfl, nofun⟩
  | _ => exact ⟨fun _ => rfl, fun _ => rfl, nofun, fun _ => rfl, nofun⟩

@[simp] theorem Op.instr_op (op : Op) (le : Bool) (nb fmt : BitVec 4) : (op.instr le nb fmt).op = op := by
  cases op <;> rfl

section
variable {op : Op} {le : Bool} {nb fmt : BitVec 4}

theorem LegalFields.wellFormed (h : LegalFields op le nb fmt) : WellFormed (op.instr le nb fmt) = true := by
  cases op with
  | intToBcd | bcdToInt => exact h.nb_used rfl
  | floatToBcd | valueValid => exact h.fmt_used rfl
  | bcdToFloat => exact Bool.and_eq_true_iff.2 ⟨h.nb_used rfl, h.fmt_used rfl⟩
  | _ => rfl

/-- The command of a legal field triple is encoded by packing the triple: what the row does not use is 0. -/
theorem LegalFields.encode_instr (h : LegalFields op le nb fmt) : encode (op.instr le nb fmt) = packFields op.code le nb fmt := by
  cases op with
  | intToBcd | bcdToInt => rw [h.fmt_unused rfl]; rfl
  | floatToBcd => rw [h.nb_unused rfl]; rfl
  | bcdToFloat => rfl
  | valueValid => rw [h.le_unused rfl, h.nb_unused rfl]; rfl
  | timeToBcd | bcdToTime => rw [h.nb_unused rfl, h.fmt_unused rfl]; rfl
  | _ => rw [h.le_unused rfl, h.nb_unused rfl, h.fmt_unused rfl]; rfl

end

/-- Settles O3: the encoding's fields are the command's own, legal for its row. -/
theorem decodeOfEncode : Obligations.DecodeOfEncode := by
  intro i hi
  have hl := legalFields_of_wellFormed hi
  have hdecode := decode_of_legalFields (w := encode i) (op := i.op) (opField_packFields ..) (reservedHigh_packFields ..)
    (reservedLow_packFields ..)
  simp only [encode, leField_packFields, nbField_packFields, fmtField_packFields, instr_op_fields] at hdecode
  exact hdecode hl

/-- Settles O4: an accepted word is packed from its fields, and so is its command's word. -/
theorem encodeOfDecode : Obligations.EncodeOfDecode := by
  intro w i h
  obtain ⟨op, hop, hhigh, hlow, hl, rfl⟩ := decode_eq_ok_iff.1 h
  refine ⟨hl.wellFormed, ?_⟩
  rw [hl.encode_instr, ← hop, packFields_of_reserved hhigh hlow]

/-! ### Mask and match (spec/opcode_table.json) -/

/-- A row matches on the OP's code with every operand field 0. -/
theorem opcodeRow_match (op : Op) : (opcodeRow op).2 = (packFields op.code false 0 0, op.usesNB, op.usesFMT) := by
  cases op <;> rfl

/-- A row's mask keeps the OP, the reserved bits and the fields that the row does not use. -/
theorem opcodeRow_mask (op : Op) :
    opField (opcodeRow op).1 = 0xFF ∧ leField (opcodeRow op).1 = !op.usesLE ∧ reservedLow (opcodeRow op).1 = 7 ∧
    nbField (opcodeRow op).1 = (if op.usesNB then 0 else 0xF) ∧
    fmtField (opcodeRow op).1 = (if op.usesFMT then 0 else 0xF) ∧ reservedHigh (opcodeRow op).1 = 0xFFF := by
  cases op <;> decide

theorem and_eq_iff_fields (w m v : Word) : w &&& m = v ↔
    opField w &&& opField m = opField v ∧ (leField w && leField m) = leField v ∧
    reservedLow w &&& reservedLow m = reservedLow v ∧ nbField w &&& nbField m = nbField v ∧
    fmtField w &&& fmtField m = fmtField v ∧ reservedHigh w &&& reservedHigh m = reservedHigh v := by
  simp only [opField, leField, reservedLow, nbField, fmtField, reservedHigh, ← BitVec.extractLsb'_and, ← BitVec.getLsbD_and]
  constructor
  · rintro rfl
    exact ⟨rfl, rfl, rfl, rfl, rfl, rfl⟩
  · rintro ⟨hop, hle, hlow, hnb, hfmt, hhigh⟩
    exact word_eq_of_fields hop hle hlow hnb hfmt hhigh

/-- A nibble under the mask of a field that is kept unless the row uses it. -/
theorem maskedNibble_eq_zero_iff (used : Bool) (x : BitVec 4) :
    x &&& (if used then 0 else 0xF) = 0 ↔ (used = false → x = 0) := by
  revert used x; decide

theorem maskedBit_eq_false_iff (used b : Bool) : (b && !used) = false ↔ (used = false → b = false) := by
  revert used b; decide

/-- The match under the mask says which OP the word has and that its reserved and unused fields are 0. -/
theorem match_under_mask_iff (w : Word) (op : Op) : w &&& (opcodeRow op).1 = (opcodeRow op).2.1 ↔
    opField w = op.code ∧ (op.usesLE = false → leField w = false) ∧ reservedLow w = 0 ∧
    (op.usesNB = false → nbField w = 0) ∧ (op.usesFMT = false → fmtField w = 0) ∧ reservedHigh w = 0 := by
  obtain ⟨mop, mle, mlow, mnb, mfmt, mhigh⟩ := opcodeRow_mask op
  have keepOp : opField w &&& 0xFF = opField w := BitVec.and_allOnes
  have keepLow : reservedLow w &&& 7 = reservedLow w := BitVec.and_allOnes
  have keepHigh : reservedHigh w &&& 0xFFF = reservedHigh w := BitVec.and_allOnes
  rw [and_eq_iff_fields, mop, mle, mlow, mnb, mfmt, mhigh, opcodeRow_match, keepOp, keepLow, keepHigh, opField_packFields,
    leField_packFields, reservedLow_packFields, nbField_packFields, fmtField_packFields, reservedHigh_packFields,
    maskedNibble_eq_zero_iff, maskedNibble_eq_zero_iff, maskedBit_eq_false_iff]

/-- A word decodes to a command of a row exactly when it has the row's OP and its fields are legal for it. -/
theorem decodes_to_op_iff (w : Word) (op : Op) : (∃ i, decode w = .ok i ∧ i.op = op) ↔
    opField w = op.code ∧ reservedHigh w = 0 ∧ reservedLow w = 0 ∧ LegalFields op (leField w) (nbField w) (fmtField w) := by
  constructor
  · rintro ⟨i, hi, rfl⟩
    obtain ⟨op, hop, hhigh, hlow, hl, rfl⟩ := decode_eq_ok_iff.1 hi
    rw [Op.instr_op]
    exact ⟨hop, hhigh, hlow, hl⟩
  · rintro ⟨hop, hhigh, hlow, hl⟩
    exact ⟨_, decode_of_legalFields hop hhigh hlow hl, Op.instr_op ..⟩

theorem legalFMT_iff (fmt : BitVec 4) : legalFMT fmt = true ↔ fmt.toNat ≤ 7 := by simp [legalFMT]

/-- Settles O2: the row's mask and match check what R85 checks, but for the ranges of NB and FMT. -/
theorem decodeFollowsMaskAndMatch : Obligations.DecodeFollowsMaskAndMatch := by
  intro w op
  rw [decodes_to_op_iff, match_under_mask_iff, opcodeRow_match, ← nbField_toNat, ← fmtField_toNat, ← legalNB_iff,
    ← legalFMT_iff]
  constructor
  · rintro ⟨hop, hhigh, hlow, hle, hnb0, hnb, hfmt0, hfmt⟩
    exact ⟨⟨hop, hle, hlow, hnb0, hfmt0, hhigh⟩, hnb, hfmt⟩
  · rintro ⟨⟨hop, hle, hlow, hnb0, hfmt0, hhigh⟩, hnb, hfmt⟩
    exact ⟨hop, hhigh, hlow, hle, hnb0, hnb, hfmt0, hfmt⟩

/-- Settles O5: the decoder computed on each word. -/
theorem sampleWordsDecode : Obligations.SampleWordsDecode := by
  unfold Obligations.SampleWordsDecode
  decide

end Sys2Proof.Machine

/-! PROOF. O57 and O56, what a command writes (spec/10_state.md R20, R23). The columns "written by commands" as a relation
between the states before and after, one lemma per kind of write, and the commands put together from these. -/

namespace Sys2Proof.Machine

/-- The commands that R23 lets write MATCH. -/
abbrev matchWriters : List Op := [.addrMatchSrv, .addrMatchCli, .valueValid]

/-- The commands that R20 lets write NBUF and NLEN. -/
abbrev nbufWriters : List Op := [.intToBcd, .floatToBcd, .timeToBcd, .u32ToLe4]

/-- The commands that R20 lets write RESULT. -/
abbrev resultWriters : List Op := [.bcd8ToBin, .binToBcd8, .bcdToInt, .le4ToU32, .bcdToFloat]

/-- `t` differs from `s` only in what R20 and R23 let a command of row `op` write. `mem` and the two fields after it are about
the RAMs: the list of written bytes, and the bytes of DATA and WIRE. -/
structure State.WritesOnly (op : Op) (s t : State) : Prop where
  statMatch : op ∉ matchWriters → t.statMatch = s.statMatch
  statFv : op ≠ .frameParse → t.statFv = s.statFv
  statNeg : op ≠ .bcdToFloat → t.statNeg = s.statNeg
  wireLen : op ≠ .frameBuild → t.wireLen = s.wireLen
  frame : op ∉ [Op.frameBuild, .frameParse] → t.frameOff = s.frameOff ∧ t.frameLen = s.frameLen
  parsed : op ≠ .frameParse → t.addr = s.addr ∧ t.ctrl = s.ctrl ∧ t.dlen = s.dlen
  nbuf : op ∉ nbufWriters → t.nbuf = s.nbuf ∧ t.nlenProduced = s.nlenProduced ∧ t.nlenDeclared = s.nlenDeclared
  result : op ∉ resultWriters → t.result = s.result
  fval : op ≠ .bcdToFloat → t.fval = s.fval
  time : op ≠ .bcdToTime →
    t.tYear = s.tYear ∧ t.tMonth = s.tMonth ∧ t.tDay = s.tDay ∧ t.tHour = s.tHour ∧ t.tMin = s.tMin
  mem : op ∉ [Op.frameBuild, .frameParse, .domainEncode, .domainDecode] → t.mem = s.mem
  dataBytes : op ∉ [Op.frameParse, .domainEncode, .domainDecode] → ∀ k < 255, t.dataByte k = s.dataByte k
  wireBytes : op ≠ .frameBuild → ∀ k < 1024, t.wireByte k = s.wireByte k

/-! ### One lemma per kind of write -/

section
variable {op : Op} {s t : State}

theorem State.WritesOnly.refl (op : Op) (s : State) : s.WritesOnly op s :=
  ⟨fun _ => rfl, fun _ => rfl, fun _ => rfl, fun _ => rfl, fun _ => ⟨rfl, rfl⟩, fun _ => ⟨rfl, rfl, rfl⟩,
    fun _ => ⟨rfl, rfl, rfl⟩, fun _ => rfl, fun _ => rfl, fun _ => ⟨rfl, rfl, rfl, rfl, rfl⟩, fun _ => rfl,
    fun _ _ _ => rfl, fun _ _ _ => rfl⟩

theorem State.WritesOnly.withOk (h : s.WritesOnly op t) : s.WritesOnly op t.withOk := { h with }

theorem State.WritesOnly.withError (h : s.WritesOnly op t) (e : ErrCode) : s.WritesOnly op (t.withError e) := { h with }

theorem State.WritesOnly.setMatch (h : s.WritesOnly op t) (hop : op ∈ matchWriters)
    (b : Bool) : s.WritesOnly op (t.setMatch b) :=
  { h with statMatch := absurd hop }

theorem State.WritesOnly.setFv (h : s.WritesOnly .frameParse t) (b : Bool) : s.WritesOnly .frameParse (t.setFv b) :=
  { h with statFv := absurd rfl }

theorem State.WritesOnly.setNbuf (h : s.WritesOnly op t) (hop : op ∈ nbufWriters)
    (bs : List (BitVec 8)) (n : Nat) : s.WritesOnly op (t.setNbuf bs n) :=
  { h with nbuf := absurd hop }

theorem State.WritesOnly.setResult (h : s.WritesOnly op t)
    (hop : op ∈ resultWriters) (r : BitVec 64) :
    s.WritesOnly op { t with result := r } :=
  { h with result := absurd hop }

theorem State.WritesOnly.setResultOk (h : s.WritesOnly op t)
    (hop : op ∈ resultWriters) {r : BitVec 64} :
    s.WritesOnly op { t with result := r, statErr := 0x00 } :=
  (h.setResult hop r).withOk

theorem State.WritesOnly.setFval (h : s.WritesOnly .bcdToFloat t) (x : BitVec 32) (b : Bool) :
    s.WritesOnly .bcdToFloat { t with fval := x, statNeg := b } :=
  { h with fval := absurd rfl, statNeg := absurd rfl }

theorem State.WritesOnly.setFloatOk (h : s.WritesOnly .bcdToFloat t) {r : BitVec 64} {x : BitVec 32} {b : Bool} :
    s.WritesOnly .bcdToFloat { t with result := r, fval := x, statNeg := b, statErr := 0x00 } :=
  ((h.setResult (by decide) r).setFval x b).withOk

theorem State.WritesOnly.setTime (h : s.WritesOnly .bcdToTime t) (bs : List (BitVec 8)) :
    s.WritesOnly .bcdToTime (t.setTime bs) :=
  { h with time := absurd rfl }

theorem State.WritesOnly.clearTime (h : s.WritesOnly .bcdToTime t) : s.WritesOnly .bcdToTime t.clearTime :=
  { h with time := absurd rfl }

end

/-- A block write into one of the RAMs leaves the bytes of the other. -/
theorem State.wireByte_setRamBytes_data {s : State} {bs : List (BitVec 8)} (h : bs.length < 256) (k : Nat) :
    (s.setRamBytes dataBase bs).wireByte k = s.wireByte k := by
  rw [State.wireByte, State.ramByte_setRamBytes, if_neg (by rw [dataBase, wireBase]; omega), State.wireByte]

theorem State.dataByte_setRamBytes_wire (s : State) (bs : List (BitVec 8)) {k : Nat} (h : k < 255) :
    (s.setRamBytes wireBase bs).dataByte k = s.dataByte k := by
  rw [State.dataByte, State.ramByte_setRamBytes, if_neg (by rw [dataBase, wireBase]; omega), State.dataByte]

theorem State.built_writesOnly (s : State) : s.WritesOnly .frameBuild s.built :=
  { State.WritesOnly.refl .frameBuild s with
    wireLen := absurd rfl
    frame := absurd (by decide)
    mem := absurd (by decide)
    dataBytes := fun _ _ hk => s.dataByte_setRamBytes_wire (builtWire s) hk
    wireBytes := absurd rfl }

theorem State.loadFrame_writesOnly (s : State) (p : Nat) : s.WritesOnly .frameParse (s.loadFrame p) :=
  { State.WritesOnly.refl .frameParse s with
    frame := absurd (by decide)
    parsed := absurd rfl
    mem := absurd (by decide)
    dataBytes := absurd (by decide)
    wireBytes := fun _ k _ =>
      s.wireByte_setRamBytes_data (by rw [State.parsedData_length]; exact (s.wireByte (p + 9)).isLt) k }

theorem State.mapData_writesOnly {op : Op} (hop : op ∈ [Op.domainEncode, .domainDecode]) (s : State)
    (f : BitVec 8 → BitVec 8) : s.WritesOnly op (s.mapData f) :=
  { State.WritesOnly.refl op s with
    mem := absurd (List.mem_cons_of_mem _ (List.mem_cons_of_mem _ hop))
    dataBytes := absurd (List.mem_cons_of_mem _ hop)
    wireBytes := fun _ k _ =>
      s.wireByte_setRamBytes_data (by rw [List.length_map, State.dataBytes_length]; exact s.dlen.isLt) k }

/-! ### The commands -/

/-- Every command writes only what the tables name for its row. -/
theorem exec_next_writesOnly (i : Instr) (s : State) : ∃ t, exec i s = .next t ∧ s.WritesOnly i.op t := by
  have same : s.WritesOnly i.op s := .refl _ s
  cases i with
  | nop => exact ⟨_, execNop_eq s, same.withOk⟩
  | frameBuild => exact ⟨_, exec_frameBuild_eq_built s, s.built_writesOnly⟩
  | frameParse =>
    obtain ⟨e, -, h⟩ | ⟨p, -, h⟩ := execFrameParse_cases s
    · exact ⟨_, h, (same.setFv false).withError e⟩
    · exact ⟨_, h, ((s.loadFrame_writesOnly p).setFv true).withOk⟩
  | addrMatchSrv => exact ⟨_, execAddrMatchSrv_eq s, (same.setMatch (by decide) _).withOk⟩
  | addrMatchCli => exact ⟨_, execAddrMatchCli_eq s, (same.setMatch (by decide) _).withOk⟩
  | domainEncode => exact ⟨_, execDomainEncode_eq s, (State.mapData_writesOnly (by decide) s enc33).withOk⟩
  | domainDecode => exact ⟨_, execDomainDecode_eq s, (State.mapData_writesOnly (by decide) s dec33).withOk⟩
  | bcd8ToBin =>
    obtain ⟨-, h⟩ | ⟨-, h⟩ := execBcd8ToBin_cases s
    · exact ⟨_, h, same.setResultOk (by decide)⟩
    · exact ⟨_, h, (same.setResult (by decide) 0).withError _⟩
  | binToBcd8 =>
    obtain ⟨-, h⟩ | ⟨-, h⟩ := execBinToBcd8_cases s
    · exact ⟨_, h, same.setResultOk (by decide)⟩
    · exact ⟨_, h, (same.setResult (by decide) 0).withError _⟩
  | intToBcd le nb =>
    have writer : Op.intToBcd ∈ nbufWriters := by decide
    obtain ⟨-, h⟩ | ⟨-, -, h⟩ | ⟨-, -, h⟩ := execIntToBcd_cases le nb s
    · exact ⟨_, h, same.withError _⟩
    · exact ⟨_, h, (same.setNbuf writer [] 0).withError _⟩
    · exact ⟨_, h, (same.setNbuf writer _ _).withOk⟩
  | bcdToInt le nb =>
    have writer : Op.bcdToInt ∈ resultWriters := by decide
    obtain ⟨-, h⟩ | ⟨-, -, h⟩ | ⟨-, -, h⟩ := execBcdToInt_cases le nb s
    · exact ⟨_, h, same.withError _⟩
    · exact ⟨_, h, same.setResultOk writer⟩
    · exact ⟨_, h, (same.setResult writer 0).withError _⟩
  | floatToBcd le fmt =>
    have writer : Op.floatToBcd ∈ nbufWriters := by decide
    obtain ⟨-, h⟩ | ⟨f, -, -, h⟩ | ⟨f, -, -, h⟩ := execFloatToBcd_cases le fmt s
    · exact ⟨_, h, same.withError _⟩
    · exact ⟨_, h, (same.setNbuf writer _ _).withOk⟩
    · exact ⟨_, h, (same.setNbuf writer [] 0).withError _⟩
  | bcdToFloat le nb fmt =>
    have writer : Op.bcdToFloat ∈ resultWriters := by decide
    obtain ⟨-, h⟩ | ⟨f, -, -, -, h⟩ | ⟨f, -, -, -, h⟩ := execBcdToFloat_cases le nb fmt s
    · exact ⟨_, h, same.withError _⟩
    · exact ⟨_, h, State.WritesOnly.setFloatOk same⟩
    · exact ⟨_, h, ((same.setResult writer 0).setFval 0 false).withError _⟩
  | valueValid fmt =>
    have writer : Op.valueValid ∈ matchWriters := by decide
    obtain ⟨-, h⟩ | ⟨f, -, h⟩ := execValueValid_cases fmt s
    · exact ⟨_, h, same.withError _⟩
    · exact ⟨_, h, (same.setMatch writer _).withOk⟩
  | timeToBcd le =>
    have writer : Op.timeToBcd ∈ nbufWriters := by decide
    obtain ⟨-, h⟩ | ⟨-, h⟩ := execTimeToBcd_cases le s
    · exact ⟨_, h, (same.setNbuf writer [] 0).withError _⟩
    · exact ⟨_, h, (same.setNbuf writer _ 5).withOk⟩
  | bcdToTime le =>
    obtain ⟨-, h⟩ | ⟨-, h⟩ := execBcdToTime_cases le s
    · exact ⟨_, h, (same.setTime _).withOk⟩
    · exact ⟨_, h, same.clearTime.withError _⟩
  | u32ToLe4 => exact ⟨_, execU32ToLe4_eq s, (same.setNbuf (by decide) _ 4).withOk⟩
  | le4ToU32 => exact ⟨_, execLe4ToU32_eq s, same.setResultOk (by decide)⟩

/-- The two facts about one next state: its row's writes, and the fields that no row writes. -/
theorem exec_next_frame (i : Instr) (s : State) :
    ∃ t, exec i s = .next t ∧ s.CommandFrame t ∧ s.WritesOnly i.op t := by
  obtain ⟨t, ht, hframe⟩ := exec_next_commandFrame i s
  obtain ⟨u, hu, hwrites⟩ := exec_next_writesOnly i s
  obtain rfl := Host.Outcome.next.inj (ht.symm.trans hu)
  exact ⟨t, ht, hframe, hwrites⟩

/-- Settles O57: the columns of R20, and the RAM bytes from the list of written bytes and the draw. -/
theorem commandsWriteOnlyTheirRegisters : Obligations.CommandsWriteOnlyTheirRegisters := by
  intro i s
  obtain ⟨t, ht, f, w⟩ := exec_next_frame i s
  exact ⟨t, ht, f.cmd, f.myAddr, f.opa, f.port, f.responses, f.resets, w.wireLen, w.frame, w.parsed, w.nbuf, w.result, w.fval,
    w.time, w.dataBytes, w.wireBytes, fun hop => State.ramByte_congr (w.mem hop) f.resets⟩

/-- Settles O56: the three fields of STATUS among the columns. -/
theorem statusFieldWriters : Obligations.StatusFieldWriters := by
  intro i s
  obtain ⟨t, ht, w⟩ := exec_next_writesOnly i s
  exact ⟨t, ht, w.statMatch, w.statFv, w.statNeg⟩

end Sys2Proof.Machine

/-! PROOF. O53, O54, O52, O58 and O59, what every command and every step keeps (spec/60_exceptions.md). Which code each command
can end with, and the invariant: ERR and STICKY by the way a command ends, every other part by the commands that write it. -/

namespace Sys2Proof.Machine

/-! ### The code a command ends with (R250) -/

theorem ErrCode.code_mem_errValues (e : ErrCode) : e.code ∈ errValues := by cases e <;> decide

theorem State.EndsIn.err_mem {s t : State} (h : s.EndsIn t) : t.statErr ∈ errValues := by
  cases h with
  | ok err _ => rw [err]; decide
  | @error e err _ => rw [err]; exact e.code_mem_errValues

theorem State.EndsIn.sticky_of_ok {s t : State} (h : s.EndsIn t) (hok : t.statErr = 0x00) : t.statSticky = s.statSticky := by
  cases h with
  | ok _ keep => exact keep
  | @error e err _ => exact absurd (err.symm.trans hok) e.code_ne_zero

/-- Every failing check of R195 has a code that R250 lets FRAME_PARSE raise. -/
theorem frameCheck_error_mem {s : State} {e : ErrCode} (h : s.frameCheck = .error e) : e.code ∈ errorsOf .frameParse := by
  by_cases hlen : s.wireLen.toNat > 1024
  · rw [State.frameCheck_eq, if_pos hlen] at h
    cases h; decide
  · cases hf : s.firstStart s.wireLen.toNat with
    | none =>
      rw [State.frameCheck_eq, if_neg hlen, hf] at h
      cases h; decide
    | some p =>
      rw [State.frameCheck_of_start (by omega) ((s.firstStart_eq_some_iff _ p).1 hf)] at h
      split_ifs at h <;> cases h <;> decide

theorem formatOf_eq_none_iff (fmt : BitVec 4) : formatOf fmt = none ↔ legalFMT fmt = false := by
  rw [← Bool.not_eq_true, ← formatOf_isSome_iff, Bool.not_eq_true, Option.isSome_eq_false_iff, Option.isNone_iff_eq_none]

/-- With legal operands a command ends with 0x00 or a code of its own rows of R250. -/
theorem exec_next_err_mem (i : Instr) (s : State) (hi : WellFormed i = true) :
    ∃ t, exec i s = .next t ∧ t.statErr ∈ errorsOf i.op := by
  cases i with
  | nop => exact ⟨_, execNop_eq s, .head _⟩
  | frameBuild => exact ⟨_, execFrameBuild_eq s, .head _⟩
  | frameParse =>
    obtain ⟨e, he, h⟩ | ⟨p, -, h⟩ := execFrameParse_cases s
    · exact ⟨_, h, frameCheck_error_mem he⟩
    · exact ⟨_, h, .head _⟩
  | addrMatchSrv => exact ⟨_, execAddrMatchSrv_eq s, .head _⟩
  | addrMatchCli => exact ⟨_, execAddrMatchCli_eq s, .head _⟩
  | domainEncode => exact ⟨_, execDomainEncode_eq s, .head _⟩
  | domainDecode => exact ⟨_, execDomainDecode_eq s, .head _⟩
  | bcd8ToBin =>
    obtain ⟨-, h⟩ | ⟨-, h⟩ := execBcd8ToBin_cases s
    · exact ⟨_, h, .head _⟩
    · exact ⟨_, h, .tail _ (.head _)⟩
  | binToBcd8 =>
    obtain ⟨-, h⟩ | ⟨-, h⟩ := execBinToBcd8_cases s
    · exact ⟨_, h, .head _⟩
    · exact ⟨_, h, .tail _ (.head _)⟩
  | intToBcd le nb =>
    obtain ⟨hbad, -⟩ | ⟨-, -, h⟩ | ⟨-, -, h⟩ := execIntToBcd_cases le nb s
    · cases hbad.symm.trans hi
    · exact ⟨_, h, .tail _ (.head _)⟩
    · exact ⟨_, h, .head _⟩
  | bcdToInt le nb =>
    obtain ⟨hbad, -⟩ | ⟨-, -, h⟩ | ⟨-, -, h⟩ := execBcdToInt_cases le nb s
    · cases hbad.symm.trans hi
    · exact ⟨_, h, .head _⟩
    · exact ⟨_, h, .tail _ (.head _)⟩
  | floatToBcd le fmt =>
    obtain ⟨hbad, -⟩ | ⟨f, -, -, h⟩ | ⟨f, -, -, h⟩ := execFloatToBcd_cases le fmt s
    · cases ((formatOf_eq_none_iff fmt).1 hbad).symm.trans hi
    · exact ⟨_, h, .head _⟩
    · exact ⟨_, h, .tail _ (.head _)⟩
  | bcdToFloat le nb fmt =>
    obtain ⟨hnb, hfmt⟩ := Bool.and_eq_true_iff.1 hi
    obtain ⟨hbad, -⟩ | ⟨f, -, -, -, h⟩ | ⟨f, -, -, -, h⟩ := execBcdToFloat_cases le nb fmt s
    · rw [formatOf_eq_none_iff, hfmt, hnb] at hbad
      simp at hbad
    · exact ⟨_, h, .head _⟩
    · exact ⟨_, h, .tail _ (.head _)⟩
  | valueValid fmt =>
    obtain ⟨hbad, -⟩ | ⟨f, -, h⟩ := execValueValid_cases fmt s
    · cases ((formatOf_eq_none_iff fmt).1 hbad).symm.trans hi
    · exact ⟨_, h, .head _⟩
  | timeToBcd le =>
    obtain ⟨-, h⟩ | ⟨-, h⟩ := execTimeToBcd_cases le s
    · exact ⟨_, h, .tail _ (.head _)⟩
    · exact ⟨_, h, .head _⟩
  | bcdToTime le =>
    obtain ⟨-, h⟩ | ⟨-, h⟩ := execBcdToTime_cases le s
    · exact ⟨_, h, .head _⟩
    · exact ⟨_, h, .tail _ (.head _)⟩
  | u32ToLe4 => exact ⟨_, execU32ToLe4_eq s, .head _⟩
  | le4ToU32 => exact ⟨_, execLe4ToU32_eq s, .head _⟩

/-- Settles O53: ERR and STICKY from the two ways in which a command ends, the command's own codes from its cases. -/
theorem everyCommandReportsInErrAndSticky : Obligations.EveryCommandReportsInErrAndSticky := by
  intro i s
  obtain ⟨t, ht, hend⟩ := exec_next_endsIn i s
  refine ⟨t, ht, hend.err_mem, fun hi => ?_, hend.sticky_of_ok, hend.sticky_of_err⟩
  obtain ⟨u, hu, hmem⟩ := exec_next_err_mem i s hi
  obtain rfl := Host.Outcome.next.inj (ht.symm.trans hu)
  exact hmem

/-- Settles O54: an ill-formed command has an illegal NB or FMT, and each of the five takes its E_BAD_FIELD case. -/
theorem illegalOperandsReportBadField : Obligations.IllegalOperandsReportBadField := by
  intro i s hi
  cases i with
  | intToBcd le nb =>
    obtain ⟨-, h⟩ | ⟨hnb, -⟩ | ⟨hnb, -⟩ := execIntToBcd_cases le nb s
    · exact h
    · cases hi.symm.trans hnb
    · cases hi.symm.trans hnb
  | bcdToInt le nb =>
    obtain ⟨-, h⟩ | ⟨hnb, -⟩ | ⟨hnb, -⟩ := execBcdToInt_cases le nb s
    · exact h
    · cases hi.symm.trans hnb
    · cases hi.symm.trans hnb
  | floatToBcd le fmt =>
    have hnone := (formatOf_eq_none_iff fmt).2 hi
    obtain ⟨-, h⟩ | ⟨f, hf, -⟩ | ⟨f, hf, -⟩ := execFloatToBcd_cases le fmt s
    · exact h
    · cases hnone.symm.trans hf
    · cases hnone.symm.trans hf
  | bcdToFloat le nb fmt =>
    have hbad : formatOf fmt = none ∨ legalNB nb = false := by
      rw [formatOf_eq_none_iff, or_comm]; exact Bool.and_eq_false_iff.1 hi
    obtain ⟨-, h⟩ | ⟨f, hf, hnb, -⟩ | ⟨f, hf, hnb, -⟩ := execBcdToFloat_cases le nb fmt s
    · exact h
    · simp [hf, hnb] at hbad
    · simp [hf, hnb] at hbad
  | valueValid fmt =>
    have hnone := (formatOf_eq_none_iff fmt).2 hi
    obtain ⟨-, h⟩ | ⟨f, hf, -⟩ := execValueValid_cases fmt s
    · exact h
    · cases hnone.symm.trans hf
  | _ => cases hi

/-! ### Every step answers (R259) -/

theorem writeAccess_next (a : Addr) (v : Word) (s : State) : ∃ t, writeAccess a v s = .next t := by
  cases hl : locate a with
  | none => exact ⟨_, writeAccess_none hl⟩
  | some l =>
    by_cases hc : l = .reg .cmd
    · obtain rfl : a = 0x000 := offset_of_locate (hc ▸ hl)
      obtain ⟨t, ht, -⟩ := issueCommand_next_commandFrame v s
      exact ⟨_, by rw [writeAccess_cmd, ht, andRespond_next]⟩
    · exact ⟨_, writeAccess_store hl hc⟩

/-- Settles O52: by the next event at the port. -/
theorem noStepStops : Obligations.NoStepStops := by
  refine fun s => ⟨?_, step_idle⟩
  cases hp : s.port with
  | nil => exact ⟨s, step_idle hp⟩
  | cons e rest =>
    cases e with
    | read a => exact ⟨_, step_read hp⟩
    | write a v => rw [step_write hp]; exact writeAccess_next a v _
    | reset => exact ⟨_, step_reset hp⟩

/-! ### The parts of the invariant that a command writes -/

/-- R37 for a producing command: a string of at most 8 bytes, declared no longer than it is. -/
theorem nlen_bound_setNbuf (s : State) {bs : List (BitVec 8)} {n : Nat} (hn : n ≤ bs.length) (hl : bs.length ≤ 8) :
    (s.setNbuf bs n).nlenDeclared.toNat ≤ (s.setNbuf bs n).nlenProduced.toNat ∧
      (s.setNbuf bs n).nlenProduced.toNat ≤ 8 := by
  simp only [State.setNbuf_nlenDeclared, State.setNbuf_nlenProduced, BitVec.toNat_ofNat]
  omega

/-- NLEN after a command: only the producing commands write it. -/
theorem exec_nlen_bound {i : Instr} {s t : State} (h : exec i s = .next t) (hw : s.WritesOnly i.op t)
    (hs : s.nlenDeclared.toNat ≤ s.nlenProduced.toNat ∧ s.nlenProduced.toNat ≤ 8) :
    t.nlenDeclared.toNat ≤ t.nlenProduced.toNat ∧ t.nlenProduced.toNat ≤ 8 := by
  cases i with
  | intToBcd le nb =>
    obtain ⟨-, h'⟩ | ⟨-, -, h'⟩ | ⟨hnb, -, h'⟩ := execIntToBcd_cases le nb s <;> cases h.symm.trans h'
    · exact hs
    · exact nlen_bound_setNbuf s le_rfl (by decide)
    · refine nlen_bound_setNbuf s ?_ ?_ <;> rw [orderLE_length, bcdstr_length]
      exact ((legalNB_iff nb).1 hnb).2
  | floatToBcd le fmt =>
    obtain ⟨-, h'⟩ | ⟨f, hf, -, h'⟩ | ⟨f, -, -, h'⟩ := execFloatToBcd_cases le fmt s <;> cases h.symm.trans h'
    · exact hs
    · obtain ⟨-, -, -, hwidth, -⟩ := Format.maxScaled_lt hf
      refine nlen_bound_setNbuf s ?_ ?_ <;> rw [orderLE_length, floatString_length] <;> omega
    · exact nlen_bound_setNbuf s le_rfl (by decide)
  | timeToBcd le =>
    obtain ⟨-, h'⟩ | ⟨-, h'⟩ := execTimeToBcd_cases le s <;> cases h.symm.trans h'
    · exact nlen_bound_setNbuf s le_rfl (by decide)
    · have hlen : (orderLE le (timeString s)).length = 5 := orderLE_length le _
      exact nlen_bound_setNbuf s hlen.ge (hlen.trans_le (by decide))
  | u32ToLe4 =>
    cases h.symm.trans (execU32ToLe4_eq s)
    have hlen : (opaBytes4 s.opa).length = 4 := rfl
    exact nlen_bound_setNbuf s hlen.ge (hlen.trans_le (by decide))
  | _ =>
    obtain ⟨-, hprod, hdecl⟩ := hw.nbuf (by simp [Instr.op])
    rwa [hprod, hdecl]

/-- R32 and R31: FRAME_LEN is 12 + L, and the frame ends inside WIRE. -/
def FrameInWire (off len : Nat) : Prop := (len = 0 ∨ (12 ≤ len ∧ len ≤ 267)) ∧ off + len ≤ 1024

/-- The frame registers after a command: only FRAME_BUILD and FRAME_PARSE write them. -/
theorem exec_frameInWire {i : Instr} {s t : State} (h : exec i s = .next t) (hw : s.WritesOnly i.op t)
    (hs : FrameInWire s.frameOff.toNat s.frameLen.toNat) : FrameInWire t.frameOff.toNat t.frameLen.toNat := by
  cases i with
  | frameBuild =>
    cases h.symm.trans (execFrameBuild_eq s)
    have hl : s.dlen.toNat < 256 := s.dlen.isLt
    have hlen : (BitVec.ofNat 9 (12 + s.dlen.toNat)).toNat = 12 + s.dlen.toNat := by rw [BitVec.toNat_ofNat]; omega
    have hoff : (4 : BitVec 11).toNat = 4 := rfl
    dsimp only
    rw [hlen, hoff, FrameInWire]
    omega
  | frameParse =>
    obtain ⟨e, -, h'⟩ | ⟨p, hp, h'⟩ := execFrameParse_cases s <;> cases h.symm.trans h'
    · exact hs
    · have hl := (s.wireByte (p + 9)).isLt
      have hlen := hp.len_le
      have hinside := hp.inside
      simp only [State.withOk_frameOff, State.setFv_frameOff, hp.loadFrame_frameOff_toNat, State.withOk_frameLen,
        State.setFv_frameLen, State.loadFrame_frameLen_toNat, FrameInWire]
      omega
  | _ =>
    obtain ⟨hoff, hlen⟩ := hw.frame (by simp [Instr.op])
    rwa [hoff, hlen]

/-- A string that NBUF holds is worth at most 16 digits. -/
theorem bcdval_lt_of_length_le {bs : List (BitVec 8)} (h : bs.all validBcd = true) (hl : bs.length ≤ 8) :
    bcdval bs < 10 ^ 16 := by
  calc bcdval bs < 100 ^ bs.length := bcdval_lt bs h
    _ ≤ 100 ^ 8 := Nat.pow_le_pow_right (by decide) hl
    _ = 10 ^ 16 := by norm_num

@[simp] theorem clearSignBit_length (bs : List (BitVec 8)) : (clearSignBit bs).length = bs.length := by cases bs <;> rfl

theorem toNat_ofNat_64_lt {x : Nat} (h : x < 10 ^ 16) : (BitVec.ofNat 64 x).toNat < 10 ^ 16 := by
  rw [BitVec.toNat_ofNat]; omega

/-- RESULT after a command: at most 16 digits, from the eight bytes of NBUF at most. -/
theorem exec_result_lt {i : Instr} {s t : State} (h : exec i s = .next t) (hw : s.WritesOnly i.op t)
    (hs : s.result.toNat < 10 ^ 16) : t.result.toNat < 10 ^ 16 := by
  cases i with
  | bcd8ToBin =>
    obtain ⟨hvalid, h'⟩ | ⟨-, h'⟩ := execBcd8ToBin_cases s <;> cases h.symm.trans h'
    · exact toNat_ofNat_64_lt ((bcd8_lt hvalid).trans (by norm_num))
    · exact Nat.zero_lt_succ _
  | binToBcd8 =>
    obtain ⟨-, h'⟩ | ⟨-, h'⟩ := execBinToBcd8_cases s <;> cases h.symm.trans h'
    · have hbyte := (tobcd8 s.opa.toNat).isLt
      rw [BitVec.toNat_setWidth]; omega
    · exact Nat.zero_lt_succ _
  | bcdToInt le nb =>
    obtain ⟨-, h'⟩ | ⟨hnb, hvalid, h'⟩ | ⟨-, -, h'⟩ := execBcdToInt_cases le nb s <;> cases h.symm.trans h'
    · exact hs
    · exact toNat_ofNat_64_lt (bcdval_nbufString_lt ((legalNB_iff nb).1 hnb).2 hvalid)
    · exact Nat.zero_lt_succ _
  | bcdToFloat le nb fmt =>
    obtain ⟨-, h'⟩ | ⟨f, -, hnb, hvalid, h'⟩ | ⟨f, -, -, -, h'⟩ := execBcdToFloat_cases le nb fmt s <;>
      cases h.symm.trans h'
    · exact hs
    · have hle := ((legalNB_iff nb).1 hnb).2
      refine toNat_ofNat_64_lt (bcdval_lt_of_length_le hvalid ?_)
      rwa [clearSignBit_length, State.nbufString_length s le hle]
    · exact Nat.zero_lt_succ _
  | le4ToU32 =>
    cases h.symm.trans (execLe4ToU32_eq s)
    have hword := (word4 s.nbuf[0] s.nbuf[1] s.nbuf[2] s.nbuf[3]).isLt
    dsimp only
    rw [BitVec.toNat_setWidth]; omega
  | _ => rwa [hw.result (by simp [Instr.op])]

theorem mem_wf_setDataBytes {s : State} {bs : List (BitVec 8)} (hl : bs.length < 256) (hs : Memory.wf s.mem = true) :
    Memory.wf (s.setRamBytes dataBase bs).mem = true :=
  Memory.wf_insertBytes bs (fun k hk => by rw [isRamByte_iff, dataBase]; omega) hs

theorem mem_wf_setWireBytes {s : State} {bs : List (BitVec 8)} (hl : bs.length ≤ 1024) (hs : Memory.wf s.mem = true) :
    Memory.wf (s.setRamBytes wireBase bs).mem = true :=
  Memory.wf_insertBytes bs (fun k hk => by rw [isRamByte_iff, wireBase]; omega) hs

theorem mem_wf_mapData {s : State} (f : BitVec 8 → BitVec 8) (hs : Memory.wf s.mem = true) :
    Memory.wf (s.mapData f).mem = true :=
  mem_wf_setDataBytes (by rw [List.length_map, State.dataBytes_length]; exact s.dlen.isLt) hs

/-- The memory list after a command: the frame commands write inside the RAMs. -/
theorem exec_mem_wf {i : Instr} {s t : State} (h : exec i s = .next t) (hw : s.WritesOnly i.op t)
    (hs : Memory.wf s.mem = true) : Memory.wf t.mem = true := by
  cases i with
  | frameBuild =>
    cases h.symm.trans (execFrameBuild_eq s)
    have hl : s.dlen.toNat < 256 := s.dlen.isLt
    exact mem_wf_setWireBytes (by rw [builtWire_length]; omega) hs
  | frameParse =>
    obtain ⟨e, -, h'⟩ | ⟨p, -, h'⟩ := execFrameParse_cases s <;> cases h.symm.trans h'
    · exact hs
    · exact mem_wf_setDataBytes (by rw [State.parsedData_length]; exact (s.wireByte (p + 9)).isLt) hs
  | domainEncode => cases h.symm.trans (execDomainEncode_eq s); exact mem_wf_mapData enc33 hs
  | domainDecode => cases h.symm.trans (execDomainDecode_eq s); exact mem_wf_mapData dec33 hs
  | _ => rwa [hw.mem (by simp [Instr.op])]

/-! ### The invariant over a step -/

theorem State.Inv.frameInWire {s : State} (h : s.Inv) : FrameInWire s.frameOff.toNat s.frameLen.toNat :=
  ⟨h.frame_len.imp_left (congrArg BitVec.toNat), h.frame_in_wire⟩

/-- Every command keeps the invariant. -/
theorem exec_keeps_inv {i : Instr} {s t : State} (h : exec i s = .next t) (hs : s.Inv) : t.Inv := by
  obtain ⟨u, hu, hend⟩ := exec_next_endsIn i s
  obtain ⟨v, hv, hw⟩ := exec_next_writesOnly i s
  cases h.symm.trans hu
  cases h.symm.trans hv
  obtain ⟨hlen, hwire⟩ := exec_frameInWire h hw hs.frameInWire
  exact ⟨hend.err_mem, hend.sticky_of_err, exec_nlen_bound h hw hs.nlen_bound,
    hlen.imp_left fun h0 => BitVec.eq_of_toNat_eq h0, hwire, exec_result_lt h hw hs.result_bound,
    exec_mem_wf h hw hs.mem_wf⟩

theorem State.Inv.withError {s : State} (h : s.Inv) (e : ErrCode) : (s.withError e).Inv :=
  { h with err_legal := e.code_mem_errValues, err_sticky := fun _ => rfl }

/-- Settles O58: the invariant's parts on R282's values. -/
theorem invariantAtReset : Obligations.InvariantAtReset :=
  ⟨by decide, absurd rfl, by decide, .inl rfl, by decide, by decide, Memory.wf_reset⟩

theorem State.Inv.resetEvent (s : State) : s.resetEvent.Inv := { invariantAtReset with }

theorem State.Inv.respond {s : State} (h : s.Inv) (r : Response) : (s.respond r).Inv := { h with }

theorem State.Inv.writeLane {s : State} (h : s.Inv) (a : Nat) (b : BitVec 8) : (s.writeLane a b).Inv := by
  rw [State.writeLane_eq]
  exact { h with mem_wf := State.mem_wf_writeLane a b h.mem_wf }

/-- No register of the invariant is written by the host, and a lane goes to a RAM byte. -/
theorem State.Inv.writeLocation {s : State} (h : s.Inv) (l : Location) (v : Word) : (s.writeLocation l v).Inv := by
  cases l with
  | reg r => cases r <;> exact { h with }
  | ram a => exact (((h.writeLane a _).writeLane (a + 1) _).writeLane (a + 2) _).writeLane (a + 3) _

theorem issueCommand_keeps_inv {w : Word} {s t : State} (h : issueCommand w s = .next t) (hs : s.Inv) : t.Inv := by
  have hcmd : ({ s with cmd := w } : State).Inv := { hs with }
  cases hd : decode w with
  | ok i => exact exec_keeps_inv ((issueCommand_of_decode_ok hd s).symm.trans h) hcmd
  | error e =>
    cases h.symm.trans (issueCommand_of_decode_error hd s)
    exact hcmd.withError _

theorem writeAccess_keeps_inv {a : Addr} {v : Word} {s t : State} (h : writeAccess a v s = .next t) (hs : s.Inv) : t.Inv := by
  cases hl : locate a with
  | none =>
    cases h.symm.trans (writeAccess_none hl)
    exact hs.respond _
  | some l =>
    by_cases hc : l = .reg .cmd
    · obtain rfl : a = 0x000 := offset_of_locate (hc ▸ hl)
      obtain ⟨u, hu, -⟩ := issueCommand_next_commandFrame v s
      rw [writeAccess_cmd, hu, andRespond_next] at h
      cases h
      exact (issueCommand_keeps_inv hu hs).respond _
    · cases h.symm.trans (writeAccess_store hl hc)
      exact (hs.writeLocation l v).respond _

/-- Settles O59: by the next event at the port. -/
theorem invariantKeptByStep : Obligations.InvariantKeptByStep := by
  intro s t hs h
  cases hp : s.port with
  | nil =>
    cases h.symm.trans (step_idle hp)
    exact hs
  | cons e rest =>
    have htaken : ({ s with port := rest } : State).Inv := { hs with }
    cases e with
    | read a =>
      cases h.symm.trans (step_read hp)
      exact htaken.respond _
    | write a v =>
      rw [step_write hp] at h
      exact writeAccess_keeps_inv h htaken
    | reset =>
      cases h.symm.trans (step_reset hp)
      exact State.Inv.resetEvent _

end Sys2Proof.Machine

/-! PROOF. O6, O9, O11, O12, O13, O15, O16, O17, O19 and O20, the host port and the RAMs (spec/20_memory.md,
spec/70_reset_and_hazards.md). What a located word reads as, what a write of it leaves unchanged, and from both the
read after a write. -/

namespace Sys2Proof.Machine

/-! ### Reads and commands as steps -/

/-- Settles O6: a CMD write, with the command that its word decodes to. -/
theorem stepRunsTheDecodedCommand : Obligations.StepRunsTheDecodedCommand := by
  intro s w i rest hp hd
  rw [step_cmdWrite hp, issueCommand_of_decode_ok hd]

/-- Settles O9: the step of a read event. -/
theorem readsHaveNoSideEffect : Obligations.ReadsHaveNoSideEffect := fun _ _ _ => step_read

theorem State.readResponse_of_locate {a : Addr} {l : Location} (h : locate a = some l) (s : State) :
    s.readResponse a = .read .okay (s.readLocation l) := by
  unfold State.readResponse; rw [h]

/-! ### What a write access leaves of the state -/

/-- A lane write changes the memory list alone, and so do the four of a word. -/
theorem State.writeLocation_ram_eq (s : State) (a : Nat) (v : Word) :
    s.writeLocation (.ram a) v = { s with mem := (s.writeLocation (.ram a) v).mem } := by
  simp only [State.writeLocation]
  rw [State.writeLane_eq, State.writeLane_eq (State.writeLane _ _ _), State.writeLane_eq (State.writeLane _ _ _),
    State.writeLane_eq s]

section
variable (s : State) (l : Location) (r : Reg) (v : Word)

theorem State.writeReg_mem : (s.writeReg r v).mem = s.mem := by cases r <;> rfl

theorem State.writeReg_resets : (s.writeReg r v).resets = s.resets := by cases r <;> rfl

@[simp] theorem State.writeLocation_port : (s.writeLocation l v).port = s.port := by
  cases l with
  | reg r => cases r <;> rfl
  | ram a => rw [State.writeLocation_ram_eq]

@[simp] theorem State.writeLocation_responses : (s.writeLocation l v).responses = s.responses := by
  cases l with
  | reg r => cases r <;> rfl
  | ram a => rw [State.writeLocation_ram_eq]

end

/-- The response to a write of a located word is OKAY (R64, R66). -/
theorem writeAccess_responses {a : Addr} {l : Location} (h : locate a = some l) (v : Word) (s : State) :
    ∃ t, writeAccess a v s = .next t ∧ t.responses = s.responses ++ [.write .okay] := by
  by_cases hc : l = .reg .cmd
  · obtain rfl : a = 0x000 := offset_of_locate (hc ▸ h)
    obtain ⟨u, hu, frame⟩ := issueCommand_next_commandFrame v s
    refine ⟨u.respond (.write .okay), ?_, ?_⟩
    · rw [writeAccess_cmd, hu, andRespond_next]
    · rw [State.respond_responses, frame.responses]
  · exact ⟨_, writeAccess_store h hc, by rw [State.respond_responses, State.writeLocation_responses]⟩

/-- Settles O11: an aligned mapped offset names a word, and both accesses of a named word answer OKAY. -/
theorem mappedAccessesAnswerOkay : Obligations.MappedAccessesAnswerOkay := by
  intro s a v rest halign hmapped
  have hne : locate a ≠ none := by
    rw [Ne, locate_eq_none_iff, not_or, not_not]
    exact ⟨halign, hmapped⟩
  obtain ⟨l, hl⟩ := Option.ne_none_iff_exists'.1 hne
  refine ⟨fun hread => ⟨_, s.readLocation l, step_read hread, ?_⟩, fun hwrite => ?_⟩
  · rw [State.respond_responses, State.readResponse_of_locate hl]
  · rw [step_write hwrite]
    exact writeAccess_responses hl v _

/-! ### The register words as numbers (R67, R68) -/

theorem State.readResponse_offset (s : State) (r : Reg) : s.readResponse r.offset = .read .okay (s.readReg r) :=
  State.readResponse_of_locate (locate_offset r) s

theorem word_eq_ofNat {w : Word} {n : Nat} (h : w.toNat = n) : w = BitVec.ofNat 32 n := by
  rw [← h, BitVec.ofNat_toNat, BitVec.setWidth_eq]

/-- A register narrower than the word is read as its number. -/
theorem setWidth_eq_ofNat {n : Nat} (x : BitVec n) : x.setWidth 32 = BitVec.ofNat 32 x.toNat :=
  (BitVec.ofNat_toNat 32 x).symm

/-- A word with two bytes in its low lanes and 0 in the other two. -/
theorem word4_low_toNat (b0 b1 : BitVec 8) : (word4 b0 b1 0 0).toNat = b0.toNat + 2 ^ 8 * b1.toNat := word4_toNat b0 b1 0 0

theorem word4_low_eq_ofNat (b0 b1 : BitVec 8) : word4 b0 b1 0 0 = BitVec.ofNat 32 (b0.toNat + 2 ^ 8 * b1.toNat) :=
  word_eq_ofNat (word4_low_toNat b0 b1)

theorem lowHalf_eq_ofNat (x : BitVec 64) : x.extractLsb' 0 32 = BitVec.ofNat 32 (x.toNat % 2 ^ 32) :=
  word_eq_ofNat (by rw [BitVec.extractLsb'_toNat, Nat.shiftRight_zero])

theorem highHalf_eq_ofNat (x : BitVec 64) : x.extractLsb' 32 32 = BitVec.ofNat 32 (x.toNat / 2 ^ 32) := by
  have hx := x.isLt
  apply word_eq_ofNat
  rw [BitVec.extractLsb'_toNat, Nat.shiftRight_eq_div_pow]
  omega

/-- STATUS by R23's bit positions. -/
theorem State.statusWord_eq_ofNat (s : State) : s.statusWord = BitVec.ofNat 32 (s.statErr.toNat + 256 * s.statMatch.toNat +
    512 * s.statFv.toNat + 1024 * s.statNeg.toNat + 2048 * s.statSticky.toNat) := by
  apply word_eq_ofNat
  simp only [State.statusWord, toNat_append_eq, BitVec.toNat_ofBool, BitVec.toNat_zero]
  omega

/-- NLEN by R37's bit positions. -/
theorem State.readReg_nlen (s : State) :
    s.readReg .nlen = BitVec.ofNat 32 (s.nlenProduced.toNat + 2 ^ 8 * s.nlenDeclared.toNat) := by
  apply word_eq_ofNat
  simp only [State.readReg, toNat_append_eq, BitVec.toNat_zero]
  omega

theorem State.readReg_time0 (s : State) :
    s.readReg .time0 = BitVec.ofNat 32 (s.tYear.toNat + 2 ^ 16 * s.tMonth.toNat + 2 ^ 24 * s.tDay.toNat) := by
  apply word_eq_ofNat
  simp only [State.readReg, toNat_append_eq]
  omega

theorem State.readReg_time1 (s : State) : s.readReg .time1 = BitVec.ofNat 32 (s.tHour.toNat + 2 ^ 8 * s.tMin.toNat) := by
  apply word_eq_ofNat
  simp only [State.readReg, toNat_append_eq, BitVec.toNat_zero]
  omega

/-- Settles O12: each offset is its register's, and each register word is a number. -/
theorem registerWordsReadAsMapped : Obligations.RegisterWordsReadAsMapped := by
  intro s
  have read (r : Reg) {w : Word} (h : s.readReg r = w) : s.readResponse r.offset = .read .okay w :=
    h ▸ s.readResponse_offset r
  exact ⟨read .cmd rfl, read .status s.statusWord_eq_ofNat, read .wireLen (setWidth_eq_ofNat _),
    read .frameOff (setWidth_eq_ofNat _), read .frameLen (setWidth_eq_ofNat _), read .ctrl (setWidth_eq_ofNat _),
    read .dlen (setWidth_eq_ofNat _), read .nlen s.readReg_nlen, read .addrLo (word4_eq_ofNat ..),
    read .addrHi (word4_low_eq_ofNat ..), read .myAddrLo (word4_eq_ofNat ..), read .myAddrHi (word4_low_eq_ofNat ..),
    read .opaLo (lowHalf_eq_ofNat _), read .opaHi (highHalf_eq_ofNat _), read .resultLo (lowHalf_eq_ofNat _),
    read .resultHi (highHalf_eq_ofNat _), read .fval rfl, read .time0 s.readReg_time0, read .time1 s.readReg_time1,
    read .nbufLo (word4_eq_ofNat ..), read .nbufHi (word4_eq_ofNat ..)⟩

/-! ### The words of the RAM windows (R67 to R69) -/

theorem State.readLane_of_ram {a : Nat} (h : (0x100 ≤ a ∧ a < 0x1FF) ∨ (0x400 ≤ a ∧ a < 0x800)) (s : State) :
    s.readLane a = s.ramByte a := if_pos ((isRamByte_iff a).2 h)

/-- A window word all of whose lanes name RAM bytes. -/
theorem State.readLocation_ram {a : Nat} (h : (0x100 ≤ a ∧ a + 4 ≤ 0x1FF) ∨ (0x400 ≤ a ∧ a + 4 ≤ 0x800))
    (s : State) : s.readLocation (.ram a) =
      word4 (s.ramByte a) (s.ramByte (a + 1)) (s.ramByte (a + 2)) (s.ramByte (a + 3)) := by
  simp only [State.readLocation]
  rw [State.readLane_of_ram (by omega), State.readLane_of_ram (by omega), State.readLane_of_ram (by omega),
    State.readLane_of_ram (by omega)]

/-- The last word of the DATA window: lane 3 names no byte (R69). -/
theorem State.readLocation_lastData (s : State) :
    s.readLocation (.ram 0x1FC) = word4 (s.ramByte 0x1FC) (s.ramByte 0x1FD) (s.ramByte 0x1FE) 0 := by
  simp only [State.readLocation]
  rw [State.readLane_of_ram (by decide), State.readLane_of_ram (by decide), State.readLane_of_ram (by decide)]
  rfl

theorem locate_lastData : locate 0x1FC = some (.ram 0x1FC) := locate_ram (by decide) (by decide)

/-- The response to a read of a window word, from its byte address. -/
theorem State.readResponse_ram {a : Addr} {n : Nat} (ha : a.toNat = n) (halign : n % 4 = 0)
    (hn : (0x100 ≤ n ∧ n + 4 ≤ 0x1FF) ∨ (0x400 ≤ n ∧ n + 4 ≤ 0x800)) (s : State) :
    s.readResponse a = .read .okay (BitVec.ofNat 32 ((s.ramByte n).toNat + 2 ^ 8 * (s.ramByte (n + 1)).toNat +
      2 ^ 16 * (s.ramByte (n + 2)).toNat + 2 ^ 24 * (s.ramByte (n + 3)).toNat)) := by
  subst ha
  rw [State.readResponse_of_locate (locate_ram halign (by omega)), State.readLocation_ram hn, word4_eq_ofNat]

/-- Settles O13: the words of the two windows from their byte addresses, and the DATA window's last word. -/
theorem ramWindowsReadTheBytes : Obligations.RamWindowsReadTheBytes := by
  intro s j
  refine ⟨fun hj => ?_, ?_, fun hj => ?_⟩
  · exact State.readResponse_ram (n := 0x100 + 4 * j) (by rw [BitVec.toNat_ofNat]; omega) (by omega) (by omega) s
  · rw [State.readResponse_of_locate locate_lastData, State.readLocation_lastData, word4_eq_ofNat]
    rfl
  · exact State.readResponse_ram (n := 0x400 + 4 * j) (by rw [BitVec.toNat_ofNat]; omega) (by omega) (by omega) s

/-! ### RAM bytes after a write of a window word -/

/-- The four lanes go to the four addresses of the word, where these name RAM bytes. -/
theorem State.ramByte_writeLocation_ram (s : State) (a x : Nat) (v : Word) : (s.writeLocation (.ram a) v).ramByte x =
    if isRamByte x = true ∧ a ≤ x ∧ x < a + 4 then lane v (x - a) else s.ramByte x := by
  simp only [State.writeLocation, State.ramByte_writeLane]
  by_cases hx : a ≤ x ∧ x < a + 4
  · obtain ⟨k, rfl⟩ := Nat.exists_eq_add_of_le hx.1
    have hk : k < 4 := by omega
    rw [Nat.add_sub_cancel_left]
    by_cases hram : isRamByte (a + k) = true
    · interval_cases k <;> simp [hram]
    · interval_cases k <;> simp [hram]
  · rw [if_neg (by omega), if_neg (by omega), if_neg (by omega), if_neg (by omega), if_neg (by tauto)]

/-- Settles O17: the state but for its memory list, then the bytes inside and outside the word. -/
theorem ramWriteStoresItsLanes : Obligations.RamWriteStoresItsLanes := by
  intro s a v rest halign hwin hp
  have hl : locate a = some (.ram a.toNat) := locate_ram halign (by omega)
  rw [step_write hp, writeAccess_store hl nofun]
  refine ⟨_, rfl, ?_, fun k hk hne => ?_, fun x hx => ?_⟩
  · rw [State.writeLocation_ram_eq]; rfl
  · change (State.writeLocation _ _ v).ramByte _ = _
    rw [State.ramByte_writeLocation_ram, if_pos, Nat.add_sub_cancel_left, lane_eq_ofNat]
    exact ⟨(isRamByte_iff _).2 (by omega), by omega, by omega⟩
  · change (State.writeLocation _ _ v).ramByte _ = _
    rw [State.ramByte_writeLocation_ram, if_neg]
    · rfl
    · rw [isRamByte_iff]; omega

/-! ### A read after a write of the same word (R63, R69) -/

/-- The writable bits of a register word (R63): none for CMD, which runs a command, and the read-only registers. -/
def Reg.writable : Reg → Option Word
  | .addrLo | .myAddrLo | .opaLo | .opaHi | .fval | .time0 | .nbufLo | .nbufHi => some 0xFFFFFFFF
  | .addrHi | .myAddrHi | .time1 => some 0x0000FFFF
  | .ctrl | .dlen => some 0x000000FF
  | .wireLen => some 0x000007FF
  | .cmd | .status | .frameOff | .frameLen | .nlen | .resultLo | .resultHi => none

theorem writableBits_offset (r : Reg) : writableBits r.offset.toNat = r.writable := by cases r <;> decide

/-- The low bits of a word as a number. -/
theorem and_lowMask_toNat (v : Word) {k : Nat} (hk : k < 32) :
    (v &&& BitVec.ofNat 32 (2 ^ k - 1)).toNat = v.toNat % 2 ^ k := by
  have hlt : 2 ^ k - 1 < 2 ^ 32 := by
    have := Nat.pow_lt_pow_right (a := 2) (by decide) hk
    omega
  rw [BitVec.toNat_and, BitVec.toNat_ofNat, Nat.mod_eq_of_lt hlt, Nat.and_two_pow_sub_one_eq_mod]

theorem word4_low_lanes (v : Word) : word4 (lane v 0) (lane v 1) 0 0 = v &&& 0x0000FFFF := by
  have hmask : (v &&& 0x0000FFFF).toNat = v.toNat % 2 ^ 16 := and_lowMask_toNat v (k := 16) (by decide)
  apply BitVec.eq_of_toNat_eq
  rw [hmask, word4_low_toNat, lane_toNat, lane_toNat]
  omega

theorem word4_lastData_lanes (v : Word) : word4 (lane v 0) (lane v 1) (lane v 2) 0 = v &&& 0x00FFFFFF := by
  have hmask : (v &&& 0x00FFFFFF).toNat = v.toNat % 2 ^ 24 := and_lowMask_toNat v (k := 24) (by decide)
  have hzero : (0 : BitVec 8).toNat = 0 := rfl
  apply BitVec.eq_of_toNat_eq
  rw [hmask, word4_toNat, lane_toNat, lane_toNat, lane_toNat, hzero]
  omega

theorem setWidth_setWidth_eq_and (v : Word) {k : Nat} (hk : k < 32) :
    (v.setWidth k).setWidth 32 = v &&& BitVec.ofNat 32 (2 ^ k - 1) := by
  apply BitVec.eq_of_toNat_eq
  have hpow := Nat.pow_lt_pow_right (a := 2) (by decide) hk
  have hmod := Nat.mod_lt v.toNat (Nat.two_pow_pos k)
  rw [and_lowMask_toNat v hk, BitVec.toNat_setWidth, BitVec.toNat_setWidth, Nat.mod_eq_of_lt (hmod.trans hpow)]

/-- A register word reads back the writable bits written (R63). -/
theorem State.readReg_writeReg {r : Reg} {m : Word} (h : r.writable = some m) (s : State) (v : Word) :
    (s.writeReg r v).readReg r = v &&& m := by
  have full : v &&& 0xFFFFFFFF = v := BitVec.and_allOnes
  cases r with
  | cmd | status | frameOff | frameLen | nlen | resultLo | resultHi => cases h
  | addrLo | myAddrLo | nbufLo | nbufHi => cases h; exact (word4_lanes v).trans full.symm
  | addrHi | myAddrHi => cases h; exact word4_low_lanes v
  | opaLo => cases h; exact BitVec.extractLsb'_append_eq_right.trans full.symm
  | opaHi => cases h; exact BitVec.extractLsb'_append_eq_left.trans full.symm
  | fval => cases h; exact full.symm
  | wireLen => cases h; exact setWidth_setWidth_eq_and v (k := 11) (by decide)
  | ctrl | dlen => cases h; exact setWidth_setWidth_eq_and v (k := 8) (by decide)
  | time0 =>
    cases h
    refine Eq.trans (BitVec.eq_of_toNat_eq ?_) full.symm
    have hv := v.isLt
    simp only [State.readReg, State.writeReg, toNat_append_eq, BitVec.extractLsb'_toNat, Nat.shiftRight_eq_div_pow]
    omega
  | time1 =>
    cases h
    refine (BitVec.eq_of_toNat_eq ?_).trans (word4_low_lanes v)
    simp only [State.readReg, State.writeReg, toNat_append_eq, BitVec.extractLsb'_toNat, Nat.shiftRight_eq_div_pow,
      word4_low_toNat, lane_toNat, BitVec.toNat_zero]
    omega

/-- A lane inside the RAMs reads back as written. -/
theorem State.ramByte_writeLocation_lane {a k : Nat} (hk : k < 4)
    (h : (0x100 ≤ a + k ∧ a + k < 0x1FF) ∨ (0x400 ≤ a + k ∧ a + k < 0x800)) (s : State) (v : Word) :
    (s.writeLocation (.ram a) v).ramByte (a + k) = lane v k := by
  rw [State.ramByte_writeLocation_ram, if_pos ⟨(isRamByte_iff _).2 h, by omega, by omega⟩, Nat.add_sub_cancel_left]

/-- A window word reads back as written. -/
theorem State.readLocation_writeLocation_ram {a : Nat}
    (h : (0x100 ≤ a ∧ a + 4 ≤ 0x1FF) ∨ (0x400 ≤ a ∧ a + 4 ≤ 0x800)) (s : State) (v : Word) :
    (s.writeLocation (.ram a) v).readLocation (.ram a) = v := by
  have byte {k : Nat} (hk : k < 4) : (s.writeLocation (.ram a) v).ramByte (a + k) = lane v k :=
    State.ramByte_writeLocation_lane hk (by omega) s v
  rw [State.readLocation_ram h, byte (by decide : 1 < 4), byte (by decide : 2 < 4), byte (by decide : 3 < 4),
    show (s.writeLocation (.ram a) v).ramByte a = lane v 0 from byte (by decide : 0 < 4), word4_lanes]

theorem State.readLocation_writeLocation_lastData (s : State) (v : Word) :
    (s.writeLocation (.ram 0x1FC) v).readLocation (.ram 0x1FC) = v &&& 0x00FFFFFF := by
  have byte {k : Nat} (hk : k < 3) : (s.writeLocation (.ram 0x1FC) v).ramByte (0x1FC + k) = lane v k :=
    State.ramByte_writeLocation_lane (by omega) (by omega) s v
  rw [State.readLocation_lastData, ← word4_lastData_lanes, ← byte (by decide : 0 < 3), ← byte (by decide : 1 < 3),
    ← byte (by decide : 2 < 3)]

/-- The writable bits of the window words (R67, R69). -/
theorem writableBits_ram {a : Nat} (halign : a % 4 = 0) (h : (0x100 ≤ a ∧ a < 0x200) ∨ (0x400 ≤ a ∧ a < 0x800)) :
    writableBits a = if a = 0x1FC then some 0x00FFFFFF else some 0xFFFFFFFF := by
  have hreg : ∀ l : List Nat, (∀ x ∈ l, x < 0x100) → a ∉ l := fun l hl ha => by
    have := hl a ha
    omega
  unfold writableBits
  rw [if_neg (hreg _ (by decide)), if_neg (hreg _ (by decide)), if_neg (hreg _ (by decide)), if_neg (by omega)]
  by_cases hlast : a = 0x1FC
  · rw [if_pos hlast, if_pos hlast]
  · rw [if_neg hlast, if_neg hlast, if_pos (by omega)]

/-- Only mapped words have writable bits. -/
theorem mapped_of_writableBits {a : Nat} {m : Word} (h : writableBits a = some m) : a % 4 = 0 ∧ ¬ Unmapped a := by
  unfold writableBits at h
  unfold Unmapped
  split_ifs at h with hfull hhalf hbyte hlen hlast hram
  · simp only [List.mem_cons, List.not_mem_nil, or_false] at hfull; omega
  · simp only [List.mem_cons, List.not_mem_nil, or_false] at hhalf; omega
  · simp only [List.mem_cons, List.not_mem_nil, or_false] at hbyte; omega
  · omega
  · omega
  · omega

/-- A word with writable bits reads back those bits, and is a word other than CMD. -/
theorem readLocation_writeLocation_of_writableBits {a : Addr} {m : Word} (h : writableBits a.toNat = some m) :
    ∃ l, locate a = some l ∧ l ≠ .reg .cmd ∧
      ∀ (s : State) (v : Word), (s.writeLocation l v).readLocation l = v &&& m := by
  cases hl : locate a with
  | none =>
    have hmapped := mapped_of_writableBits h
    rw [locate_eq_none_iff] at hl
    tauto
  | some l =>
    refine ⟨l, rfl, ?_⟩
    cases l with
    | reg r =>
      rw [offset_of_locate hl, writableBits_offset] at h
      refine ⟨fun hr => ?_, State.readReg_writeReg h⟩
      cases Location.reg.inj hr
      cases h
    | ram x =>
      refine ⟨nofun, fun s v => ?_⟩
      obtain ⟨rfl, halign, hwin⟩ := locate_eq_ram hl
      rw [writableBits_ram halign hwin] at h
      by_cases hlast : a.toNat = 0x1FC
      · rw [if_pos hlast] at h
        cases h
        rw [hlast, State.readLocation_writeLocation_lastData]
      · rw [if_neg hlast] at h
        cases h
        rw [State.readLocation_writeLocation_ram (by omega)]
        exact BitVec.and_allOnes.symm

/-- What a word reads as does not depend on the port's lists. -/
@[simp] theorem State.readLocation_respond (s : State) (r : Response) (l : Location) :
    (s.respond r).readLocation l = s.readLocation l := by
  cases l with
  | reg r => cases r <;> rfl
  | ram a => rfl

/-- Settles O15: two steps, the read of what the write left at the same word. -/
theorem readAfterWriteReturnsDefinedBits : Obligations.ReadAfterWriteReturnsDefinedBits := by
  intro s a v m rest hm hp
  obtain ⟨l, hl, hcmd, hback⟩ := readLocation_writeLocation_of_writableBits hm
  refine ⟨_, _, (step_write hp).trans (writeAccess_store hl hcmd), step_read (rest := rest) (a := a) ?_, ?_, rfl⟩
  · rw [State.respond_port, State.writeLocation_port]
  · rw [State.readResponse_of_locate hl, State.readLocation_respond, hback, State.respond_responses]
    dsimp only
    rw [State.respond_responses, State.writeLocation_responses, List.append_assoc]
    rfl

/-! ### The other words (R65) -/

/-- A register write changes what no other register word reads as: two words share no bit, and only OPA's two share a
register whose halves have to be taken apart. -/
theorem State.readReg_writeReg_of_ne {r r' : Reg} (hne : r' ≠ r) (s : State) (v : Word) :
    (s.writeReg r v).readReg r' = s.readReg r' := by
  cases r with
  | status | frameOff | frameLen | nlen | resultLo | resultHi => rfl
  | opaLo =>
    cases r' with
    | opaLo => exact absurd rfl hne
    | opaHi => exact BitVec.extractLsb'_append_eq_left
    | _ => rfl
  | opaHi =>
    cases r' with
    | opaHi => exact absurd rfl hne
    | opaLo => exact BitVec.extractLsb'_append_eq_right
    | _ => rfl
  | _ => cases r' <;> first | exact absurd rfl hne | rfl

theorem State.readLane_congr {s t : State} {a : Nat} (h : t.ramByte a = s.ramByte a) : t.readLane a = s.readLane a := by
  unfold State.readLane; rw [h]

theorem State.readLocation_ram_congr {s t : State} {a : Nat} (h : ∀ k < 4, t.ramByte (a + k) = s.ramByte (a + k)) :
    t.readLocation (.ram a) = s.readLocation (.ram a) := by
  simp only [State.readLocation]
  rw [State.readLane_congr (a := a) (h 0 (by decide)), State.readLane_congr (h 1 (by decide)),
    State.readLane_congr (h 2 (by decide)), State.readLane_congr (h 3 (by decide))]

/-- A write changes what no word at another address reads as: registers and RAM bytes are apart, and so are two aligned
window words. -/
theorem State.readLocation_writeLocation_of_ne {a b : Addr} {l l' : Location} (hl : locate a = some l)
    (hl' : locate b = some l') (hne : b ≠ a) (s : State) (v : Word) :
    (s.writeLocation l v).readLocation l' = s.readLocation l' := by
  cases l with
  | reg r =>
    cases l' with
    | reg r' =>
      refine State.readReg_writeReg_of_ne (fun hr => hne ?_) s v
      rw [offset_of_locate hl, offset_of_locate hl', hr]
    | ram x =>
      exact State.readLocation_ram_congr fun k _ => State.ramByte_congr (s.writeReg_mem r v) (s.writeReg_resets r v) _
  | ram x =>
    cases l' with
    | reg r' =>
      rw [State.writeLocation_ram_eq]
      cases r' <;> rfl
    | ram y =>
      obtain ⟨rfl, halign, -⟩ := locate_eq_ram hl
      obtain ⟨rfl, halign', -⟩ := locate_eq_ram hl'
      have hxy : b.toNat ≠ a.toNat := fun h => hne (BitVec.eq_of_toNat_eq h)
      refine State.readLocation_ram_congr fun k hk => ?_
      rw [State.ramByte_writeLocation_ram, if_neg (by omega)]

theorem State.readLocation_of_port (s : State) (p : List PortEvent) (l : Location) :
    ({ s with port := p } : State).readLocation l = s.readLocation l := by
  cases l with
  | reg r => cases r <;> rfl
  | ram a => rfl

/-- Settles O16: by what the two addresses name. -/
theorem writeLeavesOtherWords : Obligations.WriteLeavesOtherWords := by
  intro s a b v rest ha hne hp
  rw [step_write hp]
  cases hb : locate b with
  | none =>
    obtain ⟨t, ht⟩ := writeAccess_next a v { s with port := rest }
    exact ⟨t, ht, by rw [State.readResponse_of_locate_none hb, State.readResponse_of_locate_none hb]⟩
  | some l' =>
    simp only [State.readResponse_of_locate hb]
    cases hl : locate a with
    | none =>
      refine ⟨_, writeAccess_none hl, ?_⟩
      rw [State.readLocation_respond, State.readLocation_of_port]
    | some l =>
      have hcmd : l ≠ .reg .cmd := fun h => ha (congrArg BitVec.toNat (offset_of_locate (h ▸ hl)))
      refine ⟨_, writeAccess_store hl hcmd, ?_⟩
      rw [State.readLocation_respond, State.readLocation_writeLocation_of_ne hl hb hne, State.readLocation_of_port]

/-! ### Reset (R280, R281) -/

/-- With no byte written each RAM byte is the draw's. -/
theorem State.ramByte_of_mem_nil {s : State} (h : s.mem = []) (a : Nat) : s.ramByte a = Config.ramInit s.resets a := by
  unfold State.ramByte; rw [h]; rfl

/-- Settles O19: no byte is written after reset, and one write changes one byte. -/
theorem ramBytesAfterReset : Obligations.RamBytesAfterReset := by
  refine fun n a => ⟨State.ramByte_of_mem_nil rfl a, fun v b => ?_⟩
  rw [State.ramByte_setRamBytes, State.ramByte_of_mem_nil rfl]
  by_cases hb : b = a
  · subst hb; simp
  · rw [if_neg (by rw [List.length_singleton]; omega), if_neg hb]

/-- Settles O20: the step of a reset event. -/
theorem resetEventRestartsTheBlock : Obligations.ResetEventRestartsTheBlock :=
  fun _ _ hp => ⟨_, step_reset hp, rfl, State.ramByte_of_mem_nil rfl⟩

end Sys2Proof.Machine

/-! PROOF. O48, O47 and O27, FRAME_BUILD's operands, a flipped bit in a frame and the integer round trips
(spec/43_frame.md R204, spec/70_reset_and_hazards.md R284, R288, spec/40_bcd.md). -/

namespace Sys2Proof.Machine

/-! ### What FRAME_BUILD reads (R284, R288) -/

theorem State.dataBytes_congr {s s' : State} {n : Nat} (h : ∀ i < n, s'.dataByte i = s.dataByte i) :
    s'.dataBytes n = s.dataBytes n :=
  List.map_congr_left fun i hi => h i (List.mem_range.1 hi)

theorem builtWire_congr {s s' : State} (haddr : s'.addr = s.addr) (hctrl : s'.ctrl = s.ctrl) (hdlen : s'.dlen = s.dlen)
    (hdata : ∀ i < s.dlen.toNat, s'.dataByte i = s.dataByte i) : builtWire s' = builtWire s := by
  unfold builtWire
  rw [haddr, hctrl, hdlen, State.dataBytes_congr hdata]

/-- Settles O48: the built bytes are a function of the operands, and the registers of DLEN. -/
theorem frameBuildReadsOnlyItsOperands : Obligations.FrameBuildReadsOnlyItsOperands := by
  intro s s' haddr hctrl hdlen hdata
  refine ⟨_, _, exec_frameBuild_eq_built s, exec_frameBuild_eq_built s', ?_, rfl, ?_, fun i hi => ?_⟩
  · exact congrArg (fun b : BitVec 8 => BitVec.ofNat 11 (16 + b.toNat)) hdlen
  · exact congrArg (fun b : BitVec 8 => BitVec.ofNat 9 (12 + b.toNat)) hdlen
  · rw [State.built_wireByte hi, State.built_wireByte (by rwa [hdlen]), builtWire_congr haddr hctrl hdlen hdata]

/-! ### One flipped bit (R204) -/

theorem flipBit_ne (b : BitVec 8) {k : Nat} (hk : k < 8) : b ^^^ BitVec.ofNat 8 (2 ^ k) ≠ b := by
  revert b k; decide

/-- `s'` is `s` but for one WIRE byte, at index m, which differs. -/
structure OneByteChanged (s s' : State) (m : Nat) : Prop where
  wireLen : s'.wireLen = s.wireLen
  changed : s'.wireByte m ≠ s.wireByte m
  same : ∀ i, i ≠ m → s'.wireByte i = s.wireByte i

section
variable {s s' : State} {p j : Nat}

/-- A change behind the first start marker leaves the scan position. -/
theorem ParseOk.leastStart_of_changed (hp : ParseOk s p) (hc : OneByteChanged s s' (p + j)) (hj : 0 < j) :
    LeastStart s' s'.wireLen.toNat p := by
  obtain ⟨hlt, hmark, hleast⟩ := hp.start
  refine ⟨by rwa [hc.wireLen], by rwa [hc.same p (by omega)], fun i hi => ?_⟩
  rw [hc.same i (by omega)]
  exact hleast i hi

/-- A change among the bytes under the checksum or in the checksum itself breaks their agreement. -/
theorem ParseOk.sum_ne_of_changed (hp : ParseOk s p) (hc : OneByteChanged s s' (p + j))
    (hj : j ≤ 10 + (s.wireByte (p + 9)).toNat) :
    sum256 s'.wireByte p (p + 10 + (s.wireByte (p + 9)).toNat) ≠ s'.wireByte (p + 10 + (s.wireByte (p + 9)).toNat) := by
  have hsum := hp.sum
  generalize hl : (s.wireByte (p + 9)).toNat = l at hsum hj ⊢
  by_cases hcheck : j = 10 + l
  · subst hcheck
    rw [Nat.add_assoc] at hsum ⊢
    rw [sum256_congr fun k _ hk => hc.same k (by omega), hsum]
    exact hc.changed.symm
  · rw [hc.same (p + 10 + l) (by omega), sum256_change (by omega) (by omega) hc.same, hsum]
    intro h
    rw [add_sub_assoc, add_eq_left, sub_eq_zero] at h
    exact hc.changed h

/-- A change behind the first marker, but not in the length byte: the checks of R195 up to the one that sees it. -/
theorem ParseOk.parse_of_changed (hp : ParseOk s p) (hc : OneByteChanged s s' (p + j)) (hj : 0 < j) (hlen : j ≠ 9) :
    (j = 7 → exec .frameParse s' = .next { s' with statFv := false, statErr := 0x12, statSticky := true }) ∧
    ((1 ≤ j ∧ j ≤ 6) ∨ j = 8 ∨ (10 ≤ j ∧ j ≤ 10 + (s.wireByte (p + 9)).toNat) →
      exec .frameParse s' = .next { s' with statFv := false, statErr := 0x14, statSticky := true }) ∧
    (j = 11 + (s.wireByte (p + 9)).toNat →
      exec .frameParse s' = .next { s' with statFv := false, statErr := 0x15, statSticky := true }) := by
  have hstart := hp.leastStart_of_changed hc hj
  have hchanged := hc.changed
  have hne := hp.sum_ne_of_changed hc
  obtain ⟨hn, -, henough, hsecond, hinside, hsum, hend⟩ := hp
  have hl : s'.wireByte (p + 9) = s.wireByte (p + 9) := hc.same _ (by omega)
  rw [← hc.wireLen] at hn henough hinside
  obtain ⟨-, secondBad, -, sumBad, endBad, -⟩ := (frameParseResult.2 s' _ rfl).2.2 p _ hn hstart rfl
  rw [hl] at sumBad endBad
  have hsecond' (h7 : j ≠ 7) : s'.wireByte (p + 7) = 0x68 := (hc.same _ (by omega)).trans hsecond
  refine ⟨?_, fun hrange => ?_, ?_⟩
  · rintro rfl
    exact secondBad henough fun h => hchanged (h.trans hsecond.symm)
  · exact sumBad henough (hsecond' (by omega)) hinside (hne (by omega))
  · rintro rfl
    refine endBad henough (hsecond' (by omega)) hinside ?_ fun h => hchanged ?_
    · rw [sum256_congr fun k _ hk => hc.same k (by omega), hc.same _ (by omega)]
      exact hsum
    · rw [← Nat.add_assoc, h, hend]

end

/-- Settles O47: the change is seen by the check of its byte, since the byte after a flip differs. -/
theorem singleBitFlipIsDetected : Obligations.SingleBitFlipIsDetected := by
  rintro s s' t j k l hexec hok rfl hk hwireLen hflip hsame
  obtain ⟨p, hp, rfl⟩ := parseOk_of_execFrameParse hexec hok
  rw [State.withOk_frameOff, State.setFv_frameOff, hp.loadFrame_frameOff_toNat] at hflip hsame
  have hdlen : ((s.loadFrame p).setFv true).withOk.dlen = s.wireByte (p + 9) := rfl
  have hc : OneByteChanged s s' (p + j) := ⟨hwireLen, hflip ▸ flipBit_ne _ hk, hsame⟩
  rw [hdlen]
  by_cases hj : 0 < j ∧ j ≠ 9
  · obtain ⟨second, sum, ending⟩ := hp.parse_of_changed hc hj.1 hj.2
    obtain ⟨u, hu, -⟩ := exec_next_commandFrame .frameParse s'
    refine ⟨u, hu, fun h => ?_, fun h => ?_, fun h => ?_⟩
    · cases hu.symm.trans (sum h); rfl
    · cases hu.symm.trans (second h); rfl
    · cases hu.symm.trans (ending h); rfl
  · obtain ⟨u, hu, -⟩ := exec_next_commandFrame .frameParse s'
    exact ⟨u, hu, by omega, by omega, by omega⟩

/-! ### Integers and their strings (R114, R116) -/

section
variable {nb : BitVec 4} {s : State}

theorem execIntToBcd_of_lt (hnb : legalNB nb = true) (hlt : s.opa.toNat < 100 ^ nb.toNat) (le : Bool) :
    exec (.intToBcd le nb) s = .next (s.setNbuf (orderLE le (bcdstr s.opa.toNat nb.toNat)) nb.toNat).withOk := by
  obtain ⟨hbad, -⟩ | ⟨-, hge, -⟩ | ⟨-, -, hexec⟩ := execIntToBcd_cases le nb s
  · cases hbad.symm.trans hnb
  · exact absurd hlt hge.not_gt
  · exact hexec

theorem execBcdToInt_of_valid (hnb : legalNB nb = true) {le : Bool}
    (hvalid : (s.nbufString le nb.toNat).all validBcd = true) :
    exec (.bcdToInt le nb) s =
      .next { s with result := BitVec.ofNat 64 (bcdval (s.nbufString le nb.toNat)), statErr := 0x00 } := by
  obtain ⟨hbad, -⟩ | ⟨-, -, hexec⟩ | ⟨-, hinvalid, -⟩ := execBcdToInt_cases le nb s
  · cases hbad.symm.trans hnb
  · exact hexec
  · cases hinvalid.symm.trans hvalid

end

/-- OPA's low word from its four bytes (R73). -/
theorem opaBytes4_word (v : BitVec 64) :
    (word4 (v.extractLsb' 0 8) (v.extractLsb' 8 8) (v.extractLsb' 16 8) (v.extractLsb' 24 8)).toNat = v.toNat % 2 ^ 32 := by
  simp only [word4_toNat, BitVec.extractLsb'_toNat, Nat.shiftRight_eq_div_pow]
  omega

/-- Settles O27: the decoder reads back the string the encoder wrote, and LE4_TO_U32 the four bytes of OPA. -/
theorem integerRoundTrips : Obligations.IntegerRoundTrips := by
  refine ⟨fun le nb s hlo hhi hlt => ?_, fun s => ⟨_, _, execU32ToLe4_eq s, execLe4ToU32_eq _, ?_⟩⟩
  · have hnb : legalNB nb = true := (legalNB_iff nb).2 ⟨hlo, hhi⟩
    have hback : (s.setNbuf (orderLE le (bcdstr s.opa.toNat nb.toNat)) nb.toNat).withOk.nbufString le nb.toNat =
        bcdstr s.opa.toNat nb.toNat := by
      have hfill := State.nbufString_of_fill (s := (s.setNbuf (orderLE le (bcdstr s.opa.toNat nb.toNat)) nb.toNat).withOk)
        (le := le) (bs := bcdstr s.opa.toNat nb.toNat) (by rwa [bcdstr_length]) rfl
      rwa [bcdstr_length] at hfill
    refine ⟨_, _, execIntToBcd_of_lt hnb hlt le, execBcdToInt_of_valid hnb ?_, ?_, rfl⟩
    · rw [hback]; exact bcdstr_valid hlt
    · dsimp only
      rw [hback, bcdval_bcdstr hlt, BitVec.ofNat_toNat, BitVec.setWidth_eq]
  · have hword := opaBytes4_word s.opa
    have hlt : s.opa.toNat % 2 ^ 32 < 2 ^ 32 := Nat.mod_lt _ (by decide)
    refine Eq.trans ?_ hword
    rw [BitVec.toNat_setWidth]
    refine Nat.mod_eq_of_lt ?_
    omega

end Sys2Proof.Machine

/-! PROOF. O32, the rounding to binary32 (spec/41_fixed_point.md R144). A rounded quotient is an integer significand of at most
24 bits in units of 2^e; its pattern has that value; and every finite binary32 magnitude is a multiple of the same unit or
lies below the quotient's binade. -/

namespace Sys2Proof.Machine

/-! ### The significand (R144) -/

/-- `roundHalfEven` over the rationals. -/
theorem roundHalfEven_div (num : Nat) {den : Nat} (hd : 0 < den) :
    |(num : ℚ) / den - roundHalfEven num den| ≤ 1 / 2 ∧
      (|(num : ℚ) / den - roundHalfEven num den| = 1 / 2 → roundHalfEven num den % 2 = 0) := by
  obtain ⟨hle, heven⟩ := roundHalfEven_spec num den hd
  have hd' : (0 : ℚ) < den := by exact_mod_cast hd
  have hscale : |(num : ℚ) / den - roundHalfEven num den| * (2 * den) =
      ((2 * |(num : ℤ) - roundHalfEven num den * den| : ℤ) : ℚ) := by
    have hsub : (num : ℚ) / den - roundHalfEven num den = ((num : ℚ) - roundHalfEven num den * den) / den := by
      field_simp
    rw [hsub, abs_div, abs_of_pos hd']
    push_cast
    field_simp
  have hle' : ((2 * |(num : ℤ) - roundHalfEven num den * den| : ℤ) : ℚ) ≤ den := by exact_mod_cast hle
  refine ⟨?_, fun htie => heven ?_⟩
  · rw [← hscale] at hle'
    nlinarith
  · rw [htie] at hscale
    have hcast : ((2 * |(num : ℤ) - roundHalfEven num den * den| : ℤ) : ℚ) = ((den : ℤ) : ℚ) := by
      rw [← hscale]; push_cast; ring
    exact_mod_cast hcast

/-- `n` units of 2^e are a nearest multiple of the unit to v, and `n` is even when v is halfway. -/
structure RoundedTo (v : ℚ) (e : ℤ) (n : Nat) : Prop where
  near : |v - n * (2 : ℚ) ^ e| ≤ 2 ^ e / 2
  even_of_tie : |v - n * (2 : ℚ) ^ e| = 2 ^ e / 2 → n % 2 = 0

/-- The rounding of num/den as a rounding to units of 2^e. -/
theorem roundedTo_of_div {v : ℚ} {e : ℤ} {num den : Nat} (hd : 0 < den) (hv : v = (num : ℚ) / den * 2 ^ e) :
    RoundedTo v e (roundHalfEven num den) := by
  obtain ⟨hle, heven⟩ := roundHalfEven_div num hd
  have hunit : (0 : ℚ) < 2 ^ e := by positivity
  have hscale : |v - roundHalfEven num den * (2 : ℚ) ^ e| = |(num : ℚ) / den - roundHalfEven num den| * 2 ^ e := by
    rw [hv, ← sub_mul, abs_mul, abs_of_pos hunit]
  refine ⟨?_, fun htie => heven ?_⟩
  · rw [hscale]; nlinarith
  · rw [hscale] at htie
    exact mul_right_cancel₀ hunit.ne' (htie.trans (by ring : (2 : ℚ) ^ e / 2 = 1 / 2 * 2 ^ e))

theorem rndMant_roundedTo (p : Nat) {r : Nat} (hr : 0 < r) : RoundedTo ((p : ℚ) / r) (unitExp p r) (rndMant p r) := by
  have hr' : (r : ℚ) ≠ 0 := by exact_mod_cast hr.ne'
  unfold rndMant
  generalize unitExp p r = e
  dsimp only
  by_cases he : 0 ≤ e
  · obtain ⟨k, rfl⟩ := Int.eq_ofNat_of_zero_le he
    rw [if_pos he]
    refine roundedTo_of_div (by positivity) ?_
    rw [Int.toNat_natCast, zpow_natCast]
    push_cast
    field_simp
  · obtain ⟨k, hk⟩ := Int.eq_ofNat_of_zero_le (by omega : 0 ≤ -e)
    obtain rfl : e = -(k : ℤ) := by omega
    rw [if_neg he]
    refine roundedTo_of_div hr ?_
    rw [neg_neg, Int.toNat_natCast, zpow_neg, zpow_natCast]
    push_cast
    field_simp

/-! ### The binade of a quotient -/

/-- A quotient lies below 2^24 units, and unless its unit is the subnormal one at or above 2^23. -/
theorem unitExp_spec {p r : Nat} (hp : 0 < p) (hr : 0 < r) :
    -149 ≤ unitExp p r ∧ (p : ℚ) / r < 2 ^ 24 * 2 ^ unitExp p r ∧
      (unitExp p r = -149 ∨ 2 ^ 23 * 2 ^ unitExp p r ≤ (p : ℚ) / r) := by
  obtain ⟨hlow, hhigh⟩ := ilog2Ratio_spec p r hp hr
  unfold unitExp
  generalize ilog2Ratio p r = l at hlow hhigh
  have shift (n : ℕ) (e : ℤ) : (2 : ℚ) ^ n * 2 ^ e = 2 ^ (n + e) := by rw [zpow_add₀ (by norm_num), zpow_natCast]
  refine ⟨le_max_right _ _, ?_, ?_⟩
  · refine hhigh.trans_le ?_
    rw [shift]
    exact zpow_le_zpow_right₀ (by norm_num) (by push_cast; omega)
  · rcases max_cases (l - 23) (-149) with ⟨h, -⟩ | ⟨h, -⟩
    · right
      rw [h, shift]
      exact hlow.trans' (zpow_le_zpow_right₀ (by norm_num) (by push_cast; omega))
    · exact .inl h

/-- The unit of a quotient below 2^54 leaves room in the exponent field (R144: no overflow). -/
theorem unitExp_le {p r : Nat} (hp : 0 < p) (hr : 0 < r) (hlt : (p : ℚ) / r < 2 ^ 54) : unitExp p r ≤ 30 := by
  obtain ⟨-, -, hsub | hlow⟩ := unitExp_spec hp hr
  · omega
  · by_contra hc
    have hpow : (2 : ℚ) ^ (31 : ℤ) ≤ 2 ^ unitExp p r := zpow_le_zpow_right₀ (by norm_num) (by omega)
    have hnum : (2 : ℚ) ^ (31 : ℤ) = 2 ^ 31 := by norm_cast
    nlinarith

/-- The significand's size follows from the quotient's: rounding does not leave [2^23, 2^24]. -/
theorem RoundedTo.le {v : ℚ} {e : ℤ} {n k : Nat} (h : RoundedTo v e n) (hv : v < k * 2 ^ e) : n ≤ k := by
  have hunit : (0 : ℚ) < 2 ^ e := by positivity
  by_contra hc
  have hcast : (k : ℚ) + 1 ≤ n := by exact_mod_cast Nat.lt_of_not_le hc
  have hnear := (abs_le.1 h.near).1
  nlinarith

theorem RoundedTo.ge {v : ℚ} {e : ℤ} {n k : Nat} (h : RoundedTo v e n) (hv : k * 2 ^ e ≤ v) : k ≤ n := by
  have hunit : (0 : ℚ) < 2 ^ e := by positivity
  by_contra hc
  have hcast : (n : ℚ) + 1 ≤ k := by exact_mod_cast Nat.lt_of_not_le hc
  have hnear := (abs_le.1 h.near).2
  nlinarith

/-! ### The nearest magnitude -/

section
variable {v : ℚ} {e : ℤ} {n : Nat}

/-- No other multiple of the unit is nearer, and one as near makes v halfway. -/
theorem RoundedTo.nearest_multiple (h : RoundedTo v e n) (k : Nat) :
    |v - n * (2 : ℚ) ^ e| ≤ |v - k * 2 ^ e| ∧ (k ≠ n → |v - n * (2 : ℚ) ^ e| = |v - k * 2 ^ e| → n % 2 = 0) := by
  by_cases hk : k = n
  · subst hk; exact ⟨le_rfl, fun hne => absurd rfl hne⟩
  · have hunit : (0 : ℚ) < 2 ^ e := by positivity
    have hapart : (1 : ℚ) ≤ |(k : ℚ) - n| := by
      have hint : (1 : ℤ) ≤ |(k : ℤ) - n| := Int.one_le_abs (by omega)
      exact_mod_cast hint
    have htri : |(k : ℚ) - n| * 2 ^ e ≤ |v - n * (2 : ℚ) ^ e| + |v - k * 2 ^ e| := by
      rw [← abs_of_pos hunit, ← abs_mul, abs_of_pos hunit]
      calc |((k : ℚ) - n) * 2 ^ e| = |(v - n * (2 : ℚ) ^ e) - (v - k * 2 ^ e)| := by congr 1; ring
        _ ≤ _ := abs_sub _ _
    have hnear := h.near
    have hfar : (2 : ℚ) ^ e / 2 ≤ |v - k * 2 ^ e| := by nlinarith
    exact ⟨hnear.trans hfar, fun _ htie => h.even_of_tie (le_antisymm hnear (htie ▸ hfar))⟩

/-- No magnitude with a 24-bit significand is nearer: in a unit no smaller it is a multiple of ours, and in a smaller one it
lies below the quotient's binade, whose lowest multiple is nearer. -/
theorem RoundedTo.nearest (h : RoundedTo v e n) (hlow : e = -149 ∨ 2 ^ 23 * 2 ^ e ≤ v) {m : Nat} {u : ℤ}
    (hm : m < 2 ^ 24) (hu : -149 ≤ u) : |v - n * (2 : ℚ) ^ e| ≤ |v - m * 2 ^ u| ∧
      ((m : ℚ) * 2 ^ u ≠ n * 2 ^ e → |v - n * (2 : ℚ) ^ e| = |v - m * 2 ^ u| → n % 2 = 0) := by
  by_cases hue : e ≤ u
  · obtain ⟨k, hk⟩ := Int.eq_ofNat_of_zero_le (by omega : 0 ≤ u - e)
    have hmul : (m : ℚ) * 2 ^ u = (m * 2 ^ k : ℕ) * 2 ^ e := by
      rw [show u = k + e by omega, zpow_add₀ (by norm_num), zpow_natCast]
      push_cast; ring
    rw [hmul]
    obtain ⟨hle, htie⟩ := h.nearest_multiple (m * 2 ^ k)
    exact ⟨hle, fun hne => htie fun heq => hne (by rw [heq])⟩
  · have hbinade : (2 : ℚ) ^ 23 * 2 ^ e ≤ v := hlow.resolve_left (by omega)
    have hbelow : (m : ℚ) * 2 ^ u < 2 ^ 23 * 2 ^ e := by
      have hunit : (0 : ℚ) < 2 ^ u := by positivity
      have hpow : (2 : ℚ) ^ u * 2 ≤ 2 ^ e := by
        rw [← zpow_add_one₀ (by norm_num)]
        exact zpow_le_zpow_right₀ (by norm_num) (by omega)
      have hm' : (m : ℚ) < 2 ^ 24 := by exact_mod_cast hm
      nlinarith
    have hlowest := (h.nearest_multiple (2 ^ 23)).1
    rw [Nat.cast_pow, Nat.cast_ofNat, abs_of_nonneg (by linarith : 0 ≤ v - 2 ^ 23 * 2 ^ e)] at hlowest
    rw [abs_of_nonneg (by linarith : 0 ≤ v - m * 2 ^ u)]
    exact ⟨by linarith, fun _ htie => by linarith⟩

end

/-! ### The pattern of a significand (R35) -/

theorem one_le_f32Unit (x : BitVec 32) : 1 ≤ f32Unit x := by
  unfold f32Unit
  split_ifs <;> omega

/-- Exponent and fraction fields that together are E * 2^23 + n: the value is n units of 2^(E - 149), also when n carries into
the exponent, and also for a subnormal n. -/
theorem f32_of_significand {x : BitVec 32} {E n : Nat} (hexp : f32Exp x = (E * 2 ^ 23 + n) / 2 ^ 23)
    (hfrac : f32Frac x = (E * 2 ^ 23 + n) % 2 ^ 23) (hn : n ≤ 2 ^ 24) (hE : E = 0 ∨ 2 ^ 23 ≤ n) :
    |f32Real x| = n * 2 ^ ((E : ℤ) - 149) ∧ E + 1 ≤ f32Unit x ∧ f32Frac x % 2 = n % 2 := by
  have hparity : f32Frac x % 2 = n % 2 := by omega
  rw [abs_f32Real]
  by_cases hsub : n < 2 ^ 23
  · obtain rfl : E = 0 := by omega
    have hexp0 : f32Exp x = 0 := by omega
    have hunit : f32Unit x = 1 := by rw [f32Unit, if_pos hexp0]
    have hmant : f32Mant x = n := by rw [f32Mant, if_pos hexp0]; omega
    rw [hunit, hmant]
    exact ⟨by norm_num, by omega, hparity⟩
  · have hunit : f32Unit x = f32Exp x := by rw [f32Unit, if_neg (by omega)]
    have hmant : f32Mant x = 2 ^ 23 + f32Frac x := by rw [f32Mant, if_neg (by omega)]
    refine ⟨?_, by omega, hparity⟩
    rw [hunit, hmant]
    by_cases hcarry : n = 2 ^ 24
    · have hexp2 : f32Exp x = E + 2 := by omega
      have hfrac0 : f32Frac x = 0 := by omega
      rw [hexp2, hfrac0, hcarry, show ((E + 2 : ℕ) : ℤ) - 150 = (E - 149 : ℤ) + 1 by push_cast; ring,
        zpow_add_one₀ (by norm_num)]
      push_cast; ring
    · have hexp1 : f32Exp x = E + 1 := by omega
      have hfrac1 : 2 ^ 23 + f32Frac x = n := by omega
      rw [hexp1, hfrac1, show ((E + 1 : ℕ) : ℤ) - 150 = (E - 149 : ℤ) by push_cast; ring]

/-- What `rnd_f32` gives for a nonzero quotient: the significand in its unit, with the sign asked for. -/
structure RoundedF32 (neg : Bool) (v : ℚ) (y : BitVec 32) (e : ℤ) (n : Nat) : Prop where
  finite : f32Finite y = true
  sign : f32Sign y = neg
  value : |f32Real y| = n * 2 ^ e
  rounded : RoundedTo v e n
  binade : e = -149 ∨ 2 ^ 23 * 2 ^ e ≤ v
  unit : e + 150 ≤ f32Unit y
  parity : f32Frac y % 2 = n % 2

theorem rndF32_rounded (neg : Bool) {p r : Nat} (hp : 0 < p) (hr : 0 < r) (hlt : (p : ℚ) / r < 2 ^ 54) :
    RoundedF32 neg ((p : ℚ) / r) (rndF32 neg p r) (unitExp p r) (rndMant p r) := by
  obtain ⟨hmin, hhigh, hlow⟩ := unitExp_spec hp hr
  have hmax := unitExp_le hp hr hlt
  have hround := rndMant_roundedTo p hr
  have hn : rndMant p r ≤ 2 ^ 24 := hround.le (by exact_mod_cast hhigh)
  have hE : (unitExp p r + 149).toNat = 0 ∨ 2 ^ 23 ≤ rndMant p r := by
    obtain hsub | hnormal := hlow
    · left; omega
    · exact .inr (hround.ge (by exact_mod_cast hnormal))
  obtain ⟨E, hEe⟩ := Int.eq_ofNat_of_zero_le (by omega : 0 ≤ unitExp p r + 149)
  have hbits : rndBits p r = E * 2 ^ 23 + rndMant p r := by
    rw [rndBits, if_neg hp.ne', hEe, Int.toNat_natCast]
  rw [hEe, Int.toNat_natCast] at hE
  obtain ⟨hexp, hfrac, hsign⟩ := f32_fields neg (rndBits p r) (by omega)
  rw [← rndF32] at hexp hfrac hsign
  rw [hbits] at hexp hfrac
  obtain ⟨hvalue, hunit, hparity⟩ := f32_of_significand hexp hfrac hn hE
  have he : (E : ℤ) - 149 = unitExp p r := by omega
  rw [he] at hvalue
  have hfinite : f32Finite (rndF32 neg p r) = true := by
    rw [f32Finite, decide_eq_true_eq, hexp]; omega
  exact ⟨hfinite, hsign, hvalue, hround, hlow, by omega, hparity⟩

/-- R144 for one finite pattern z. -/
theorem RoundedF32.nearest {neg : Bool} {v : ℚ} {y : BitVec 32} {e : ℤ} {n : Nat} (h : RoundedF32 neg v y e n)
    (z : BitVec 32) : abs (v - |f32Real y|) ≤ abs (v - |f32Real z|) ∧
      (|f32Real z| ≠ |f32Real y| → abs (v - |f32Real y|) = abs (v - |f32Real z|) → f32Frac y % 2 = 0) := by
  have hunit := one_le_f32Unit z
  rw [h.value, abs_f32Real z, h.parity]
  exact h.rounded.nearest h.binade (f32Mant_lt z) (by omega)

/-- A zero quotient gives the zero of the sign asked for. -/
theorem rndF32_zero (neg : Bool) (r : Nat) : rndF32 neg 0 r = if neg = true then 0x80000000 else 0x00000000 := by
  rw [rndF32, rndBits, if_pos rfl]
  cases neg <;> rfl

theorem f32Real_eq_zero {x : BitVec 32} (h : f32Mant x = 0) : f32Real x = 0 := by
  rw [f32Real, h]; simp

theorem f32Real_rndF32_zero (neg : Bool) (r : Nat) : f32Real (rndF32 neg 0 r) = 0 := by
  rw [rndF32_zero]
  cases neg <;> exact f32Real_eq_zero (by decide)

/-- The quotients of R148 stay far below the greatest binary32. -/
theorem quotient_lt {m : Nat} (hm : m < 10 ^ 16) (d : Nat) : (m : ℚ) / (10 ^ d : ℕ) < 2 ^ 54 := by
  have hm' : (m : ℚ) < 10 ^ 16 := by exact_mod_cast hm
  have hd : (1 : ℚ) ≤ (10 ^ d : ℕ) := by exact_mod_cast Nat.one_le_pow _ _ (by decide)
  calc (m : ℚ) / (10 ^ d : ℕ) ≤ m := div_le_self (by positivity) hd
    _ < 2 ^ 54 := by linarith

/-- Settles O32: a zero quotient is exact, and any other is a significand rounded to its unit. -/
theorem roundingIsNearestEven : Obligations.RoundingIsNearestEven := by
  intro neg m d hm _
  rw [show (m : ℚ) / 10 ^ d = (m : ℚ) / (10 ^ d : ℕ) by push_cast; rfl]
  rcases Nat.eq_zero_or_pos m with rfl | hpos
  · have hzero := rndF32_zero neg (10 ^ d)
    have hreal := f32Real_rndF32_zero neg (10 ^ d)
    refine ⟨?_, ?_, fun z _ => ?_, fun z _ hne htie => ?_, fun _ => hzero⟩
    · rw [hzero]; cases neg <;> decide
    · rw [hzero]; cases neg <;> decide
    · rw [hreal]; simp
    · rw [hreal, abs_zero] at hne htie
      rw [Nat.cast_zero, zero_div, sub_zero, abs_zero, zero_sub, abs_neg, abs_abs] at htie
      exact absurd htie.symm hne
  · have h := rndF32_rounded neg hpos (Nat.pow_pos (by decide)) (quotient_lt hm d)
    exact ⟨h.finite, h.sign, fun z _ => (h.nearest z).1, fun z _ => (h.nearest z).2, fun h0 => absurd h0 hpos.ne'⟩

end Sys2Proof.Machine

/-! PROOF. O36 and O38, the round trips of the fixed-point converter (spec/41_fixed_point.md R146 to R148). The encoder's string is
the magnitude's digits at the padded width with the sign on a bit that the digits leave free, so the decoder reads back both
from the whole string, and from the cut one the digits alone. -/

namespace Sys2Proof.Machine

/-! ### The top digit and the sign bit -/

/-- The most significant byte of a string. -/
theorem bcdstr_succ (v n : Nat) : bcdstr v (n + 1) = tobcd8 (v / 100 ^ n % 100) :: bcdstr v n := by
  induction n generalizing v with
  | zero => simp [bcdstr]
  | succ n ih =>
    rw [bcdstr, ih (v / 100), Nat.div_div_eq_div_mul, ← pow_succ', List.cons_append]
    rfl

/-- More digits than the value has are zeros in front. -/
theorem bcdstr_add (k : Nat) {v n : Nat} (h : v < 100 ^ n) : bcdstr v (k + n) = List.replicate k 0 ++ bcdstr v n := by
  induction k with
  | zero => simp
  | succ k ih =>
    have hlt : v < 100 ^ (k + n) := h.trans_le (Nat.pow_le_pow_right (by decide) (by omega))
    rw [show k + 1 + n = k + n + 1 by omega, bcdstr_succ, Nat.div_eq_of_lt hlt, ih]
    rfl

/-- The first byte of a string that leaves the top bit free. -/
theorem bcdstr_eq_cons {v n : Nat} (hn : 1 ≤ n) (h : v < 8 * 10 ^ (2 * n - 1)) :
    ∃ b bs, bcdstr v n = b :: bs ∧ b.toNat < 128 := by
  obtain ⟨n, rfl⟩ := Nat.exists_eq_add_of_le' hn
  refine ⟨_, _, bcdstr_succ v n, ?_⟩
  have hpow : 8 * 10 ^ (2 * (n + 1) - 1) = 80 * 100 ^ n := by
    rw [show 2 * (n + 1) - 1 = 2 * n + 1 by omega, pow_succ, pow_mul]; ring
  have htop : v / 100 ^ n < 80 := Nat.div_lt_of_lt_mul (by rw [mul_comm]; omega)
  rw [tobcd8_toNat (Nat.mod_lt _ (by decide))]
  generalize v / 100 ^ n = q at htop ⊢
  omega

/-- The sign bit of a string whose top bit is free, before and after the encoder sets it (R146, R148). -/
theorem signBit_of_free {b : BitVec 8} (hb : b.toNat < 128) (bs : List (BitVec 8)) :
    signBitOf (b :: bs) = false ∧ clearSignBit (b :: bs) = b :: bs ∧ signBitOf (setSignBit (b :: bs)) = true ∧
      clearSignBit (setSignBit (b :: bs)) = b :: bs := by
  have hbyte : b.getLsbD 7 = false ∧ b &&& 0x7F = b ∧ (b ||| 0x80).getLsbD 7 = true ∧ (b ||| 0x80) &&& 0x7F = b := by
    revert b; decide
  obtain ⟨hclear, hkeep, hset, hback⟩ := hbyte
  exact ⟨hclear, congrArg (· :: bs) hkeep, hset, congrArg (· :: bs) hback⟩

/-! ### The encoder's string -/

section
variable {fmt : BitVec 4} {f : Format} {x : BitVec 32}

/-- A valid value's magnitude fits the format's digits and leaves the top bit of the padded string free. -/
theorem scaledValue_lt (hf : formatOf fmt = some f) (hx : ValidFor x f) :
    scaledValue x f.d < 8 * 10 ^ (2 * f.width - 1) ∧ scaledValue x f.d < 100 ^ f.width ∧
      scaledValue x f.d < 8 * 10 ^ (2 * max 4 f.width - 1) := by
  obtain ⟨htop, hdigits, -, -, -⟩ := Format.maxScaled_lt hf
  have hmax := hx.2
  have hmono : 8 * 10 ^ (2 * f.width - 1) ≤ 8 * 10 ^ (2 * max 4 f.width - 1) :=
    Nat.mul_le_mul_left 8 (Nat.pow_le_pow_right (by decide) (by omega))
  omega

/-- The string is the magnitude at the padded width, with the sign on its first byte. -/
theorem floatString_eq_bcdstr (hf : formatOf fmt = some f) (hx : ValidFor x f) : floatString x f =
    if f32IsNeg x then setSignBit (bcdstr (scaledValue x f.d) (max 4 f.width))
    else bcdstr (scaledValue x f.d) (max 4 f.width) := by
  obtain ⟨-, hdigits, -⟩ := scaledValue_lt hf hx
  have hpad := bcdstr_add (max 4 f.width - f.width) hdigits
  rw [Nat.sub_add_cancel (le_max_right 4 f.width)] at hpad
  rw [floatString, scaledMag_eq_scaledValue, ← hpad]

/-- The decoder takes the string apart again. -/
theorem signBit_floatString (hf : formatOf fmt = some f) (hx : ValidFor x f) :
    signBitOf (floatString x f) = f32IsNeg x ∧
      clearSignBit (floatString x f) = bcdstr (scaledValue x f.d) (max 4 f.width) := by
  obtain ⟨-, -, hfree⟩ := scaledValue_lt hf hx
  obtain ⟨b, bs, hcons, hb⟩ := bcdstr_eq_cons (by omega) hfree
  obtain ⟨hclear, hkeep, hset, hback⟩ := signBit_of_free hb bs
  rw [floatString_eq_bcdstr hf hx, hcons]
  cases f32IsNeg x with
  | false => exact ⟨hclear, hkeep⟩
  | true => exact ⟨hset, hback⟩

end

/-! ### Decoding -/

theorem execBcdToFloat_of_valid {le : Bool} {nb fmt : BitVec 4} {f : Format} {s : State} {bs : List (BitVec 8)}
    (hf : formatOf fmt = some f) (hnb : legalNB nb = true) (hbs : s.nbufString le nb.toNat = bs)
    (hvalid : (clearSignBit bs).all validBcd = true) :
    exec (.bcdToFloat le nb fmt) s = .next { s with
      result := BitVec.ofNat 64 (bcdval (clearSignBit bs))
      fval := rndF32 (signBitOf bs) (bcdval (clearSignBit bs)) f.scale
      statNeg := signBitOf bs, statErr := 0x00 } := by
  subst hbs
  obtain ⟨hbad, -⟩ | ⟨g, hg, -, -, hexec⟩ | ⟨g, hg, -, hinvalid, -⟩ := execBcdToFloat_cases le nb fmt s
  · rw [hf, hnb] at hbad; simp at hbad
  · cases hf.symm.trans hg
    exact hexec
  · cases hinvalid.symm.trans hvalid

/-! ### The cut string (R147, R290) -/

/-- The first bytes of what a producing command wrote. -/
theorem take_fillNbuf_of_le {bs : List (BitVec 8)} {n : Nat} (hn : n ≤ bs.length) (hl : bs.length ≤ 8) :
    (fillNbuf bs).toList.take n = bs.take n := by
  have h := congrArg (List.take n) (take_fillNbuf hl)
  rwa [List.take_take, min_eq_left hn] at h

theorem drop_setSignBit {k : Nat} (hk : 0 < k) (bs : List (BitVec 8)) : (setSignBit bs).drop k = bs.drop k := by
  obtain ⟨k, rfl⟩ := Nat.exists_eq_succ_of_ne_zero hk.ne'
  cases bs <;> rfl

/-- Without its pad bytes the string of a narrow format is the digits at the declared width, with no sign. -/
theorem drop_floatString {fmt : BitVec 4} {f : Format} {x : BitVec 32} (hf : formatOf fmt = some f) (hx : ValidFor x f)
    (hw : f.width < 4) : (floatString x f).drop (4 - f.width) = bcdstr (scaledValue x f.d) f.width := by
  obtain ⟨-, hdigits, -⟩ := scaledValue_lt hf hx
  have hpad := bcdstr_add (4 - f.width) hdigits
  rw [Nat.sub_add_cancel hw.le] at hpad
  have hdrop : (bcdstr (scaledValue x f.d) 4).drop (4 - f.width) = bcdstr (scaledValue x f.d) f.width := by
    rw [hpad, List.drop_left' List.length_replicate]
  rw [floatString_eq_bcdstr hf hx, max_eq_left hw.le]
  split_ifs
  · rw [drop_setSignBit (by omega), hdrop]
  · exact hdrop

/-- With LE = 1 the first bytes of NBUF are the last of the string. -/
theorem nbufString_cut {s : State} {bs : List (BitVec 8)} {n : Nat} (hn : n ≤ bs.length) (hl : bs.length ≤ 8)
    (h : s.nbuf = fillNbuf (orderLE true bs)) : s.nbufString true n = bs.drop (bs.length - n) := by
  have hrev : orderLE true bs = bs.reverse := rfl
  rw [State.nbufString, h, hrev, take_fillNbuf_of_le (by rwa [List.length_reverse]) (by rwa [List.length_reverse]),
    List.take_reverse]
  exact List.reverse_reverse _

theorem Format.width_toNat {fmt : BitVec 4} {f : Format} (hf : formatOf fmt = some f) :
    (BitVec.ofNat 4 f.width).toNat = f.width ∧ legalNB (BitVec.ofNat 4 f.width) = true := by
  obtain ⟨-, -, hlo, hhi, -⟩ := Format.maxScaled_lt hf
  have hw : (BitVec.ofNat 4 f.width).toNat = f.width := by rw [BitVec.toNat_ofNat]; omega
  exact ⟨hw, (legalNB_iff _).2 (by omega)⟩

/-- RESULT holds the magnitude whole. -/
theorem scaledValue_lt_pow {fmt : BitVec 4} {f : Format} {x : BitVec 32} (hf : formatOf fmt = some f) (hx : ValidFor x f) :
    scaledValue x f.d < 10 ^ 16 := by
  obtain ⟨-, hdigits, -⟩ := scaledValue_lt hf hx
  obtain ⟨-, -, -, hw, -⟩ := Format.maxScaled_lt hf
  calc scaledValue x f.d < 100 ^ f.width := hdigits
    _ ≤ 100 ^ 8 := Nat.pow_le_pow_right (by decide) (by omega)
    _ = 10 ^ 16 := by norm_num

/-- Settles O38: the cut leaves the digits at the declared width, whose top bit is free. -/
theorem cutStringLosesTheSign : Obligations.CutStringLosesTheSign := by
  intro fmt f s hf hw hx
  obtain ⟨hfree, hdigits, -⟩ := scaledValue_lt hf hx
  obtain ⟨-, -, hlo, -, -⟩ := Format.maxScaled_lt hf
  obtain ⟨hnb, hlegal⟩ := Format.width_toNat hf
  have hlen : (floatString s.fval f).length = 4 := by rw [floatString_length, max_eq_left hw.le]
  have hcut : (s.setNbuf (orderLE true (floatString s.fval f)) f.width).withOk.nbufString true
      (BitVec.ofNat 4 f.width).toNat = bcdstr (scaledValue s.fval f.d) f.width := by
    rw [hnb, nbufString_cut (by omega) (by omega) rfl, hlen, drop_floatString hf hx hw]
  obtain ⟨b, bs, hcons, hb⟩ := bcdstr_eq_cons (by omega) hfree
  obtain ⟨hclear, hkeep, -, -⟩ := signBit_of_free hb bs
  rw [← hcons] at hclear hkeep
  have hvalid : (clearSignBit (bcdstr (scaledValue s.fval f.d) f.width)).all validBcd = true := by
    rw [hkeep]; exact bcdstr_valid hdigits
  refine ⟨_, _, execFloatToBcd_of_validFor hf hx true, execBcdToFloat_of_valid hf hlegal hcut hvalid, rfl, hclear, ?_⟩
  dsimp only
  rw [hkeep, bcdval_bcdstr hdigits, BitVec.toNat_ofNat]
  exact Nat.mod_eq_of_lt ((scaledValue_lt_pow hf hx).trans (by norm_num))

/-! ### The distance (R142, R144) -/

/-- The magnitude is within half a format unit of the exact value. -/
theorem scaledValue_near (x : BitVec 32) (d : Nat) :
    abs ((scaledValue x d : ℚ) / 10 ^ d - |f32Real x|) ≤ (1 / 2) / 10 ^ d := by
  have hpow : (0 : ℚ) < 10 ^ d := by positivity
  have hfloor := Nat.floor_le (by positivity : (0 : ℚ) ≤ |f32Real x| * 10 ^ d + 1 / 2)
  have hlt := Nat.lt_floor_add_one (|f32Real x| * 10 ^ d + 1 / 2)
  rw [← scaledValue] at hfloor hlt
  rw [div_sub' hpow.ne', abs_div, abs_of_pos hpow]
  gcongr
  rw [abs_le]
  constructor <;> linarith

theorem f32Ulp_pos (x : BitVec 32) : 0 < f32Ulp x := by unfold f32Ulp; positivity

/-- The rounded pattern is within half of its own unit of the quotient. -/
theorem rndF32_near (neg : Bool) {m : Nat} (hm : m < 10 ^ 16) (d : Nat) :
    abs ((m : ℚ) / 10 ^ d - |f32Real (rndF32 neg m (10 ^ d))|) ≤ f32Ulp (rndF32 neg m (10 ^ d)) / 2 := by
  rcases Nat.eq_zero_or_pos m with rfl | hpos
  · have hulp := f32Ulp_pos (rndF32 neg 0 (10 ^ d))
    rw [f32Real_rndF32_zero, abs_zero, Nat.cast_zero, zero_div, sub_zero, abs_zero]
    positivity
  · have h := rndF32_rounded neg hpos (Nat.pow_pos (by decide)) (quotient_lt hm d)
    rw [show (m : ℚ) / 10 ^ d = (m : ℚ) / (10 ^ d : ℕ) by push_cast; rfl, h.value]
    refine h.rounded.near.trans ?_
    have hunit := h.unit
    unfold f32Ulp
    gcongr
    · norm_num
    · omega

theorem f32Real_eq_sign_mul (x : BitVec 32) : f32Real x = (if f32Sign x then -1 else 1) * |f32Real x| := by
  rw [abs_f32Real, f32Real, mul_assoc]

/-- Decoding keeps the sign of the value, so the distance is that of the magnitudes. -/
theorem roundTrip_near {x y : BitVec 32} (hsign : f32Sign y = decide (f32Real x < 0)) :
    |f32Real y - f32Real x| = abs (|f32Real y| - |f32Real x|) := by
  by_cases hneg : f32Real x < 0
  · have hy : f32Real y = -|f32Real y| := by
      rw [decide_eq_true hneg] at hsign
      conv_lhs => rw [f32Real_eq_sign_mul, hsign]
      simp
    rw [hy, abs_neg, abs_abs, abs_of_neg hneg, ← abs_neg]
    congr 1; ring
  · have hy : f32Real y = |f32Real y| := by
      rw [decide_eq_false hneg] at hsign
      conv_lhs => rw [f32Real_eq_sign_mul, hsign]
      simp
    rw [hy, abs_abs, abs_of_nonneg (not_lt.1 hneg)]

/-! ### The sign (R35, R145) -/

/-- -0.0 is the one pattern with the sign set and no significand. -/
theorem f32Mant_eq_zero_iff {x : BitVec 32} (hsign : f32Sign x = true) : f32Mant x = 0 ↔ x = 0x80000000 := by
  constructor
  · intro hmant
    have hx := x.isLt
    have hexp : f32Exp x = 0 := by
      unfold f32Mant at hmant
      split_ifs at hmant with h
      · exact h
      · omega
    rw [f32Mant, if_pos hexp] at hmant
    rw [f32Sign, BitVec.getLsbD, Nat.testBit_eq_decide_div_mod_eq, decide_eq_true_eq] at hsign
    rw [f32Exp, BitVec.extractLsb'_toNat, Nat.shiftRight_eq_div_pow] at hexp
    rw [f32Frac, BitVec.extractLsb'_toNat, Nat.shiftRight_zero] at hmant
    apply BitVec.eq_of_toNat_eq
    change x.toNat = 2 ^ 31
    omega
  · rintro rfl; decide

theorem f32IsNeg_eq_decide (x : BitVec 32) : f32IsNeg x = decide (f32Real x < 0) := by
  rw [Bool.eq_iff_iff, decide_eq_true_eq, f32IsNeg_iff]

/-- `real(x) < 0` (R145) is the sign bit but for -0.0. -/
theorem decide_f32Real_neg (x : BitVec 32) : decide (f32Real x < 0) = (f32Sign x && decide (x ≠ 0x80000000)) := by
  rw [← f32IsNeg_eq_decide, f32IsNeg]
  cases hsign : f32Sign x with
  | false => rfl
  | true => simp only [Bool.true_and, ne_eq, f32Mant_eq_zero_iff hsign]

theorem scaledValue_negZero (d : Nat) : scaledValue 0x80000000 d = 0 := by
  rw [scaledValue, f32Real_eq_zero (by decide), abs_zero, zero_mul, zero_add]
  norm_num

/-- What the decoder leaves of the state that the encoder left, given the uncut string. -/
theorem execBcdToFloat_of_encoded {fmt : BitVec 4} {f : Format} {s t : State} {le : Bool} (hf : formatOf fmt = some f)
    (hx : ValidFor s.fval f) (ht : t = (s.setNbuf (orderLE le (floatString s.fval f)) f.width).withOk) :
    exec (.bcdToFloat le t.nlenProduced fmt) t = .next { t with
      result := BitVec.ofNat 64 (scaledValue s.fval f.d)
      fval := rndF32 (decide (f32Real s.fval < 0)) (scaledValue s.fval f.d) (10 ^ f.d)
      statNeg := decide (f32Real s.fval < 0), statErr := 0x00 } := by
  obtain ⟨-, -, -, hw, -⟩ := Format.maxScaled_lt hf
  obtain ⟨-, hdigits, -⟩ := scaledValue_lt hf hx
  obtain ⟨hsign, hclear⟩ := signBit_floatString hf hx
  have hlen : (floatString s.fval f).length ≤ 8 := by rw [floatString_length]; omega
  have hnb : t.nlenProduced.toNat = (floatString s.fval f).length := by
    rw [ht, State.withOk_nlenProduced, State.setNbuf_nlenProduced, orderLE_length, BitVec.toNat_ofNat]
    omega
  have hlegal : legalNB t.nlenProduced = true := by
    rw [legalNB_iff, hnb, floatString_length]; omega
  have hback : t.nbufString le t.nlenProduced.toNat = floatString s.fval f := by
    rw [hnb, State.nbufString_of_fill hlen (by rw [ht]; rfl)]
  have hdigits' : scaledValue s.fval f.d < 100 ^ max 4 f.width :=
    hdigits.trans_le (Nat.pow_le_pow_right (by decide) (le_max_right 4 f.width))
  have hvalid : (clearSignBit (floatString s.fval f)).all validBcd = true := by
    rw [hclear]; exact bcdstr_valid hdigits'
  rw [execBcdToFloat_of_valid hf hlegal hback hvalid, hsign, hclear, bcdval_bcdstr hdigits', f32IsNeg_eq_decide]
  rfl

/-- Settles O36: the decoder reads back the magnitude and the sign of the uncut string; the two roundings add up. -/
theorem floatRoundTrip : Obligations.FloatRoundTrip := by
  intro le fmt f s hf hx
  obtain ⟨-, -, -, -, hd⟩ := Format.maxScaled_lt hf
  have hm := scaledValue_lt_pow hf hx
  obtain ⟨-, hsign, -⟩ := roundingIsNearestEven (decide (f32Real s.fval < 0)) _ f.d hm hd
  refine ⟨_, _, execFloatToBcd_of_validFor hf hx le, execBcdToFloat_of_encoded hf hx rfl, rfl, ?_, rfl, ?_, ?_, ?_, ?_⟩
  · rw [BitVec.toNat_ofNat]
    exact Nat.mod_eq_of_lt (hm.trans (by norm_num))
  · dsimp only
    rw [roundTrip_near hsign]
    refine (abs_sub_le _ ((scaledValue s.fval f.d : ℚ) / 10 ^ f.d) _).trans ?_
    rw [add_comm, abs_sub_comm |f32Real (rndF32 _ _ _)|]
    exact add_le_add (scaledValue_near _ _) (rndF32_near _ hm _)
  · rw [← decide_f32Real_neg]
    exact hsign
  · intro hzero
    have hnot : ¬ f32Real 0x80000000 < 0 := by rw [f32Real_eq_zero (by decide)]; exact lt_irrefl 0
    dsimp only
    rw [hzero, scaledValue_negZero, rndF32_zero, decide_eq_false hnot]
    rfl
  · intro hneg hm0
    dsimp only
    rw [hm0, rndF32_zero, decide_eq_true hneg]
    rfl

end Sys2Proof.Machine
